-- ==== Sys2Proof/Word.lean ====
section
/-! DEFINITION. The plain words of the machine: bytes and 64-bit slot contents. An address is a plain
`Nat`, the exact integer of the spec's pseudocode ("All values in pseudocode are mathematical integers unless a width is
stated", R10): `LIMIT` and `LAST` may be exactly `2^PTR_WIDTH` (R303 check 2), which no `PTR_WIDTH`-bit pattern holds.
DEDUCED, log 1. -/

namespace Sys2Proof

/-- A byte (R10). -/
abbrev Byte := BitVec 8

/-- The content of one register slot, `SLOT_BITS = 64` (R8, R21). -/
abbrev Word := BitVec 64

end Sys2Proof
end

