-- ==== Sys2Proof/Machine/Bytes.lean ====
section
/-! DEFINITION. Byte order and integer narrowing (R10, R11, R62): the one place where bytes become values. -/

namespace Sys2Proof.Machine

/-- The low `n` bytes of `v`, least significant first (R62). -/
def leBytes : Nat → Nat → List Byte
  | 0, _ => []
  | n + 1, v => BitVec.ofNat 8 v :: leBytes n (v / 256)

/-- The little-endian value of a byte sequence, `b0 + 256*b1 + …` (R10). -/
def leNat : List Byte → Nat
  | [] => 0
  | b :: bs => b.toNat + 256 * leNat bs

/-- `v mod 2^bits`, the non-negative remainder (R10): `trunc` and `zext` of R11 on an exact integer. -/
def truncTo (bits : Nat) (v : Int) : Nat :=
  (v % (2 ^ bits : Nat)).toNat

/-- `sext_bits(v)` (R11): the integer whose two's-complement pattern is `v mod 2^bits`. -/
def sext (bits : Nat) (v : Nat) : Int :=
  (BitVec.ofNat bits v).toInt

end Sys2Proof.Machine
end

