-- ==== Sys2Proof/Machine/Memory.lean ====
section
/-! DEFINITION. The flat byte-addressed space (R60) as a canonical list of cells. -/

namespace Sys2Proof.Machine

/-- The address space: addresses strictly rising, no cell equal to what an unlisted address reads as. -/
abbrev Memory := List Host.Cell

/-- What an unlisted address reads as. The spec leaves unloaded image bytes and the release-build stack open (U7, U8);
its debug build zeroes both. DESIGN CHOICE, unsafe, log 3. -/
def Memory.unlisted : Byte := 0

/-- One byte. -/
def Memory.read : Memory → Nat → Byte
  | [], _ => Memory.unlisted
  | (k, b) :: m, a => if k = a then b else Memory.read m a

/-- Write one byte, keeping the canonical form: the unlisted value removes the cell. -/
def Memory.write : Memory → Nat → Byte → Memory
  | [], a, v => if v = Memory.unlisted then [] else [(a, v)]
  | (k, b) :: m, a, v =>
    if a = k then (if v = Memory.unlisted then Memory.write m a v else (a, v) :: m)
    else if a < k ∧ v ≠ Memory.unlisted then (a, v) :: (k, b) :: m
    else (k, b) :: Memory.write m a v

/-- The `n` bytes at `a .. a+n-1`. -/
def Memory.readBytes (m : Memory) (a : Nat) : Nat → List Byte
  | 0 => []
  | n + 1 => m.read a :: Memory.readBytes m (a + 1) n

/-- Write a byte sequence at `a` and up. -/
def Memory.writeBytes (m : Memory) (a : Nat) : List Byte → Memory
  | [] => m
  | b :: bs => Memory.writeBytes (m.write a b) (a + 1) bs

/-- Every cell lies above `lo`, addresses rise strictly and no cell holds the unlisted value. -/
def Memory.wfFrom (lo : Nat) : Memory → Bool
  | [] => true
  | (k, b) :: m => decide (lo ≤ k) && decide (b ≠ Memory.unlisted) && Memory.wfFrom (k + 1) m

/-- The canonical form. -/
def Memory.wf (m : Memory) : Bool :=
  Memory.wfFrom 0 m

end Sys2Proof.Machine
end

