-- ==== Sys2Proof/Config.lean ====
section
/-! DEFINITION. The build-time parameters of `00_scope.md` R8: the enumerated ones as types, the fixed ones as named
constants, each stated once. `SLOT_BITS` is the width of `Word`, and `NUM_CLASSES` the number of constructors of
`RegClass`. The OPEN ones are fields of `Machine.Launch` and, once launched, of `Machine.State`. -/

namespace Sys2Proof

/-- `PTR_WIDTH`, the target profile (R8, R102). -/
inductive PtrWidth
  | w32
  | w64
  deriving DecidableEq, Repr

/-- `STACK_DIR` (R8, R35). -/
inductive StackDir
  | forward
  | backward
  deriving DecidableEq, Repr

/-- `CALL_CONV`: where return addresses are kept (R8, R160). -/
inductive CallConv
  | stack
  | ledger
  deriving DecidableEq, Repr

/-- `NUM_SLOTS`, the number of register slots (R8, R21). A register identifier is split by it (R22). -/
abbrev Config.numSlots : Nat := 32

/-- `IMAGE_ALIGN` (R8, R67). -/
abbrev Config.imageAlign : Nat := 256

/-- `TARGET_ALIGN` (R8, R66). -/
abbrev Config.targetAlign : Nat := 16

/-- The longest instruction in bytes (R117). -/
abbrev Config.maxLength : Nat := 21

end Sys2Proof
end

