-- ==== Sys2Proof/Syntax.lean ====
section
/-! DEFINITION. The instructions of `30_encoding.md` R111, one constructor per row of the opcode table, with their
operand kinds (R93 to R101). -/

namespace Sys2Proof

/-- Register width classes, in the source's order (R22, R94). -/
inductive RegClass
  | r8
  | r8high
  | r16
  | r32
  | r64
  deriving DecidableEq, Repr

/-- A register slot index, 0 to `NUM_SLOTS - 1` (R8, R21). -/
abbrev Slot := Fin Config.numSlots

/-- A decoded register identifier `id = c * NUM_SLOTS + s` (R22). -/
structure RegId where
  cls  : RegClass
  slot : Slot
  deriving DecidableEq, Repr

/-- Data-type tags, in the source's order (R95). -/
inductive DataType
  | int8
  | uint8
  | int16
  | uint16
  | int32
  | uint32
  | int64
  | uint64
  | pointer
  deriving DecidableEq, Repr

/-- Condition codes, in the order of the source's table (R97, R200). -/
inductive Cond
  | jz
  | jnz
  | je
  | jne
  | jl
  | jle
  | jg
  | jge
  deriving DecidableEq, Repr

/-- Jump-type tags, in the source's order (R96). -/
inductive JumpType
  | near
  | short
  | long
  | ptr32
  | ptr64
  deriving DecidableEq, Repr

/-- A branch target field with the jump-type tag that selects it (R96): a signed offset from the instruction's
base, or an absolute address. -/
inductive Target
  | near  (rel : BitVec 8)
  | short (rel : BitVec 16)
  | long  (rel : BitVec 32)
  | ptr32 (address : BitVec 32)
  | ptr64 (address : BitVec 64)
  deriving DecidableEq, Repr

/-- The 29 instructions of R111. An immediate is held in 64 bits; `WellFormed` says it fits its field. -/
inductive Instr
  | nop
  | exit
  | movRR (rd rs : RegId)
  | movRI (rd : RegId) (imm : Word)
  | inc (r : RegId)
  | dec (r : RegId)
  | addRR (rd rs : RegId)
  | addRI (rd : RegId) (imm : Word)
  | subRR (rd rs : RegId)
  | subRI (rd : RegId) (imm : Word)
  | mulRR (rd rs : RegId)
  | mulRI (rd : RegId) (imm : Word)
  | pushR (r : RegId)
  | popR (r : RegId)
  | pushI (dt : DataType) (imm : Word)
  | jmpNear (rel : BitVec 8)
  | jmpShort (rel : BitVec 16)
  | jmpLong (rel : BitVec 32)
  | jmpPtr32 (address : BitVec 32)
  | jmpPtr64 (address : BitVec 64)
  | callShort (rel : BitVec 16)
  | callLong (rel : BitVec 32)
  | callPtr32 (address : BitVec 32)
  | callPtr64 (address : BitVec 64)
  | ret
  | jccRR (cc : Cond) (dt : DataType) (sa sb : Slot) (tgt : Target)
  | jccRI (cc : Cond) (dt : DataType) (sa : Slot) (imm : Word) (tgt : Target)
  | jccRM
  | jccMM
  deriving DecidableEq, Repr

end Sys2Proof
end

