-- ==== Sys2Proof/Machine/State.lean ====
section
/-! DEFINITION. The architectural state (R20) as plain data, the reasons a step can stop, and the state after reset. -/

namespace Sys2Proof.Machine

/-- `STATUS.RUN_STATE` (R48). -/
inductive RunState
  | unbound
  | running
  | exited
  | endOfStream
  | faulted
  | refused
  deriving DecidableEq, Repr

/-- The faults of the core (R261), reported in `STATUS.FAULT_CODE`. -/
inductive FaultCode
  | unknownOpcode
  | unknownRegister
  | unknownDataType
  | unknownJumpType
  | unknownCondition
  | widthMismatch
  | profileInvalid
  | unsupported
  | cursorOverflow
  | cursorUnderflow
  | stackOverflow
  | stackUnderflow
  | alignment
  | emptyCallStack
  | ledgerOverflow
  | launchRefused
  deriving DecidableEq, Repr

/-- A ledger entry: the base of the call and the address after it (R40). The debug information of the source is
never produced or read (R40, R53), log 13. -/
structure LedgerEntry where
  callSite   : Nat
  returnSite : Nat
  deriving DecidableEq, Repr

/-- Tags of the return-value descriptor, in the source's order (R45). -/
inductive RetTag
  | basic
  | float
  | double
  | pointer
  | struct
  deriving DecidableEq, Repr

/-- `RETDESC` (R44). -/
structure RetDesc where
  tag    : BitVec 3
  length : BitVec 32
  value  : Word
  deriving DecidableEq, Repr

/-- The host register map (R51). -/
inductive HostReg
  | status
  | faultPc
  | faultInfo
  | pc
  | start
  | limit
  | entry
  | sp
  | stackFirst
  | stackLast
  | ledgerDepth
  | retDescTag
  | retDescLength
  | retDescValue
  | config
  deriving DecidableEq, Repr

/-- The machine (R20): one frame, one stack, one image, with the configuration fixed at reset. When the host may read it
(slots, stack bytes and ledger only in a terminal state by R51, also between steps by R311) is not restricted: DEDUCED,
log 21. -/
structure State where
  /-- `x[0..31]` (R21). -/
  regs           : Vector Word Config.numSlots
  /-- The execution cursor (R29). -/
  pc             : Nat
  /-- `START` (R30). -/
  start          : Nat
  /-- `LIMIT` (R30). -/
  limit          : Nat
  /-- `ENTRY` (R30). -/
  entry          : Nat
  /-- The stack pointer (R34). -/
  sp             : Nat
  /-- `FIRST` (R33). -/
  first          : Nat
  /-- `LAST` (R33). -/
  last           : Nat
  /-- Image and stack bytes in the one address space (R60). -/
  mem            : Memory
  /-- The call-stack ledger, oldest entry first (R39). -/
  ledger         : List LedgerEntry
  /-- `LEDGER_CAPACITY`, none when unbounded (R8, R41). -/
  ledgerCapacity : Option Nat
  /-- `RETDESC` (R44). -/
  retDesc        : RetDesc
  /-- `STATUS.RUN_STATE` (R48). -/
  runState       : RunState
  /-- `STATUS.FAULT_CODE`, none for 0 (R48). -/
  faultCode      : Option FaultCode
  /-- `FAULT_PC` (R48). -/
  faultPc        : Nat
  /-- `FAULT_INFO` (R48). -/
  faultInfo      : Word
  /-- `PTR_WIDTH` (R8). -/
  ptrWidth       : PtrWidth
  /-- `STACK_DIR` (R35). -/
  stackDir       : StackDir
  /-- `CALL_CONV` (R8). -/
  callConv       : CallConv
  deriving DecidableEq, Repr

/-- Why the model stops without a next state. The core's own faults are not here: they are next states in which
`RUN_STATE = Faulted` (R271). -/
inductive Fault
  /-- Raised by `memRead` and `memWrite` (through `push` and `pop`): an access to `address .. address+bytes-1` that is
  not inside `[FIRST, LAST)`, which R64 leaves undefined. Safe: no state that a run from an accepted launch reaches
  makes one (log 8). -/
  | stackAccess (address : Nat) (bytes : Nat)
  deriving DecidableEq, Repr

/-- Why the model gives no meaning. -/
inductive Refusal
  /-- Raised by `exec` alone, for an instruction without a meaning. Safe. No arm uses it. -/
  | notModelled (mnemonic : String)
  deriving DecidableEq, Repr

/-- The parameters a launch takes (R8, R300), with the image bytes (so `IMAGE_SIZE` is their number). -/
structure Launch where
  ptrWidth       : Nat
  imageBase      : Nat
  image          : List Byte
  entryOffset    : Nat
  stackDir       : StackDir
  stackBase      : Nat
  stackCapacity  : Nat
  callConv       : CallConv
  /-- none is unbounded. -/
  ledgerCapacity : Option Nat
  /-- `REG_RESET` (R27). -/
  regReset       : Vector Word Config.numSlots
  /-- `STACK_INIT` from `FIRST` up (R33); bytes not given are 0. -/
  stackInit      : List Byte
  deriving DecidableEq, Repr

/-- The machine after the standard launch of `95_test_vectors.md` section 0 (R301, log 5) with an empty image (log 6).
Slots read 0 (log 2), stack bytes 0 (log 3) and `RETDESC` holds zeros (log 4): DESIGN CHOICE. -/
def State.reset : State where
  regs := Vector.replicate Config.numSlots 0
  pc := 0x1000
  start := 0x1000
  limit := 0x1000
  entry := 0x1000
  sp := 0x8000
  first := 0x8000
  last := 0x8100
  mem := []
  ledger := []
  ledgerCapacity := none
  retDesc := ⟨0, 0, 0⟩
  runState := .running
  faultCode := none
  faultPc := 0
  faultInfo := 0
  ptrWidth := .w64
  stackDir := .forward
  callConv := .stack

end Sys2Proof.Machine
end

