-- ==== Sys2Proof/Machine/Widths.lean ====
section
/-! DEFINITION. Field numbers and widths of the operand kinds (R22, R94 to R97) and the instruction lengths (R117). -/

namespace Sys2Proof

/-- `PTR_WIDTH` in bits (R8). -/
def PtrWidth.bits : PtrWidth → Nat
  | .w32 => 32
  | .w64 => 64

/-- `PTR_BYTES` (R8). -/
def PtrWidth.bytes : PtrWidth → Nat
  | .w32 => 4
  | .w64 => 8

/-- `W(c)/8` (R25, R94). -/
def RegClass.bytes : RegClass → Nat
  | .r8 => 1
  | .r8high => 1
  | .r16 => 2
  | .r32 => 4
  | .r64 => 8

/-- `W(c)` (R23). -/
def RegClass.bits (c : RegClass) : Nat :=
  8 * c.bytes

/-- The number of a width class (R22, R94). -/
def RegClass.code : RegClass → Nat
  | .r8 => 0
  | .r8high => 1
  | .r16 => 2
  | .r32 => 3
  | .r64 => 4

/-- The class of a number, none for 5 and above (R22). -/
def RegClass.ofCode? : Nat → Option RegClass
  | 0 => some .r8
  | 1 => some .r8high
  | 2 => some .r16
  | 3 => some .r32
  | 4 => some .r64
  | _ => none

/-- The slot of an index byte, none for `NUM_SLOTS` and above (R115). -/
def Slot.ofCode? (n : Nat) : Option Slot :=
  if h : n < Config.numSlots then some ⟨n, h⟩ else none

/-- The identifier of a register, `c * NUM_SLOTS + s` (R22). -/
def RegId.code (r : RegId) : Nat :=
  r.cls.code * Config.numSlots + r.slot.val

/-- `DecodeReg` (R22), none where it raises `UnknownRegister`. -/
def RegId.ofCode? (id : Nat) : Option RegId :=
  match RegClass.ofCode? (id / Config.numSlots) with
  | some c => some ⟨c, ⟨id % Config.numSlots, Nat.mod_lt _ (by decide)⟩⟩
  | none => none

/-- `DW(dt)` (R95); a Pointer is `PTR_BYTES` wide (R102). -/
def DataType.bytes (w : PtrWidth) : DataType → Nat
  | .int8 | .uint8 => 1
  | .int16 | .uint16 => 2
  | .int32 | .uint32 => 4
  | .int64 | .uint64 => 8
  | .pointer => w.bytes

/-- The width of a data type in bits (R201). -/
def DataType.bits (w : PtrWidth) (dt : DataType) : Nat :=
  8 * dt.bytes w

/-- Signedness of a data type (R95): Int tags signed, UInt tags and Pointer unsigned. -/
def DataType.signed : DataType → Bool
  | .int8 | .int16 | .int32 | .int64 => true
  | .uint8 | .uint16 | .uint32 | .uint64 | .pointer => false

/-- The number of a data-type tag (R95). -/
def DataType.code : DataType → Nat
  | .int8 => 0
  | .uint8 => 1
  | .int16 => 2
  | .uint16 => 3
  | .int32 => 4
  | .uint32 => 5
  | .int64 => 6
  | .uint64 => 7
  | .pointer => 8

/-- The data type of a tag, none for 9 and above (R95). -/
def DataType.ofCode? : Nat → Option DataType
  | 0 => some .int8
  | 1 => some .uint8
  | 2 => some .int16
  | 3 => some .uint16
  | 4 => some .int32
  | 5 => some .uint32
  | 6 => some .int64
  | 7 => some .uint64
  | 8 => some .pointer
  | _ => none

/-- The number of a condition code (R97). -/
def Cond.code : Cond → Nat
  | .jz => 0
  | .jnz => 1
  | .je => 2
  | .jne => 3
  | .jl => 4
  | .jle => 5
  | .jg => 6
  | .jge => 7

/-- The condition of a code, none for 8 and above (R97). -/
def Cond.ofCode? : Nat → Option Cond
  | 0 => some .jz
  | 1 => some .jnz
  | 2 => some .je
  | 3 => some .jne
  | 4 => some .jl
  | 5 => some .jle
  | 6 => some .jg
  | 7 => some .jge
  | _ => none

/-- The number of a jump-type tag (R96). -/
def JumpType.code : JumpType → Nat
  | .near => 0
  | .short => 1
  | .long => 2
  | .ptr32 => 3
  | .ptr64 => 4

/-- The jump type of a tag, none for 5 and above (R96). -/
def JumpType.ofCode? : Nat → Option JumpType
  | 0 => some .near
  | 1 => some .short
  | 2 => some .long
  | 3 => some .ptr32
  | 4 => some .ptr64
  | _ => none

/-- `JW(jt)` (R96). -/
def JumpType.bytes : JumpType → Nat
  | .near => 1
  | .short => 2
  | .long => 4
  | .ptr32 => 4
  | .ptr64 => 8

/-- Profile validity of a jump type: Ptr64 only when `PTR_WIDTH = 64` (R96, R102). -/
def JumpType.validIn (w : PtrWidth) : JumpType → Bool
  | .near | .short | .long | .ptr32 => true
  | .ptr64 => w == .w64

/-- The jump type that selects a target field (R96). -/
def Target.jumpType : Target → JumpType
  | .near _ => .near
  | .short _ => .short
  | .long _ => .long
  | .ptr32 _ => .ptr32
  | .ptr64 _ => .ptr64

/-- The target field as an unsigned number. -/
def Target.field : Target → Nat
  | .near rel => rel.toNat
  | .short rel => rel.toNat
  | .long rel => rel.toNat
  | .ptr32 address => address.toNat
  | .ptr64 address => address.toNat

/-- The target that a jump type reads from a field's value (R96). -/
def Target.ofField (jt : JumpType) (v : Nat) : Target :=
  match jt with
  | .near => .near (BitVec.ofNat 8 v)
  | .short => .short (BitVec.ofNat 16 v)
  | .long => .long (BitVec.ofNat 32 v)
  | .ptr32 => .ptr32 (BitVec.ofNat 32 v)
  | .ptr64 => .ptr64 (BitVec.ofNat 64 v)

/-- Instruction lengths (R117). `JCC_RM` and `JCC_MM` have their opcode byte only (R113). -/
def Instr.length (w : PtrWidth) : Instr → Nat
  | .nop | .exit | .ret | .jccRM | .jccMM => 1
  | .inc _ | .dec _ | .pushR _ | .popR _ => 2
  | .movRR _ _ | .addRR _ _ | .subRR _ _ | .mulRR _ _ => 3
  | .movRI rd _ | .addRI rd _ | .subRI rd _ | .mulRI rd _ => 2 + rd.cls.bytes
  | .pushI dt _ => 2 + dt.bytes w
  | .jmpNear _ => 2
  | .jmpShort _ | .callShort _ => 3
  | .jmpLong _ | .callLong _ => 5
  | .jmpPtr32 _ | .callPtr32 _ => 5
  | .jmpPtr64 _ | .callPtr64 _ => 9
  | .jccRR _ _ _ _ tgt => 6 + tgt.jumpType.bytes
  | .jccRI _ dt _ _ tgt => 5 + dt.bytes w + tgt.jumpType.bytes

end Sys2Proof
end

