-- ==== Sys2Proof/Machine/Operands.lean ====
section
/-! DEFINITION. Operand forms: the width classes of a slot (R23, R24), typed operands (R201) and targets (R100, R101). -/

namespace Sys2Proof.Machine

/-- The bits of a slot that class `c` names, as an unsigned number (R23). -/
def readField (c : RegClass) (x : Word) : Nat :=
  match c with
  | .r8 => (x.extractLsb' 0 8).toNat
  | .r8high => (x.extractLsb' 8 8).toNat
  | .r16 => (x.extractLsb' 0 16).toNat
  | .r32 => (x.extractLsb' 0 32).toNat
  | .r64 => x.toNat

/-- The slot with exactly the bits that class `c` names replaced by `trunc_W(c)(v)` (R24). -/
def writeField (c : RegClass) (x : Word) (v : Nat) : Word :=
  match c with
  | .r8 => x.extractLsb' 8 56 ++ BitVec.ofNat 8 v
  | .r8high => x.extractLsb' 16 48 ++ (BitVec.ofNat 8 v ++ x.extractLsb' 0 8)
  | .r16 => x.extractLsb' 16 48 ++ BitVec.ofNat 16 v
  | .r32 => x.extractLsb' 32 32 ++ BitVec.ofNat 32 v
  | .r64 => BitVec.ofNat 64 v

/-- `RegRead(c, s)` (R23). -/
def State.regRead (s : State) (r : RegId) : Nat :=
  readField r.cls s.regs[r.slot]

/-- `RegWrite(c, s, v)` (R24). -/
def State.regWrite (s : State) (r : RegId) (v : Nat) : State :=
  { s with regs := s.regs.set r.slot (writeField r.cls s.regs[r.slot] v) }

/-- `ReadTyped(dt, v)` (R201): signed for Int tags, unsigned for UInt tags and Pointer. -/
def readTyped (w : PtrWidth) (dt : DataType) (v : Nat) : Int :=
  if dt.signed then sext (dt.bits w) v else (truncTo (dt.bits w) v : Nat)

/-- A typed register operand: the low `DW(dt)` bytes of the slot (R201). -/
def State.slotTyped (s : State) (dt : DataType) (slot : Slot) : Int :=
  readTyped s.ptrWidth dt (truncTo (dt.bits s.ptrWidth) s.regs[slot].toNat)

/-- A relative target from the instruction base, modulo `2^PTR_WIDTH` (R100). -/
def relTarget (w : PtrWidth) (base : Nat) (offset : Int) : Nat :=
  truncTo w.bits (base + offset)

/-- `FetchTarget(jt)`'s address (R205): relative forms from the base, absolute forms zero-extended (R101). -/
def targetAddr (w : PtrWidth) (base : Nat) : Target → Nat
  | .near rel => relTarget w base rel.toInt
  | .short rel => relTarget w base rel.toInt
  | .long rel => relTarget w base rel.toInt
  | .ptr32 address => address.toNat
  | .ptr64 address => address.toNat

end Sys2Proof.Machine
end

