-- ==== Sys2Proof/Machine/Flags.lean ====
section
/-! DEFINITION. The core has no flags (R50). What takes their place is the condition evaluator (R200), which holds no
state and writes nothing (R211), and the modular results of the arithmetic, which record no carry or overflow (R131). -/

namespace Sys2Proof.Machine

/-- `CondEval(cc, a, b)` (R200). `jz` and `jnz` ask it of both operands (R202). -/
def condEval (cc : Cond) (a b : Int) : Bool :=
  match cc with
  | .jz => a == 0 && b == 0
  | .jnz => a != 0 && b != 0
  | .je => a == b
  | .jne => a != b
  | .jl => decide (a < b)
  | .jle => decide (a ≤ b)
  | .jg => decide (a > b)
  | .jge => decide (a ≥ b)

/-- The arithmetic of R131 at class `c`: the exact integer result modulo `2^W(c)`. -/
def arith (c : RegClass) (exact : Int) : Nat :=
  truncTo c.bits exact

end Sys2Proof.Machine
end

