-- ==== Sys2Proof/WellFormed.lean ====
section
/-! DEFINITION. Which instruction terms are instructions of a profile: immediates fit their fields (R98, R99), the
classes of a one-width operation agree (R130) and a Ptr64 form needs `PTR_WIDTH = 64` (R102). Register classes, slots,
tags and codes are legal by their types (R114, R115). -/

namespace Sys2Proof

/-- An immediate fits a field of `bytes` bytes. -/
def immFits (bytes : Nat) (imm : Word) : Bool :=
  decide (imm.toNat < 2 ^ (8 * bytes))

/-- The instruction is one the encoding of profile `w` has. -/
def Instr.wellFormed (w : PtrWidth) : Instr → Bool
  | .nop | .exit | .ret | .jccRM | .jccMM => true
  | .inc _ | .dec _ | .pushR _ | .popR _ | .movRR _ _ => true
  | .addRR rd rs | .subRR rd rs | .mulRR rd rs => rd.cls == rs.cls
  | .movRI rd imm | .addRI rd imm | .subRI rd imm | .mulRI rd imm => immFits rd.cls.bytes imm
  | .pushI dt imm => immFits (dt.bytes w) imm
  | .jmpNear _ | .jmpShort _ | .jmpLong _ | .jmpPtr32 _ => true
  | .callShort _ | .callLong _ | .callPtr32 _ => true
  | .jmpPtr64 _ | .callPtr64 _ => w == .w64
  | .jccRR _ _ _ _ tgt => tgt.jumpType.validIn w
  | .jccRI _ dt _ imm tgt => tgt.jumpType.validIn w && immFits (dt.bytes w) imm

end Sys2Proof
end

