-- ==== Sys2Proof/Decode.lean ====
section
/-! DEFINITION. Decoding (R90 to R119), total on any bytes and rejecting by name, and the encoder after it. -/

namespace Sys2Proof

open Sys2Proof.Machine

/-- Why decoding stops, with the byte it stops on (R115) or, for a field whose bytes are not all there, the field's
offset from the instruction base (R92). -/
inductive DecodeError
  | overrun (off : Nat)
  | unknownOpcode (op : Nat)
  | unknownRegister (id : Nat)
  | unknownDataType (dt : Nat)
  | unknownJumpType (jt : Nat)
  | unknownCondition (cc : Nat)
  | widthMismatch (rs : Nat)
  | profileInvalid (byte : Nat)
  deriving DecidableEq, Repr

/-- The decode pointer `dpc` (R14), as an offset from the instruction base, with the image bytes from there to `LIMIT`. -/
structure Cursor where
  off  : Nat
  rest : List Byte
  deriving DecidableEq, Repr

/-- What a field decoder gives: its value and the pointer after it, or the error. -/
inductive Decoded (α : Type)
  | ok (a : α) (c : Cursor)
  | error (e : DecodeError)
  deriving DecidableEq, Repr

/-- The next field, if none before it was refused. -/
def Decoded.andThen {α β : Type} (r : Decoded α) (next : α → Cursor → Decoded β) : Decoded β :=
  match r with
  | .ok a c => next a c
  | .error e => .error e

/-- `Fetch(n)` (R92): the bounds check first, then the little-endian value. -/
def fetch (n : Nat) (c : Cursor) : Decoded Nat :=
  if c.rest.length < n then .error (.overrun c.off)
  else .ok (leNat (c.rest.take n)) ⟨c.off + n, c.rest.drop n⟩

/-- A one-byte field that must name a value: fetched, then checked at once (R115, R270). -/
def fetchTag {α : Type} (ofCode? : Nat → Option α) (unknown : Nat → DecodeError) (c : Cursor) : Decoded α :=
  (fetch 1 c).andThen fun b c =>
    match ofCode? b with
    | some a => .ok a c
    | none => .error (unknown b)

/-- A register identifier field `r`, `rd` or `rs` (R22). -/
def fetchReg (c : Cursor) : Decoded RegId :=
  fetchTag RegId.ofCode? .unknownRegister c

/-- A slot field `sa` or `sb` (R115). -/
def fetchSlot (c : Cursor) : Decoded Slot :=
  fetchTag Slot.ofCode? .unknownRegister c

/-- A data-type tag (R95). -/
def fetchDataType (c : Cursor) : Decoded DataType :=
  fetchTag DataType.ofCode? .unknownDataType c

/-- A condition code (R97). -/
def fetchCond (c : Cursor) : Decoded Cond :=
  fetchTag Cond.ofCode? .unknownCondition c

/-- A jump-type tag, then its profile check (R96, R102). -/
def fetchJumpType (w : PtrWidth) (c : Cursor) : Decoded JumpType :=
  (fetchTag JumpType.ofCode? .unknownJumpType c).andThen fun jt c =>
  if jt.validIn w then .ok jt c else .error (.profileInvalid jt.code)

/-- An immediate of `n` bytes (R98, R99). -/
def fetchImm (n : Nat) (c : Cursor) : Decoded Word :=
  (fetch n c).andThen fun v c =>
  .ok (BitVec.ofNat 64 v) c

/-- A target field (R205). -/
def fetchTarget (jt : JumpType) (c : Cursor) : Decoded Target :=
  (fetch jt.bytes c).andThen fun v c =>
  .ok (Target.ofField jt v) c

/-- Format `FR` (R104). -/
def decodeFR (mk : RegId → Instr) (c : Cursor) : Decoded Instr :=
  (fetchReg c).andThen fun r c =>
  .ok (mk r) c

/-- Format `FRR` with two widths, `MOV_RR` (R105, R132). -/
def decodeFRR (mk : RegId → RegId → Instr) (c : Cursor) : Decoded Instr :=
  (fetchReg c).andThen fun rd c =>
  (fetchReg c).andThen fun rs c =>
  .ok (mk rd rs) c

/-- Format `FRR` with one width: the classes are compared right after `rs` is decoded (R105, R130, R270). -/
def decodeFRROneWidth (mk : RegId → RegId → Instr) (c : Cursor) : Decoded Instr :=
  (fetchReg c).andThen fun rd c =>
  (fetchReg c).andThen fun rs c =>
  if rd.cls = rs.cls then .ok (mk rd rs) c else .error (.widthMismatch rs.code)

/-- Format `FRI` (R106): the immediate is as wide as the class of `rd`. -/
def decodeFRI (mk : RegId → Word → Instr) (c : Cursor) : Decoded Instr :=
  (fetchReg c).andThen fun rd c =>
  (fetchImm rd.cls.bytes c).andThen fun imm c =>
  .ok (mk rd imm) c

/-- Format `FDI` (R107). -/
def decodeFDI (w : PtrWidth) (mk : DataType → Word → Instr) (c : Cursor) : Decoded Instr :=
  (fetchDataType c).andThen fun dt c =>
  (fetchImm (dt.bytes w) c).andThen fun imm c =>
  .ok (mk dt imm) c

/-- Format `FJ` (R108) with a target field of `bits` bits. -/
def decodeFJ (bits : Nat) (mk : BitVec bits → Instr) (c : Cursor) : Decoded Instr :=
  (fetch (bits / 8) c).andThen fun v c =>
  .ok (mk (BitVec.ofNat bits v)) c

/-- A Ptr64 opcode: refused on the opcode byte when `PTR_WIDTH = 32` (R102, R118). -/
def decodePtr64 (w : PtrWidth) (op : Nat) (mk : BitVec 64 → Instr) (c : Cursor) : Decoded Instr :=
  match w with
  | .w32 => .error (.profileInvalid op)
  | .w64 => decodeFJ 64 mk c

/-- Format `FCRR` (R109, R207). -/
def decodeFCRR (w : PtrWidth) (c : Cursor) : Decoded Instr :=
  (fetchCond c).andThen fun cc c =>
  (fetchDataType c).andThen fun dt c =>
  (fetchJumpType w c).andThen fun jt c =>
  (fetchSlot c).andThen fun sa c =>
  (fetchSlot c).andThen fun sb c =>
  (fetchTarget jt c).andThen fun tgt c =>
  .ok (.jccRR cc dt sa sb tgt) c

/-- Format `FCRI` (R110, R208). -/
def decodeFCRI (w : PtrWidth) (c : Cursor) : Decoded Instr :=
  (fetchCond c).andThen fun cc c =>
  (fetchDataType c).andThen fun dt c =>
  (fetchJumpType w c).andThen fun jt c =>
  (fetchSlot c).andThen fun sa c =>
  (fetchImm (dt.bytes w) c).andThen fun imm c =>
  (fetchTarget jt c).andThen fun tgt c =>
  .ok (.jccRI cc dt sa imm tgt) c

/-- The opcode map (R111, R118); every other opcode byte is illegal (R112). -/
def decodeFields (w : PtrWidth) (op : Nat) (c : Cursor) : Decoded Instr :=
  match op with
  | 0x01 => .ok .nop c
  | 0x02 => .ok .exit c
  | 0x10 => decodeFRR .movRR c
  | 0x11 => decodeFRI .movRI c
  | 0x18 => decodeFR .inc c
  | 0x19 => decodeFR .dec c
  | 0x20 => decodeFRROneWidth .addRR c
  | 0x21 => decodeFRI .addRI c
  | 0x22 => decodeFRROneWidth .subRR c
  | 0x23 => decodeFRI .subRI c
  | 0x24 => decodeFRROneWidth .mulRR c
  | 0x25 => decodeFRI .mulRI c
  | 0x30 => decodeFR .pushR c
  | 0x31 => decodeFR .popR c
  | 0x32 => decodeFDI w .pushI c
  | 0x40 => decodeFJ 8 .jmpNear c
  | 0x41 => decodeFJ 16 .jmpShort c
  | 0x42 => decodeFJ 32 .jmpLong c
  | 0x43 => decodeFJ 32 .jmpPtr32 c
  | 0x44 => decodePtr64 w 0x44 .jmpPtr64 c
  | 0x51 => decodeFJ 16 .callShort c
  | 0x52 => decodeFJ 32 .callLong c
  | 0x53 => decodeFJ 32 .callPtr32 c
  | 0x54 => decodePtr64 w 0x54 .callPtr64 c
  | 0x58 => .ok .ret c
  | 0x60 => decodeFCRR w c
  | 0x61 => decodeFCRI w c
  | 0x62 => .ok .jccRM c
  | 0x63 => .ok .jccMM c
  | _ => .error (.unknownOpcode op)

/-- `Decode` (R118) on the image bytes from the instruction base to `LIMIT`, under profile `w`: the instruction and its
length, or the first error in byte order (R119, R270). -/
def decode (w : PtrWidth) (bytes : List Byte) : Except DecodeError (Instr × Nat) :=
  match (fetch 1 ⟨0, bytes⟩).andThen (decodeFields w) with
  | .ok i c => .ok (i, c.off)
  | .error e => .error e

/-- The opcode byte (R111). -/
def Instr.opcode : Instr → Nat
  | .nop => 0x01
  | .exit => 0x02
  | .movRR _ _ => 0x10
  | .movRI _ _ => 0x11
  | .inc _ => 0x18
  | .dec _ => 0x19
  | .addRR _ _ => 0x20
  | .addRI _ _ => 0x21
  | .subRR _ _ => 0x22
  | .subRI _ _ => 0x23
  | .mulRR _ _ => 0x24
  | .mulRI _ _ => 0x25
  | .pushR _ => 0x30
  | .popR _ => 0x31
  | .pushI _ _ => 0x32
  | .jmpNear _ => 0x40
  | .jmpShort _ => 0x41
  | .jmpLong _ => 0x42
  | .jmpPtr32 _ => 0x43
  | .jmpPtr64 _ => 0x44
  | .callShort _ => 0x51
  | .callLong _ => 0x52
  | .callPtr32 _ => 0x53
  | .callPtr64 _ => 0x54
  | .ret => 0x58
  | .jccRR _ _ _ _ _ => 0x60
  | .jccRI _ _ _ _ _ => 0x61
  | .jccRM => 0x62
  | .jccMM => 0x63

/-- The operand fields after the opcode byte, in the order of the format (R103 to R110). -/
def Instr.fieldBytes (w : PtrWidth) : Instr → List Byte
  | .nop | .exit | .ret | .jccRM | .jccMM => []
  | .inc r | .dec r | .pushR r | .popR r => leBytes 1 r.code
  | .movRR rd rs | .addRR rd rs | .subRR rd rs | .mulRR rd rs => leBytes 1 rd.code ++ leBytes 1 rs.code
  | .movRI rd imm | .addRI rd imm | .subRI rd imm | .mulRI rd imm =>
    leBytes 1 rd.code ++ leBytes rd.cls.bytes imm.toNat
  | .pushI dt imm => leBytes 1 dt.code ++ leBytes (dt.bytes w) imm.toNat
  | .jmpNear rel => leBytes 1 rel.toNat
  | .jmpShort rel | .callShort rel => leBytes 2 rel.toNat
  | .jmpLong rel | .callLong rel => leBytes 4 rel.toNat
  | .jmpPtr32 address | .callPtr32 address => leBytes 4 address.toNat
  | .jmpPtr64 address | .callPtr64 address => leBytes 8 address.toNat
  | .jccRR cc dt sa sb tgt =>
    leBytes 1 cc.code ++ leBytes 1 dt.code ++ leBytes 1 tgt.jumpType.code ++ leBytes 1 sa.val ++ leBytes 1 sb.val ++
      leBytes tgt.jumpType.bytes tgt.field
  | .jccRI cc dt sa imm tgt =>
    leBytes 1 cc.code ++ leBytes 1 dt.code ++ leBytes 1 tgt.jumpType.code ++ leBytes 1 sa.val ++
      leBytes (dt.bytes w) imm.toNat ++ leBytes tgt.jumpType.bytes tgt.field

/-- The bytes of a well-formed instruction (R90). -/
def encode (w : PtrWidth) (i : Instr) : List Byte :=
  leBytes 1 i.opcode ++ i.fieldBytes w

/-- The bytes of an instruction numbered as the opcode table numbers its bits: bit 0 is the least significant bit of the
first byte, `nbits` bits are given and every later bit is 0, up to the longest instruction (R117). -/
def tableBytes (nbits w : Nat) : List Byte :=
  leBytes Config.maxLength (w % 2 ^ nbits)

/-- The instruction the decoder reads from a word of the opcode table, under the default profile `PTR_WIDTH = 64` (R8). -/
def decodeTableWord (nbits w : Nat) : Option Instr :=
  match decode .w64 (tableBytes nbits w) with
  | .ok (i, _) => some i
  | .error _ => none

end Sys2Proof
end

