-- ==== Sys2Proof/Machine/Ops.lean ====
section
/-! DEFINITION. The shared operations: taking a fault (R271), ending a launch (R269), the stack controller (R71, R72),
the ledger (R41, R42), return addresses (R160, R161) and checked transfers (R162). -/

namespace Sys2Proof.Machine

/-- What an execution answers. -/
abbrev Result := Host.Outcome State Fault Refusal

/-! ## Taking a fault -/

/-- `raise F(info)` (R15, R271): nothing of the instruction is written, `pc` stays at its base, and the fault record is
latched in the terminal state `Faulted`. There is no return from it but a launch (R273). `FAULT_INFO` holds 64 bits
(R48): an `sp` or `dpc` of exactly `2^64`, which they do not hold, is recorded modulo `2^64`, DEDUCED, log 20. -/
def State.raiseFault (s : State) (code : FaultCode) (info : Nat) : State :=
  { s with
    runState := .faulted
    faultCode := some code
    faultPc := s.pc
    faultInfo := BitVec.ofNat 64 info }

/-- The fault of a decode error and its `FAULT_INFO` at base `base` (R92, R115, R261). -/
def decodeFault (base : Nat) : DecodeError → FaultCode × Nat
  | .overrun off => (.cursorOverflow, base + off)
  | .unknownOpcode op => (.unknownOpcode, op)
  | .unknownRegister id => (.unknownRegister, id)
  | .unknownDataType dt => (.unknownDataType, dt)
  | .unknownJumpType jt => (.unknownJumpType, jt)
  | .unknownCondition cc => (.unknownCondition, cc)
  | .widthMismatch rs => (.widthMismatch, rs)
  | .profileInvalid byte => (.profileInvalid, byte)

/-! ## Commits and ends -/

/-- `pc <- target` (R15). -/
def State.withPc (s : State) (target : Nat) : State :=
  { s with pc := target }

/-- `pc <- dpc` for an instruction of `n` bytes (R15, R32). `dpc` is the exact sum `base + n` (log 1). -/
def State.advance (s : State) (n : Nat) : State :=
  s.withPc (s.pc + n)

/-- `halt S` (R15): the terminal run state `S`; `FAULT_CODE` stays (R269). -/
def State.halt (s : State) (r : RunState) : State :=
  { s with runState := r }

/-- A write of `RETDESC` (R47). -/
def State.withRetDesc (s : State) (d : RetDesc) : State :=
  { s with retDesc := d }

/-! ## The stack controller -/

/-- A write of stack bytes and of `sp`. -/
def State.withStack (s : State) (mem : Memory) (sp : Nat) : State :=
  { s with mem := mem, sp := sp }

/-- A write of the ledger. -/
def State.withLedger (s : State) (l : List LedgerEntry) : State :=
  { s with ledger := l }

/-- What a shared operation gives its instruction: a value with the state after it, a fault of the core with its
`FAULT_INFO`, or a stop of the model. -/
inductive OpResult (α : Type)
  | ok (a : α) (s : State)
  | trap (code : FaultCode) (info : Nat)
  | stop (f : Fault)
  deriving DecidableEq, Repr

/-- Ends an instruction begun in `base`: it commits `k`, or takes the operation's fault with none of its writes
(R271). -/
def OpResult.settle {α : Type} (r : OpResult α) (base : State) (k : α → State → State) : Result :=
  match r with
  | .ok a t => .next (k a t)
  | .trap code info => .next (base.raiseFault code info)
  | .stop f => .fault f

/-- `STACK_CAPACITY` (R33). -/
def State.stackCapacity (s : State) : Nat :=
  s.last - s.first

/-- The stack's size, the distance of `sp` from its resting point (R36). -/
def State.stackSize (s : State) : Nat :=
  match s.stackDir with
  | .forward => s.sp - s.first
  | .backward => s.last - s.sp

/-- The free bytes of the stack (R36). -/
def State.stackFree (s : State) : Nat :=
  s.stackCapacity - s.stackSize

/-- The resting point of `sp` (R34). -/
def restingPoint (dir : StackDir) (first last : Nat) : Nat :=
  match dir with
  | .forward => first
  | .backward => last

/-- The address `Push(n, v)` stores at (R71). -/
def State.pushAddr (s : State) (n : Nat) : Nat :=
  match s.stackDir with
  | .forward => s.sp
  | .backward => s.sp - n

/-- `sp` after `Push(n, v)` (R71). -/
def State.pushSp (s : State) (n : Nat) : Nat :=
  match s.stackDir with
  | .forward => s.sp + n
  | .backward => s.sp - n

/-- The address `Pop(n)` reads at (R72). -/
def State.popAddr (s : State) (n : Nat) : Nat :=
  match s.stackDir with
  | .forward => s.sp - n
  | .backward => s.sp

/-- `sp` after `Pop(n)` (R72). -/
def State.popSp (s : State) (n : Nat) : Nat :=
  match s.stackDir with
  | .forward => s.sp - n
  | .backward => s.sp + n

/-- The bytes `a .. a+n-1` lie in the stack region (R64). -/
def State.inStack (s : State) (a : Nat) (n : Nat) : Bool :=
  decide (s.first ≤ a) && decide (a + n ≤ s.last)

/-- `MemWrite(a, n, v)` (R64), with the move of `sp` that goes with it. -/
def memWrite (s : State) (a : Nat) (n v : Nat) (sp : Nat) : OpResult Unit :=
  if s.inStack a n then .ok () (s.withStack (s.mem.writeBytes a (leBytes n v)) sp) else .stop (.stackAccess a n)

/-- `MemRead(a, n)` (R64), with the move of `sp` that goes with it. -/
def memRead (s : State) (a : Nat) (n : Nat) (sp : Nat) : OpResult Nat :=
  if s.inStack a n then .ok (leNat (s.mem.readBytes a n)) (s.withStack s.mem sp) else .stop (.stackAccess a n)

/-- `Push(n, v)` (R71): the space is checked before anything moves. -/
def push (s : State) (n v : Nat) : OpResult Unit :=
  if s.stackFree < n then .trap .stackOverflow s.sp
  else memWrite s (s.pushAddr n) n v (s.pushSp n)

/-- `Pop(n)` (R72). -/
def pop (s : State) (n : Nat) : OpResult Nat :=
  if s.stackSize < n then .trap .stackUnderflow s.sp
  else memRead s (s.popAddr n) n (s.popSp n)

/-! ## The ledger and return addresses -/

/-- `LedgerPush(callSite, returnSite)` (R41). An entry is two `PTR_WIDTH`-bit addresses (R40). -/
def ledgerPush (s : State) (callSite returnSite : Nat) : OpResult Unit :=
  if s.ledgerCapacity = some s.ledger.length then .trap .ledgerOverflow callSite
  else .ok () (s.withLedger
    (s.ledger ++ [⟨truncTo s.ptrWidth.bits callSite, truncTo s.ptrWidth.bits returnSite⟩]))

/-- `LedgerPop()` (R42). -/
def ledgerPop (s : State) : OpResult Nat :=
  match s.ledger.getLast? with
  | none => .trap .emptyCallStack 0
  | some e => .ok e.returnSite (s.withLedger s.ledger.dropLast)

/-- `PushReturn(callSite, ret)` (R160). -/
def pushReturn (s : State) (callSite ret : Nat) : OpResult Unit :=
  match s.callConv with
  | .stack => push s s.ptrWidth.bytes ret
  | .ledger => ledgerPush s callSite ret

/-- `PopReturn()` (R161): the emptiness check reports `EmptyCallStackFault`, not an underflow. -/
def popReturn (s : State) : OpResult Nat :=
  match s.callConv with
  | .stack =>
    if s.stackSize < s.ptrWidth.bytes then .trap .emptyCallStack s.sp
    else pop s s.ptrWidth.bytes
  | .ledger => ledgerPop s

/-! ## Transfers -/

/-- The test of `CheckTarget` (R66, R162). -/
def targetAligned (t : Nat) : Bool :=
  t % Config.targetAlign == 0

/-- `CheckTarget(target) ; pc <- target` (R162). -/
def jumpTo (s : State) (target : Nat) : Result :=
  if targetAligned target then .next (s.withPc target) else .next (s.raiseFault .alignment target)

/-- The body of a call of `n` bytes (R170 to R173): the target is checked before the return address is stored. -/
def callTo (s : State) (target : Nat) (n : Nat) : Result :=
  if targetAligned target then (pushReturn s s.pc (s.pc + n)).settle s (fun _ t => t.withPc target)
  else .next (s.raiseFault .alignment target)

end Sys2Proof.Machine
end

