-- ==== Sys2Proof/Machine/Branch.lean ====
section
/-! DEFINITION. Conditional branches (`42_conditional_branch.md`). -/

namespace Sys2Proof.Machine

/-- The end of a conditional branch of `n` bytes (R206 to R208): a Ptr64 tag needs `PTR_WIDTH = 64` (R102); the target is
alignment-checked only when taken. -/
def branch (cond : Bool) (tgt : Target) (n : Nat) (s : State) : Result :=
  if tgt.jumpType.validIn s.ptrWidth then
    (if cond then jumpTo s (targetAddr s.ptrWidth s.pc tgt) else .next (s.advance n))
  else .next (s.raiseFault .profileInvalid tgt.jumpType.code)

/-- `JCC_RR` (R207). -/
def execJccRR (cc : Cond) (dt : DataType) (sa sb : Slot) (tgt : Target) (s : State) : Result :=
  branch (condEval cc (s.slotTyped dt sa) (s.slotTyped dt sb)) tgt (6 + tgt.jumpType.bytes) s

/-- `JCC_RI` (R208). -/
def execJccRI (cc : Cond) (dt : DataType) (sa : Slot) (imm : Word) (tgt : Target) (s : State) : Result :=
  branch (condEval cc (s.slotTyped dt sa) (readTyped s.ptrWidth dt imm.toNat)) tgt
    (5 + dt.bytes s.ptrWidth + tgt.jumpType.bytes) s

/-- `JCC_RM` (R209): declared, not implemented; its effect is `UnsupportedFault`. -/
def execJccRM (s : State) : Result :=
  .next (s.raiseFault .unsupported 0x62)

/-- `JCC_MM` (R210): declared, not implemented; its effect is `UnsupportedFault`. -/
def execJccMM (s : State) : Result :=
  .next (s.raiseFault .unsupported 0x63)

end Sys2Proof.Machine
end

