-- ==== Sys2Proof/Machine/Control.lean ====
section
/-! DEFINITION. Control transfer, calls, returns and termination (`41_control_transfer.md`). -/

namespace Sys2Proof.Machine

/-- `NOP` (R163). -/
def execNop (s : State) : Result :=
  .next (s.advance 1)

/-- The descriptor `EXIT` reports (R47, R164): Basic, 8 bytes, slot 0. -/
def exitDesc (s : State) : RetDesc :=
  ⟨0, 8, s.regs[0]⟩

/-- `EXIT` (R164). -/
def execExit (s : State) : Result :=
  .next (((s.withRetDesc (exitDesc s)).advance 1).halt .exited)

/-- `JMP_NEAR` (R165). -/
def execJmpNear (rel : BitVec 8) (s : State) : Result :=
  jumpTo s (relTarget s.ptrWidth s.pc rel.toInt)

/-- `JMP_SHORT` (R166). -/
def execJmpShort (rel : BitVec 16) (s : State) : Result :=
  jumpTo s (relTarget s.ptrWidth s.pc rel.toInt)

/-- `JMP_LONG` (R167). -/
def execJmpLong (rel : BitVec 32) (s : State) : Result :=
  jumpTo s (relTarget s.ptrWidth s.pc rel.toInt)

/-- `JMP_PTR32` (R168): zero-extended. -/
def execJmpPtr32 (address : BitVec 32) (s : State) : Result :=
  jumpTo s address.toNat

/-- `JMP_PTR64` (R169): only when `PTR_WIDTH = 64`. -/
def execJmpPtr64 (address : BitVec 64) (s : State) : Result :=
  match s.ptrWidth with
  | .w32 => .next (s.raiseFault .profileInvalid 0x44)
  | .w64 => jumpTo s address.toNat

/-- `CALL_SHORT` (R170). -/
def execCallShort (rel : BitVec 16) (s : State) : Result :=
  callTo s (relTarget s.ptrWidth s.pc rel.toInt) 3

/-- `CALL_LONG` (R171). -/
def execCallLong (rel : BitVec 32) (s : State) : Result :=
  callTo s (relTarget s.ptrWidth s.pc rel.toInt) 5

/-- `CALL_PTR32` (R172). -/
def execCallPtr32 (address : BitVec 32) (s : State) : Result :=
  callTo s address.toNat 5

/-- `CALL_PTR64` (R173): only when `PTR_WIDTH = 64`. -/
def execCallPtr64 (address : BitVec 64) (s : State) : Result :=
  match s.ptrWidth with
  | .w32 => .next (s.raiseFault .profileInvalid 0x54)
  | .w64 => callTo s address.toNat 9

/-- `RET` (R174): the address is neither aligned nor bounds-checked here. -/
def execRet (s : State) : Result :=
  (popReturn s).settle s (fun v t => t.withPc v)

end Sys2Proof.Machine
end

