-- ==== Sys2Proof/Machine/RegisterOps.lean ====
section
/-! DEFINITION. The register family (`40_register_ops.md`). -/

namespace Sys2Proof.Machine

/-- `RegWrite` then `pc <- dpc`, the end of every register instruction. -/
def writeAndAdvance (s : State) (rd : RegId) (v n : Nat) : Result :=
  .next ((s.regWrite rd v).advance n)

/-- A one-width register-register operation (R130): both classes must agree, then `op` on the two values. -/
def binaryRR (op : Int → Int → Int) (rd rs : RegId) (s : State) : Result :=
  if rd.cls = rs.cls then writeAndAdvance s rd (arith rd.cls (op (s.regRead rd) (s.regRead rs))) 3
  else .next (s.raiseFault .widthMismatch rs.code)

/-- A register-immediate operation: the immediate is as wide as `rd` (R98). -/
def binaryRI (op : Int → Int → Int) (rd : RegId) (imm : Word) (s : State) : Result :=
  writeAndAdvance s rd (arith rd.cls (op (s.regRead rd) imm.toNat)) (2 + rd.cls.bytes)

/-- `MOV_RR` (R132): zero-extends or truncates to the destination class. -/
def execMovRR (rd rs : RegId) (s : State) : Result :=
  writeAndAdvance s rd (s.regRead rs) 3

/-- `MOV_RI` (R133). -/
def execMovRI (rd : RegId) (imm : Word) (s : State) : Result :=
  writeAndAdvance s rd imm.toNat (2 + rd.cls.bytes)

/-- `INC` (R134). -/
def execInc (r : RegId) (s : State) : Result :=
  writeAndAdvance s r (arith r.cls (s.regRead r + 1)) 2

/-- `DEC` (R135). -/
def execDec (r : RegId) (s : State) : Result :=
  writeAndAdvance s r (arith r.cls (s.regRead r - 1)) 2

/-- `ADD_RR` (R136). -/
def execAddRR (rd rs : RegId) (s : State) : Result :=
  binaryRR (fun a b => a + b) rd rs s

/-- `ADD_RI` (R137). -/
def execAddRI (rd : RegId) (imm : Word) (s : State) : Result :=
  binaryRI (fun a b => a + b) rd imm s

/-- `SUB_RR` (R138). -/
def execSubRR (rd rs : RegId) (s : State) : Result :=
  binaryRR (fun a b => a - b) rd rs s

/-- `SUB_RI` (R139). -/
def execSubRI (rd : RegId) (imm : Word) (s : State) : Result :=
  binaryRI (fun a b => a - b) rd imm s

/-- `MUL_RR` (R140). -/
def execMulRR (rd rs : RegId) (s : State) : Result :=
  binaryRR (fun a b => a * b) rd rs s

/-- `MUL_RI` (R141). -/
def execMulRI (rd : RegId) (imm : Word) (s : State) : Result :=
  binaryRI (fun a b => a * b) rd imm s

end Sys2Proof.Machine
end

