-- ==== Sys2Proof/Machine/StackOps.lean ====
section
/-! DEFINITION. The operand-stack family (`43_stack_ops.md`). -/

namespace Sys2Proof.Machine

/-- `PUSH_R` (R230): the register's own width. -/
def execPushR (r : RegId) (s : State) : Result :=
  (push s r.cls.bytes (s.regRead r)).settle s (fun _ t => t.advance 2)

/-- `POP_R` (R231): only the class's bytes of the slot change. -/
def execPopR (r : RegId) (s : State) : Result :=
  (pop s r.cls.bytes).settle s (fun v t => (t.regWrite r v).advance 2)

/-- `PUSH_I` (R232): the immediate's bytes unchanged. -/
def execPushI (dt : DataType) (imm : Word) (s : State) : Result :=
  (push s (dt.bytes s.ptrWidth) imm.toNat).settle s (fun _ t => t.advance (2 + dt.bytes s.ptrWidth))

end Sys2Proof.Machine
end

