-- ==== Sys2Proof/Machine/Dispatch.lean ====
section
/-! DEFINITION. One arm per instruction (R111, R118). -/

namespace Sys2Proof.Machine

def exec (i : Instr) (s : State) : Host.Outcome State Fault Refusal :=
  match i with
  | .nop => Sys2Proof.Machine.execNop s
  | .exit => Sys2Proof.Machine.execExit s
  | .movRR rd rs => Sys2Proof.Machine.execMovRR rd rs s
  | .movRI rd imm => Sys2Proof.Machine.execMovRI rd imm s
  | .inc r => Sys2Proof.Machine.execInc r s
  | .dec r => Sys2Proof.Machine.execDec r s
  | .addRR rd rs => Sys2Proof.Machine.execAddRR rd rs s
  | .addRI rd imm => Sys2Proof.Machine.execAddRI rd imm s
  | .subRR rd rs => Sys2Proof.Machine.execSubRR rd rs s
  | .subRI rd imm => Sys2Proof.Machine.execSubRI rd imm s
  | .mulRR rd rs => Sys2Proof.Machine.execMulRR rd rs s
  | .mulRI rd imm => Sys2Proof.Machine.execMulRI rd imm s
  | .pushR r => Sys2Proof.Machine.execPushR r s
  | .popR r => Sys2Proof.Machine.execPopR r s
  | .pushI dt imm => Sys2Proof.Machine.execPushI dt imm s
  | .jmpNear rel => Sys2Proof.Machine.execJmpNear rel s
  | .jmpShort rel => Sys2Proof.Machine.execJmpShort rel s
  | .jmpLong rel => Sys2Proof.Machine.execJmpLong rel s
  | .jmpPtr32 address => Sys2Proof.Machine.execJmpPtr32 address s
  | .jmpPtr64 address => Sys2Proof.Machine.execJmpPtr64 address s
  | .callShort rel => Sys2Proof.Machine.execCallShort rel s
  | .callLong rel => Sys2Proof.Machine.execCallLong rel s
  | .callPtr32 address => Sys2Proof.Machine.execCallPtr32 address s
  | .callPtr64 address => Sys2Proof.Machine.execCallPtr64 address s
  | .ret => Sys2Proof.Machine.execRet s
  | .jccRR cc dt sa sb tgt => Sys2Proof.Machine.execJccRR cc dt sa sb tgt s
  | .jccRI cc dt sa imm tgt => Sys2Proof.Machine.execJccRI cc dt sa imm tgt s
  | .jccRM => Sys2Proof.Machine.execJccRM s
  | .jccMM => Sys2Proof.Machine.execJccMM s

end Sys2Proof.Machine
end

