-- ==== Sys2Proof/Machine/Fetch.lean ====
section
/-! DEFINITION. What a step does before an instruction executes (R118, R307): the terminal test, the cursor bounds and
decoding the image bytes at `pc`. -/

namespace Sys2Proof.Machine

/-- What a step is to do. -/
inductive StepAction
  /-- The core is not Running: no effect. -/
  | idle
  /-- `pc = LIMIT`: end of stream. -/
  | ended
  /-- A cursor bound or decoding raises a fault. -/
  | trap (code : FaultCode) (info : Nat)
  /-- An instruction executes. -/
  | run (i : Instr)
  deriving DecidableEq, Repr

/-- The image bytes decoding may look at: from `pc` to `LIMIT` (R92), and no more than the longest instruction (R117).
Only called with `START <= pc < LIMIT`, so `Fetch`'s own test of `dpc < START` never fires (log 10). -/
def State.fetchWindow (s : State) : List Byte :=
  s.mem.readBytes s.pc (min Config.maxLength (s.limit - s.pc))

/-- The tests at the start of a step, in the order of R307, then decode. -/
def State.stepAction (s : State) : StepAction :=
  if s.runState ≠ .running then .idle
  else if s.pc = s.limit then .ended
  else if s.pc < s.start then .trap .cursorUnderflow s.pc
  else if s.limit < s.pc then .trap .cursorOverflow s.pc
  else
    match decode s.ptrWidth s.fetchWindow with
    | .ok (i, _) => .run i
    | .error e => .trap (decodeFault s.pc e).1 (decodeFault s.pc e).2

/-- End of stream: a normal termination, `FAULT_CODE` stays (R269, R307). -/
def State.endOfStream (s : State) : State :=
  s.halt .endOfStream

/-- Place an instruction where the next step fetches and let the core run it: its bytes at `pc`, the image stretched
over them and the core Running. It stands for the host's load of a program (R300, R304), log 6. -/
def State.loadAtPc (s : State) (bytes : List Byte) : State :=
  { s with
    mem := s.mem.writeBytes s.pc bytes
    start := min s.start s.pc
    limit := max s.limit (s.pc + bytes.length)
    runState := .running }

end Sys2Proof.Machine
end

