-- ==== Sys2Proof/Machine/Step.lean ====
section
/-! DEFINITION. One step (R307). -/

namespace Sys2Proof.Machine

/-- One step: the action of `State.stepAction`, carried out. -/
def step (s : State) : Host.Outcome State Fault Refusal :=
  match s.stepAction with
  | .idle => .next s
  | .ended => .next s.endOfStream
  | .trap code info => .next (s.raiseFault code info)
  | .run i => exec i s

/-- `s` with the instruction of a table word placed where `step` fetches next (log 6). -/
def State.withFetchWord (s : State) (nbits w : Nat) : State :=
  s.loadAtPc (tableBytes nbits w)

end Sys2Proof.Machine
end

