-- ==== Sys2Proof/Machine/HostView.lean ====
section
/-! DEFINITION. What the host sees between steps (R51) and the one thing it may write besides a reset (R80, R311). -/

namespace Sys2Proof.Machine

/-- `RUN_STATE` numbers (R48). -/
def RunState.code : RunState → BitVec 3
  | .unbound => 0
  | .running => 1
  | .exited => 2
  | .endOfStream => 3
  | .faulted => 4
  | .refused => 5

/-- `FAULT_CODE` numbers (R261). -/
def FaultCode.code : FaultCode → BitVec 8
  | .unknownOpcode => 0x01
  | .unknownRegister => 0x02
  | .unknownDataType => 0x03
  | .unknownJumpType => 0x04
  | .unknownCondition => 0x05
  | .widthMismatch => 0x06
  | .profileInvalid => 0x07
  | .unsupported => 0x08
  | .cursorOverflow => 0x10
  | .cursorUnderflow => 0x11
  | .stackOverflow => 0x12
  | .stackUnderflow => 0x13
  | .alignment => 0x20
  | .emptyCallStack => 0x30
  | .ledgerOverflow => 0x31
  | .launchRefused => 0x40

/-- The `FAULT_CODE` field, 0 when no fault (R48). -/
def State.faultCodeField (s : State) : BitVec 8 :=
  match s.faultCode with
  | none => 0
  | some c => c.code

/-- `STATUS` (R48). -/
def State.statusWord (s : State) : BitVec 32 :=
  (0 : BitVec 16) ++ (s.faultCodeField ++ ((0 : BitVec 5) ++ s.runState.code))

/-- `CONFIG` (R49). -/
def State.configWord (s : State) : BitVec 32 :=
  (0 : BitVec 29) ++ (BitVec.ofBool (s.callConv == .ledger) ++
    (BitVec.ofBool (s.stackDir == .backward) ++ BitVec.ofBool (s.ptrWidth == .w64)))

/-- Numbers of the descriptor tags (R45). -/
def RetTag.code : RetTag → BitVec 3
  | .basic => 0
  | .float => 1
  | .double => 2
  | .pointer => 3
  | .struct => 4

/-- The length a tag fixes (R45), none for Struct, whose caller supplies it. -/
def RetTag.fixedLength (w : PtrWidth) : RetTag → Option Nat
  | .basic => some 8
  | .float => some 4
  | .double => some 8
  | .pointer => some w.bytes
  | .struct => none

/-- A descriptor is valid when its tag is enumerated (R46). -/
def RetDesc.valid (d : RetDesc) : Bool :=
  decide (d.tag.toNat ≤ 4)

/-- Host register numbers (R51). -/
def HostReg.number : HostReg → Nat
  | .status => 0
  | .faultPc => 1
  | .faultInfo => 2
  | .pc => 3
  | .start => 4
  | .limit => 5
  | .entry => 6
  | .sp => 7
  | .stackFirst => 8
  | .stackLast => 9
  | .ledgerDepth => 10
  | .retDescTag => 11
  | .retDescLength => 12
  | .retDescValue => 13
  | .config => 14

/-- The width of a host register in bits (R51). -/
def HostReg.width (w : PtrWidth) : HostReg → Nat
  | .status | .ledgerDepth | .retDescLength | .config => 32
  | .faultInfo | .retDescValue => 64
  | .retDescTag => 3
  | .faultPc | .pc | .start | .limit | .entry | .sp | .stackFirst | .stackLast => w.bits

/-- The exact value behind a host register. -/
def State.hostValue (s : State) : HostReg → Nat
  | .status => s.statusWord.toNat
  | .faultPc => s.faultPc
  | .faultInfo => s.faultInfo.toNat
  | .pc => s.pc
  | .start => s.start
  | .limit => s.limit
  | .entry => s.entry
  | .sp => s.sp
  | .stackFirst => s.first
  | .stackLast => s.last
  | .ledgerDepth => s.ledger.length
  | .retDescTag => s.retDesc.tag.toNat
  | .retDescLength => s.retDesc.length.toNat
  | .retDescValue => s.retDesc.value.toNat
  | .config => s.configWord.toNat

/-- What the host reads: the value in the register's width (R51; log 1 and log 14 for a value the width cannot hold). -/
def State.readHost (s : State) (r : HostReg) : Nat :=
  truncTo (r.width s.ptrWidth) (s.hostValue r)

/-- Cursor predicate `isEnd` (R31). -/
def State.cursorIsEnd (s : State) : Bool :=
  s.pc == s.limit

/-- Cursor predicate `isOverflow` (R31), true at equality as well. -/
def State.cursorIsOverflow (s : State) : Bool :=
  decide (s.pc ≥ s.limit)

/-- Cursor predicate `isUnderflow` (R31). -/
def State.cursorIsUnderflow (s : State) : Bool :=
  decide (s.pc < s.start)

/-- Stack predicate `isOverflow` (R37). -/
def State.stackIsOverflow (s : State) : Bool :=
  match s.stackDir with
  | .forward => decide (s.sp ≥ s.last)
  | .backward => decide (s.sp ≤ s.first)

/-- Stack predicate `isUnderflow` (R37). -/
def State.stackIsUnderflow (s : State) : Bool :=
  match s.stackDir with
  | .forward => decide (s.sp < s.first)
  | .backward => decide (s.sp > s.last)

/-- A host write of `n` bytes into the image, allowed only while the core is not Running (R80, R311, C11); none where it
is not allowed. R80 glosses it as a store of one data type at the current position and gives no bounds: here it is of any
number of bytes at any address, only inside `[START, LIMIT)`: DEDUCED, log 18. The write's form: log 15. -/
def State.hostStoreImage (s : State) (a : Nat) (n v : Nat) : Option State :=
  if s.runState ≠ .running ∧ s.start ≤ a ∧ a + n ≤ s.limit then
    some { s with mem := s.mem.writeBytes a (leBytes n v) }
  else none

end Sys2Proof.Machine
end

