-- ==== Sys2Proof/Machine/Launch.lean ====
section
/-! DEFINITION. Reset, the source's "setting" call (R300 to R303). It is accepted in any state and sets every field, so
it is a function of its parameters; what the spec leaves unspecified comes from an argument, so that a statement about a
launch holds for every value of it. -/

namespace Sys2Proof.Machine

/-- `IMAGE_SIZE` (R8): the number of image bytes given. -/
abbrev Launch.imageSize (p : Launch) : Nat :=
  p.image.length

/-- `ENTRY` (R30). -/
def Launch.entry (p : Launch) : Nat :=
  p.imageBase + p.entryOffset

/-- The address ranges `[a, a+n)` and `[b, b+m)` share no address (R303 check 3); an empty range shares none. -/
def rangesDisjoint (a n b m : Nat) : Bool :=
  decide (a + n ≤ b) || decide (b + m ≤ a) || n == 0 || m == 0

/-- Check 1 of R303: the image base alignment (R67). -/
def Launch.baseAligned (p : Launch) : Bool :=
  p.imageBase % Config.imageAlign == 0

/-- Check 2 of R303: every address is representable, computed without wrap-around. -/
def Launch.representable (p : Launch) : Bool :=
  decide (p.imageBase + p.imageSize ≤ 2 ^ p.ptrWidth) && decide (p.imageBase + p.entryOffset < 2 ^ p.ptrWidth) &&
    decide (p.stackBase + p.stackCapacity ≤ 2 ^ p.ptrWidth)

/-- Check 3 of R303: the image and the stack are disjoint. -/
def Launch.disjoint (p : Launch) : Bool :=
  rangesDisjoint p.imageBase p.imageSize p.stackBase p.stackCapacity

/-- Check 4 of R303: every parameter lies in its range of R8. -/
def Launch.inRange (p : Launch) : Bool :=
  (p.ptrWidth == 32 || p.ptrWidth == 64) && decide (1 ≤ p.stackCapacity) &&
    (match p.ledgerCapacity with
    | none => true
    | some k => decide (1 ≤ k))

/-- The number of the first precondition of R303 that fails. -/
def Launch.failedCheck (p : Launch) : Option Nat :=
  if !p.baseAligned then some 1
  else if !p.representable then some 2
  else if !p.disjoint then some 3
  else if !p.inRange then some 4
  else none

/-- The profile that `PTR_WIDTH` selects; anything but 64 gives 0 in `CONFIG.PTR64` (R49, log 9). -/
def Launch.profile (p : Launch) : PtrWidth :=
  if p.ptrWidth = 64 then .w64 else .w32

/-- The image bytes at `IMAGE_BASE` and the stack bytes at `STACK_BASE` (R301). -/
def Launch.memory (p : Launch) : Memory :=
  (Memory.writeBytes [] p.imageBase p.image).writeBytes p.stackBase (p.stackInit.take p.stackCapacity)

/-- The state of a launch whose preconditions hold, before the entry check (R301). `RETDESC` is unspecified: it is
`unspecified`'s. -/
def Launch.accepted (p : Launch) (unspecified : State) : State where
  regs := p.regReset
  pc := p.entry
  start := p.imageBase
  limit := p.imageBase + p.imageSize
  entry := p.entry
  sp := restingPoint p.stackDir p.stackBase (p.stackBase + p.stackCapacity)
  first := p.stackBase
  last := p.stackBase + p.stackCapacity
  mem := p.memory
  ledger := []
  ledgerCapacity := p.ledgerCapacity
  retDesc := unspecified.retDesc
  runState := .running
  faultCode := none
  faultPc := 0
  faultInfo := 0
  ptrWidth := p.profile
  stackDir := p.stackDir
  callConv := p.callConv

/-- The state of a launch whose precondition `k` fails (R303): `STATUS`, `FAULT_INFO` and `CONFIG` are set and the rest
is unspecified (log 9). `FAULT_PC`, `ENTRY` by R261 and 0 by R303, is any value, as U14 says: DEDUCED, log 19. -/
def Launch.refused (p : Launch) (unspecified : State) (k : Nat) : State :=
  { unspecified with
    runState := .refused
    faultCode := some .launchRefused
    faultInfo := BitVec.ofNat 64 k
    ptrWidth := p.profile
    stackDir := p.stackDir
    callConv := p.callConv }

/-- Reset: the preconditions (R303), the reset values (R301), then the entry check (R302). -/
def State.launch (p : Launch) (unspecified : State) : State :=
  match p.failedCheck with
  | some k => p.refused unspecified k
  | none =>
    if targetAligned p.entry then p.accepted unspecified
    else (p.accepted unspecified).raiseFault .alignment p.entry

/-- The standard launch of `95_test_vectors.md` section 0 with an image. -/
def Launch.standard (image : List Byte) : Launch where
  ptrWidth := 64
  imageBase := 0x1000
  image := image
  entryOffset := 0
  stackDir := .forward
  stackBase := 0x8000
  stackCapacity := 0x100
  callConv := .stack
  ledgerCapacity := none
  regReset := Vector.replicate Config.numSlots 0
  stackInit := []

end Sys2Proof.Machine
end

