-- ==== Sys2Proof/Machine/Run.lean ====
section
/-! DEFINITION. `Run()` (R307): repeat `Step()` until `RUN_STATE != Running`. A launch may never end and the core has no
step limit (R308), so `Run()` is a relation between the state it starts from and the one it ends in, over the function
that takes at most a given number of steps. -/

namespace Sys2Proof.Machine

/-- `Run()` as far as `n` steps lead: it stops before a step when the core is not Running. -/
def runFor : Nat → State → Result
  | 0, s => .next s
  | n + 1, s =>
    if s.runState = .running then
      match step s with
      | .next t => runFor n t
      | .fault f => .fault f
      | .refused r => .refused r
    else .next s

/-- `Run()` from `s` ends in `t`: after some number of steps the core is in `t` and no longer Running. -/
def RunsTo (s t : State) : Prop :=
  t.runState ≠ .running ∧ ∃ n, runFor n s = .next t

end Sys2Proof.Machine
end

