-- ==== Sys2Proof/Safety.lean ====
section
/-! DEFINITION. What a safe state and a faithful effect are, in the terms the statements use. Each predicate says bit by
bit or byte by byte what a rule of the spec says, independently of the operation that brings it about. -/

namespace Sys2Proof.Machine

/-- The invariant of a launched core. -/
structure State.Inv (s : State) : Prop where
  /-- Memory is canonical. -/
  mem_wf : s.mem.wf = true
  /-- `IMAGE_BASE mod 256 = 0` (R67). -/
  base_aligned : s.start % 256 = 0
  /-- `START <= LIMIT` (R30). -/
  image_order : s.start ≤ s.limit
  /-- Every image address is representable (R303). -/
  limit_repr : s.limit ≤ 2 ^ s.ptrWidth.bits
  /-- The entry point is representable (R303). -/
  entry_repr : s.entry < 2 ^ s.ptrWidth.bits
  /-- The cursor is an address, or rests at `LIMIT` (R29, R32). -/
  pc_repr : s.pc < 2 ^ s.ptrWidth.bits ∨ s.pc = s.limit
  /-- The stack has room for at least one byte (R8). -/
  stack_order : s.first < s.last
  /-- Every stack address is representable (R303). -/
  last_repr : s.last ≤ 2 ^ s.ptrWidth.bits
  /-- `FIRST <= sp` (R38). -/
  sp_low : s.first ≤ s.sp
  /-- `sp <= LAST` (R38). -/
  sp_high : s.sp ≤ s.last
  /-- The image and the stack share no address (R303). -/
  regions_disjoint : ∀ a, s.start ≤ a → a < s.limit → ¬ (s.first ≤ a ∧ a < s.last)
  /-- Under `CALL_CONV = Stack` the ledger stays empty (R39). -/
  ledger_unused : s.callConv = .stack → s.ledger = []
  /-- At most `LEDGER_CAPACITY` entries (R39). -/
  ledger_bound : ∀ k, s.ledgerCapacity = some k → s.ledger.length ≤ k
  /-- Ledger entries are addresses (R40). -/
  ledger_repr : ∀ e ∈ s.ledger, e.callSite < 2 ^ s.ptrWidth.bits ∧ e.returnSite < 2 ^ s.ptrWidth.bits
  /-- `FAULT_PC` is an address (R48). -/
  faultPc_repr : s.faultPc < 2 ^ s.ptrWidth.bits
  /-- `FAULT_CODE` is 0 exactly when no fault ended the launch (R48, R269). -/
  fault_recorded : s.faultCode = none ↔ s.runState ≠ .faulted ∧ s.runState ≠ .refused

/-- The configuration fixed at reset (R20, R30, R33) is the same in `t` as in `s`. -/
def SameConfig (s t : State) : Prop :=
  t.start = s.start ∧ t.limit = s.limit ∧ t.entry = s.entry ∧ t.first = s.first ∧ t.last = s.last ∧
    t.ptrWidth = s.ptrWidth ∧ t.stackDir = s.stackDir ∧ t.callConv = s.callConv ∧ t.ledgerCapacity = s.ledgerCapacity

/-- `STATUS`, `FAULT_PC` and `FAULT_INFO` are the same. -/
def SameStatus (s t : State) : Prop :=
  t.runState = s.runState ∧ t.faultCode = s.faultCode ∧ t.faultPc = s.faultPc ∧ t.faultInfo = s.faultInfo

/-- Every byte of the address space reads the same. -/
def SameBytes (s t : State) : Prop :=
  ∀ a, t.mem.read a = s.mem.read a

/-- Every byte outside `a .. a+n-1` reads the same. -/
def SameBytesOutside (s t : State) (a : Nat) (n : Nat) : Prop :=
  ∀ b, b < a ∨ a + n ≤ b → t.mem.read b = s.mem.read b

/-- The `n` bytes at `a` hold the low `n` bytes of `v`, least significant first (R62). -/
def BytesHold (t : State) (a : Nat) (n v : Nat) : Prop :=
  ∀ k, k < n → (t.mem.read (a + k)).toNat = v / 256 ^ k % 256

/-- The number of the lowest slot bit that a class names (R23, R94). -/
def classLow : RegClass → Nat
  | .r8 | .r16 | .r32 | .r64 => 0
  | .r8high => 8

/-- Exactly the bits of the slot that the class of `rd` names hold `v`; every other bit and slot is the same (R24). -/
def RegWritten (s t : State) (rd : RegId) (v : Nat) : Prop :=
  (∀ j, j < 64 → t.regs[rd.slot].getLsbD j =
    if classLow rd.cls ≤ j ∧ j < classLow rd.cls + rd.cls.bits then v.testBit (j - classLow rd.cls)
    else s.regs[rd.slot].getLsbD j) ∧
  ∀ k : Slot, k ≠ rd.slot → t.regs[k] = s.regs[k]

/-- The effect of a register instruction of `n` bytes: `v` in `rd`, the next instruction, and nothing else (R24, R32). -/
def RegisterEffect (s t : State) (rd : RegId) (v n : Nat) : Prop :=
  RegWritten s t rd v ∧ t.pc = s.pc + n ∧ t.sp = s.sp ∧ SameBytes s t ∧ t.ledger = s.ledger ∧
    t.retDesc = s.retDesc ∧ SameStatus s t ∧ SameConfig s t

/-- The effect of an instruction that only moves the cursor. -/
def CursorEffect (s t : State) (target : Nat) : Prop :=
  t.pc = target ∧ t.regs = s.regs ∧ t.sp = s.sp ∧ SameBytes s t ∧ t.ledger = s.ledger ∧
    t.retDesc = s.retDesc ∧ SameStatus s t ∧ SameConfig s t

/-- The effect of storing the low `n` bytes of `v` at `a`, moving `sp` and the cursor, and nothing else. -/
def StoreEffect (s t : State) (a : Nat) (n v : Nat) (sp target : Nat) : Prop :=
  BytesHold t a n v ∧ SameBytesOutside s t a n ∧ t.sp = sp ∧ t.pc = target ∧ t.regs = s.regs ∧
    t.ledger = s.ledger ∧ t.retDesc = s.retDesc ∧ SameStatus s t ∧ SameConfig s t

/-- A fault is taken precisely (R271): the record is latched and nothing else changes. `FAULT_INFO` holds 64 bits, so an
address of exactly `2^64` is recorded as 0: the model's choice, log 20. -/
def FaultTaken (s t : State) (code : FaultCode) (info : Nat) : Prop :=
  t.runState = .faulted ∧ t.faultCode = some code ∧ t.faultPc = s.pc ∧ t.faultInfo = BitVec.ofNat 64 info ∧
    t.pc = s.pc ∧ t.regs = s.regs ∧ t.sp = s.sp ∧ SameBytes s t ∧ t.ledger = s.ledger ∧ t.retDesc = s.retDesc ∧
    SameConfig s t

/-- The effect of loading `v`, popped at the register's own width, into `r` (R231). -/
def PopEffect (s t : State) (r : RegId) (v sp n : Nat) : Prop :=
  RegWritten s t r v ∧ t.sp = sp ∧ t.pc = s.pc + n ∧ SameBytes s t ∧ t.ledger = s.ledger ∧ t.retDesc = s.retDesc ∧
    SameStatus s t ∧ SameConfig s t

/-- The effect of a transfer that also moves `sp` (a return under `CALL_CONV = Stack`). -/
def ReturnEffect (s t : State) (target sp : Nat) : Prop :=
  t.pc = target ∧ t.sp = sp ∧ t.regs = s.regs ∧ SameBytes s t ∧ t.ledger = s.ledger ∧ t.retDesc = s.retDesc ∧
    SameStatus s t ∧ SameConfig s t

/-- The effect of a transfer that also changes the ledger (a call or return under `CALL_CONV = Ledger`). -/
def LedgerEffect (s t : State) (target : Nat) (l : List LedgerEntry) : Prop :=
  t.pc = target ∧ t.ledger = l ∧ t.regs = s.regs ∧ t.sp = s.sp ∧ SameBytes s t ∧ t.retDesc = s.retDesc ∧
    SameStatus s t ∧ SameConfig s t

/-- The core is about to fetch inside the image. -/
def Fetching (s : State) : Prop :=
  s.runState = .running ∧ s.start ≤ s.pc ∧ s.pc < s.limit

/-- The image bytes from `pc` to `LIMIT`. -/
def imageFromPc (s : State) : List Byte :=
  s.mem.readBytes s.pc (s.limit - s.pc)

/-- The lengths in bytes of an instruction's fields, the opcode byte first, in the order of its format (R103 to R110). -/
def fieldLengths (w : PtrWidth) : Instr → List Nat
  | .nop | .exit | .ret | .jccRM | .jccMM => [1]
  | .inc _ | .dec _ | .pushR _ | .popR _ => [1, 1]
  | .movRR _ _ | .addRR _ _ | .subRR _ _ | .mulRR _ _ => [1, 1, 1]
  | .movRI rd _ | .addRI rd _ | .subRI rd _ | .mulRI rd _ => [1, 1, rd.cls.bytes]
  | .pushI dt _ => [1, 1, dt.bytes w]
  | .jmpNear _ => [1, 1]
  | .jmpShort _ | .callShort _ => [1, 2]
  | .jmpLong _ | .jmpPtr32 _ | .callLong _ | .callPtr32 _ => [1, 4]
  | .jmpPtr64 _ | .callPtr64 _ => [1, 8]
  | .jccRR _ _ _ _ tgt => [1, 1, 1, 1, 1, 1, tgt.jumpType.bytes]
  | .jccRI _ dt _ _ tgt => [1, 1, 1, 1, 1, dt.bytes w, tgt.jumpType.bytes]

/-- The offset of the first field that is not wholly inside the first `k` bytes, of fields laid out one after another
from offset `off` (R90, R92). -/
def cutFieldOffset (k : Nat) : Nat → List Nat → Nat
  | off, [] => off
  | off, n :: ns => if off + n ≤ k then cutFieldOffset k (off + n) ns else off

/-- The stack pointer lies in the stack (R38). -/
def StackInBounds (s : State) : Prop :=
  s.first ≤ s.sp ∧ s.sp ≤ s.last

/-- The target an unconditional jump names at `base` (R165 to R169), none for a form the profile does not have and for
every other instruction. -/
def jumpTarget? (w : PtrWidth) (base : Nat) : Instr → Option Nat
  | .jmpNear rel => some (targetAddr w base (.near rel))
  | .jmpShort rel => some (targetAddr w base (.short rel))
  | .jmpLong rel => some (targetAddr w base (.long rel))
  | .jmpPtr32 address => some (targetAddr w base (.ptr32 address))
  | .jmpPtr64 address => if w = .w64 then some (targetAddr w base (.ptr64 address)) else none
  | .nop | .exit | .ret | .jccRM | .jccMM | .inc _ | .dec _ | .pushR _ | .popR _ | .movRR _ _ | .addRR _ _
  | .subRR _ _ | .mulRR _ _ | .movRI _ _ | .addRI _ _ | .subRI _ _ | .mulRI _ _ | .pushI _ _ | .callShort _
  | .callLong _ | .callPtr32 _ | .callPtr64 _ | .jccRR _ _ _ _ _ | .jccRI _ _ _ _ _ => none

/-- The target a call names at `base` (R170 to R173), none for a form the profile does not have and for every other
instruction. -/
def callTarget? (w : PtrWidth) (base : Nat) : Instr → Option Nat
  | .callShort rel => some (targetAddr w base (.short rel))
  | .callLong rel => some (targetAddr w base (.long rel))
  | .callPtr32 address => some (targetAddr w base (.ptr32 address))
  | .callPtr64 address => if w = .w64 then some (targetAddr w base (.ptr64 address)) else none
  | .nop | .exit | .ret | .jccRM | .jccMM | .inc _ | .dec _ | .pushR _ | .popR _ | .movRR _ _ | .addRR _ _
  | .subRR _ _ | .mulRR _ _ | .movRI _ _ | .addRI _ _ | .subRI _ _ | .mulRI _ _ | .pushI _ _ | .jmpNear _
  | .jmpShort _ | .jmpLong _ | .jmpPtr32 _ | .jmpPtr64 _ | .jccRR _ _ _ _ _ | .jccRI _ _ _ _ _ => none

/-- The instructions that may write a slot (`40_register_ops.md`, R231). -/
def mayWriteRegs : Instr → Bool
  | .movRR _ _ | .movRI _ _ | .inc _ | .dec _ | .addRR _ _ | .addRI _ _ | .subRR _ _ | .subRI _ _ | .mulRR _ _
  | .mulRI _ _ | .popR _ => true
  | .nop | .exit | .pushR _ | .pushI _ _ | .jmpNear _ | .jmpShort _ | .jmpLong _ | .jmpPtr32 _ | .jmpPtr64 _
  | .callShort _ | .callLong _ | .callPtr32 _ | .callPtr64 _ | .ret | .jccRR _ _ _ _ _ | .jccRI _ _ _ _ _ | .jccRM
  | .jccMM => false

/-- The operand-stack instructions (`43_stack_ops.md`). -/
def isStackOp : Instr → Bool
  | .pushR _ | .popR _ | .pushI _ _ => true
  | .nop | .exit | .movRR _ _ | .movRI _ _ | .inc _ | .dec _ | .addRR _ _ | .addRI _ _ | .subRR _ _ | .subRI _ _
  | .mulRR _ _ | .mulRI _ _ | .jmpNear _ | .jmpShort _ | .jmpLong _ | .jmpPtr32 _ | .jmpPtr64 _ | .callShort _
  | .callLong _ | .callPtr32 _ | .callPtr64 _ | .ret | .jccRR _ _ _ _ _ | .jccRI _ _ _ _ _ | .jccRM | .jccMM => false

/-- The calls and the return (R160, R161). -/
def isCallOrRet : Instr → Bool
  | .callShort _ | .callLong _ | .callPtr32 _ | .callPtr64 _ | .ret => true
  | .nop | .exit | .movRR _ _ | .movRI _ _ | .inc _ | .dec _ | .addRR _ _ | .addRI _ _ | .subRR _ _ | .subRI _ _
  | .mulRR _ _ | .mulRI _ _ | .pushR _ | .popR _ | .pushI _ _ | .jmpNear _ | .jmpShort _ | .jmpLong _ | .jmpPtr32 _
  | .jmpPtr64 _ | .jccRR _ _ _ _ _ | .jccRI _ _ _ _ _ | .jccRM | .jccMM => false

/-- Execute instructions one after another, wherever they stand. -/
def execAll : List Instr → State → Result
  | [], s => .next s
  | i :: is, s =>
    match exec i s with
    | .next t => execAll is t
    | .fault f => .fault f
    | .refused r => .refused r

/-- Nested calls, each to an aligned target of the state it runs in, with room for each return address. -/
def CallsNest : List Instr → State → Prop
  | [], _ => True
  | i :: is, s =>
    ∃ target t, callTarget? s.ptrWidth s.pc i = some target ∧ target % 16 = 0 ∧
      (s.callConv = .stack → s.ptrWidth.bytes ≤ s.stackFree) ∧
      (s.callConv = .ledger → s.ledgerCapacity ≠ some s.ledger.length) ∧
      exec i s = .next t ∧ CallsNest is t

/-- The launch preconditions of R303, each in its own words. -/
structure Launch.Preconditions (p : Launch) : Prop where
  base_aligned  : p.imageBase % 256 = 0
  representable : p.imageBase + p.image.length ≤ 2 ^ p.ptrWidth ∧ p.imageBase + p.entryOffset < 2 ^ p.ptrWidth ∧
    p.stackBase + p.stackCapacity ≤ 2 ^ p.ptrWidth
  disjoint      : ∀ a, p.imageBase ≤ a → a < p.imageBase + p.image.length →
    ¬ (p.stackBase ≤ a ∧ a < p.stackBase + p.stackCapacity)
  in_range      : (p.ptrWidth = 32 ∨ p.ptrWidth = 64) ∧ 1 ≤ p.stackCapacity ∧ ∀ k, p.ledgerCapacity = some k → 1 ≤ k

/-- The host finds launch precondition `k` refused (R303), and the core takes no step. -/
def RefusedWith (s : State) (k : Nat) : Prop :=
  s.runState = .refused ∧ s.faultCode = some .launchRefused ∧ s.faultInfo = BitVec.ofNat 64 k ∧
    step s = .next s

end Sys2Proof.Machine
end

