-- ==== Sys2Proof/Certificates/Slice0/Obligations.lean ====
section
/-! DEFINITION. The statements for the provers. Each says which rules of the spec it formalises. -/

open Sys2Proof Sys2Proof.Machine

/-! ## Encoding and decoding -/

/-- Words written out from the spec's encodings and examples decode to the instructions they stand for (R103 to R111). -/
def Obligations.WordsOfTheSpecDecode : Prop :=
  decode .w64 [0x01] = .ok (.nop, 1) ∧
  decode .w64 [0x10, 0x02, 0x21] = .ok (.movRR ⟨.r8, 2⟩ ⟨.r8high, 1⟩, 3) ∧
  decode .w64 [0x23, 0x42, 0x20, 0x00] = .ok (.subRI ⟨.r16, 2⟩ 0x20, 4) ∧
  decode .w64 [0x32, 0x05, 0x44, 0x33, 0x22, 0x11] = .ok (.pushI .uint32 0x11223344, 6) ∧
  decode .w64 [0x41, 0xEC, 0xFF] = .ok (.jmpShort 0xFFEC, 3) ∧
  decode .w64 [0x60, 0x02, 0x07, 0x00, 0x01, 0x01, 0x10] = .ok (.jccRR .je .uint64 1 1 (.near 0x10), 7) ∧
  decode .w64 [0x61, 0x02, 0x07, 0x04, 0x01, 0, 0, 0, 0, 0, 0, 0, 0, 0x20, 0, 0, 0, 0, 0, 0, 0] =
    .ok (.jccRI .je .uint64 1 0 (.ptr64 0x20), 21)

/-- Decoding an encoded well-formed instruction gives it back, whatever follows it and in both profiles. -/
def Obligations.DecodeOfEncodeIsIdentity : Prop :=
  ∀ (w : PtrWidth) (i : Instr) (rest : List Byte), i.wellFormed w = true →
    decode w (encode w i ++ rest) = .ok (i, (encode w i).length)

/-- What decodes is well-formed and its bytes are the encoding of the instruction: each word has one meaning. -/
def Obligations.EncodeOfDecodeIsIdentity : Prop :=
  ∀ (w : PtrWidth) (bytes : List Byte) (i : Instr) (n : Nat), decode w bytes = .ok (i, n) →
    i.wellFormed w = true ∧ n ≤ bytes.length ∧ encode w i = bytes.take n

/-- R117: the length of every instruction, between 1 and 21 bytes, both reached. -/
def Obligations.InstructionLengths : Prop :=
  (∀ (w : PtrWidth), ∀ i ∈ [Instr.nop, .exit, .ret], (encode w i).length = 1) ∧
  (∀ (w : PtrWidth) (r : RegId), ∀ i ∈ [Instr.inc r, .dec r, .pushR r, .popR r], (encode w i).length = 2) ∧
  (∀ (w : PtrWidth) (rd rs : RegId), ∀ i ∈ [Instr.movRR rd rs, .addRR rd rs, .subRR rd rs, .mulRR rd rs],
    (encode w i).length = 3) ∧
  (∀ (w : PtrWidth) (s : Slot) (imm : Word) (c : RegClass) (n : Nat),
    (c, n) ∈ [(RegClass.r8, 3), (.r8high, 3), (.r16, 4), (.r32, 6), (.r64, 10)] →
    ∀ i ∈ [Instr.movRI ⟨c, s⟩ imm, .addRI ⟨c, s⟩ imm, .subRI ⟨c, s⟩ imm, .mulRI ⟨c, s⟩ imm],
      (encode w i).length = n) ∧
  (∀ (w : PtrWidth) (imm : Word) (dt : DataType) (n : Nat),
    (dt, n) ∈ [(DataType.int8, 3), (.uint8, 3), (.int16, 4), (.uint16, 4), (.int32, 6), (.uint32, 6), (.int64, 10),
      (.uint64, 10), (.pointer, if w = .w32 then 6 else 10)] → (encode w (.pushI dt imm)).length = n) ∧
  (∀ (w : PtrWidth) (a : BitVec 8) (b : BitVec 16) (c : BitVec 32) (d : BitVec 64),
    (encode w (.jmpNear a)).length = 2 ∧ (encode w (.jmpShort b)).length = 3 ∧ (encode w (.jmpLong c)).length = 5 ∧
    (encode w (.jmpPtr32 c)).length = 5 ∧ (encode w (.jmpPtr64 d)).length = 9 ∧ (encode w (.callShort b)).length = 3 ∧
    (encode w (.callLong c)).length = 5 ∧ (encode w (.callPtr32 c)).length = 5 ∧
    (encode w (.callPtr64 d)).length = 9) ∧
  (∀ (w : PtrWidth) (cc : Cond) (dt : DataType) (sa sb : Slot) (tgt : Target),
    (encode w (.jccRR cc dt sa sb tgt)).length = 6 + tgt.jumpType.bytes) ∧
  (∀ (w : PtrWidth) (cc : Cond) (dt : DataType) (sa : Slot) (imm : Word) (tgt : Target),
    (encode w (.jccRI cc dt sa imm tgt)).length = 5 + dt.bytes w + tgt.jumpType.bytes) ∧
  (∀ (w : PtrWidth) (i : Instr), 1 ≤ (encode w i).length ∧ (encode w i).length ≤ 21) ∧
  (∀ (jt : JumpType) (n : Nat),
    (jt, n) ∈ [(JumpType.near, 1), (.short, 2), (.long, 4), (.ptr32, 4), (.ptr64, 8)] → jt.bytes = n) ∧
  (∃ i : Instr, i.wellFormed .w64 = true ∧ (encode .w64 i).length = 21)

/-- No instruction needs more than 21 bytes: decoding looks no further (R117). -/
def Obligations.DecodingLooksAt21Bytes : Prop :=
  ∀ (w : PtrWidth) (bytes : List Byte), decode w (bytes.take 21) = decode w bytes

/-- R112: every opcode byte outside the map faults `UnknownOpcode` with `FAULT_INFO` the byte, 0x00 and 0x50 among
them. -/
def Obligations.UnknownOpcodesFault : Prop :=
  ∀ (s : State) (op : Nat), Fetching s → (s.mem.read s.pc).toNat = op →
    (op = 0x00 ∨ (0x03 ≤ op ∧ op ≤ 0x0F) ∨ (0x12 ≤ op ∧ op ≤ 0x17) ∨ (0x1A ≤ op ∧ op ≤ 0x1F) ∨
      (0x26 ≤ op ∧ op ≤ 0x2F) ∨ (0x33 ≤ op ∧ op ≤ 0x3F) ∨ (0x45 ≤ op ∧ op ≤ 0x50) ∨ (0x55 ≤ op ∧ op ≤ 0x57) ∨
      (0x59 ≤ op ∧ op ≤ 0x5F) ∨ 0x64 ≤ op) →
    ∃ t, step s = .next t ∧ FaultTaken s t .unknownOpcode op

/-- R115: the fault each illegal field value raises, with `FAULT_INFO` the offending byte, checked in byte order. -/
def Obligations.IllegalFieldsFault : Prop :=
  (∀ (w : PtrWidth) (rest : List Byte) (op id : Byte),
    op ∈ [(0x10 : Byte), 0x11, 0x18, 0x19, 0x20, 0x21, 0x22, 0x23, 0x24, 0x25, 0x30, 0x31] → 160 ≤ id.toNat →
    decode w (op :: id :: rest) = .error (.unknownRegister id.toNat)) ∧
  (∀ (w : PtrWidth) (rest : List Byte) (op rd rs : Byte), op ∈ [(0x10 : Byte), 0x20, 0x22, 0x24] → rd.toNat < 160 →
    160 ≤ rs.toNat → decode w (op :: rd :: rs :: rest) = .error (.unknownRegister rs.toNat)) ∧
  (∀ (w : PtrWidth) (rest : List Byte) (op rd rs : Byte), op ∈ [(0x20 : Byte), 0x22, 0x24] → rd.toNat < 160 →
    rs.toNat < 160 → rd.toNat / 32 ≠ rs.toNat / 32 →
    decode w (op :: rd :: rs :: rest) = .error (.widthMismatch rs.toNat)) ∧
  (∀ (w : PtrWidth) (rest : List Byte) (dt : Byte), 9 ≤ dt.toNat →
    decode w (0x32 :: dt :: rest) = .error (.unknownDataType dt.toNat)) ∧
  (∀ (w : PtrWidth) (rest : List Byte) (op cc : Byte), op ∈ [(0x60 : Byte), 0x61] → 8 ≤ cc.toNat →
    decode w (op :: cc :: rest) = .error (.unknownCondition cc.toNat)) ∧
  (∀ (w : PtrWidth) (rest : List Byte) (op cc dt : Byte), op ∈ [(0x60 : Byte), 0x61] → cc.toNat < 8 → 9 ≤ dt.toNat →
    decode w (op :: cc :: dt :: rest) = .error (.unknownDataType dt.toNat)) ∧
  (∀ (w : PtrWidth) (rest : List Byte) (op cc dt jt : Byte), op ∈ [(0x60 : Byte), 0x61] → cc.toNat < 8 →
    dt.toNat < 9 → 5 ≤ jt.toNat →
    decode w (op :: cc :: dt :: jt :: rest) = .error (.unknownJumpType jt.toNat)) ∧
  (∀ (rest : List Byte) (op cc dt : Byte), op ∈ [(0x60 : Byte), 0x61] → cc.toNat < 8 → dt.toNat < 9 →
    decode .w32 (op :: cc :: dt :: 4 :: rest) = .error (.profileInvalid 4)) ∧
  (∀ (w : PtrWidth) (rest : List Byte) (op cc dt jt sa : Byte), op ∈ [(0x60 : Byte), 0x61] → cc.toNat < 8 →
    dt.toNat < 9 → jt.toNat < 5 → (jt.toNat = 4 → w = .w64) → 32 ≤ sa.toNat →
    decode w (op :: cc :: dt :: jt :: sa :: rest) = .error (.unknownRegister sa.toNat)) ∧
  (∀ (w : PtrWidth) (rest : List Byte) (cc dt jt sa sb : Byte), cc.toNat < 8 →
    dt.toNat < 9 → jt.toNat < 5 → (jt.toNat = 4 → w = .w64) → sa.toNat < 32 → 32 ≤ sb.toNat →
    decode w (0x60 :: cc :: dt :: jt :: sa :: sb :: rest) = .error (.unknownRegister sb.toNat)) ∧
  (∀ (s : State) (byte : Nat) (e : DecodeError) (code : FaultCode), Fetching s →
    (e, code) ∈ [(DecodeError.unknownRegister byte, FaultCode.unknownRegister),
      (.unknownDataType byte, .unknownDataType), (.unknownJumpType byte, .unknownJumpType),
      (.profileInvalid byte, .profileInvalid), (.unknownCondition byte, .unknownCondition),
      (.widthMismatch byte, .widthMismatch)] →
    decode s.ptrWidth (imageFromPc s) = .error e → ∃ t, step s = .next t ∧ FaultTaken s t code byte)

/-- R102: with `PTR_WIDTH = 32` the two Ptr64 opcodes and the Ptr64 tag are invalid, refused on the opcode or tag byte
and raised with it as `FAULT_INFO`; a Pointer is 4 bytes wide there and 8 with `PTR_WIDTH = 64`, where they are valid. -/
def Obligations.ProfileValidity : Prop :=
  (∀ (s : State) (op : Nat), Fetching s → s.ptrWidth = .w32 → (s.mem.read s.pc).toNat = op → op = 0x44 ∨ op = 0x54 →
    ∃ t, step s = .next t ∧ FaultTaken s t .profileInvalid op) ∧
  (∀ (s : State) (a : BitVec 64), s.ptrWidth = .w32 →
    (∃ t, exec (.jmpPtr64 a) s = .next t ∧ FaultTaken s t .profileInvalid 0x44) ∧
    (∃ t, exec (.callPtr64 a) s = .next t ∧ FaultTaken s t .profileInvalid 0x54)) ∧
  (∀ (s : State) (cc : Cond) (dt : DataType) (sa sb : Slot) (imm : Word) (a : BitVec 64), s.ptrWidth = .w32 →
    (∃ t, exec (.jccRR cc dt sa sb (.ptr64 a)) s = .next t ∧ FaultTaken s t .profileInvalid 4) ∧
    (∃ t, exec (.jccRI cc dt sa imm (.ptr64 a)) s = .next t ∧ FaultTaken s t .profileInvalid 4)) ∧
  (∀ (rest : List Byte) (op cc dt : Byte), op ∈ [(0x60 : Byte), 0x61] → cc.toNat < 8 → dt.toNat < 9 →
    decode .w32 (op :: cc :: dt :: 4 :: rest) = .error (.profileInvalid 4)) ∧
  DataType.bytes .w32 .pointer = 4 ∧ DataType.bytes .w64 .pointer = 8 ∧
  (∀ (a : BitVec 64) (jt : JumpType), (Instr.jmpPtr64 a).wellFormed .w64 = true ∧
    (Instr.callPtr64 a).wellFormed .w64 = true ∧ jt.validIn .w64 = true)

/-- An instruction cut short by `LIMIT`, at any byte, faults `CursorOverflow` with no partial effect (R92); `FAULT_INFO`
is the first address of the first field of its format that is not wholly inside the image (R92, R261; for an address
of `2^64`, log 20). -/
def Obligations.TruncatedInstructionsFault : Prop :=
  ∀ (s : State) (i : Instr) (k : Nat), Fetching s → i.wellFormed s.ptrWidth = true → k < (encode s.ptrWidth i).length →
    imageFromPc s = (encode s.ptrWidth i).take k →
    ∃ t, step s = .next t ∧
      FaultTaken s t .cursorOverflow (s.pc + cutFieldOffset k 0 (fieldLengths s.ptrWidth i))

/-! ## The step -/

/-- When the image bytes at `pc` decode to an instruction, the step is that instruction's execution (R118, R307); the
instruction itself moves the cursor. -/
def Obligations.StepExecutesTheDecodedInstruction : Prop :=
  (∀ (s : State) (i : Instr) (n : Nat), Fetching s → decode s.ptrWidth (imageFromPc s) = .ok (i, n) →
    step s = exec i s) ∧
  (∀ (s : State) (i : Instr) (rest : List Byte), Fetching s → i.wellFormed s.ptrWidth = true →
    imageFromPc s = encode s.ptrWidth i ++ rest → step s = exec i s)

/-- The tests at the start of a step, in their order (R177, R307): end of stream at `LIMIT`, a cursor fault outside. -/
def Obligations.CursorBoundsAtTheStartOfAStep : Prop :=
  ∀ s : State, s.runState = .running →
    (s.pc = s.limit → ∃ t, step s = .next t ∧ t.runState = .endOfStream ∧ t.faultCode = s.faultCode ∧
      CursorEffect s { t with runState := s.runState } s.pc) ∧
    (s.pc ≠ s.limit → s.pc < s.start → ∃ t, step s = .next t ∧ FaultTaken s t .cursorUnderflow s.pc) ∧
    (s.start ≤ s.pc → s.limit < s.pc → ∃ t, step s = .next t ∧ FaultTaken s t .cursorOverflow s.pc)

/-- A step has no effect unless the core is Running (R273, R307). -/
def Obligations.OnlyARunningCoreSteps : Prop :=
  ∀ s : State, s.runState ≠ .running → step s = .next s

/-- Every step keeps the invariant: canonical memory, cursor and stack pointer in their ranges, disjoint regions, a
bounded ledger that the Stack convention never uses, and a fault record exactly when a fault ended the launch. -/
def Obligations.StepKeepsTheInvariant : Prop :=
  ∀ s t : State, s.Inv → step s = .next t → t.Inv

/-- From a state that meets the invariant every step answers a next state (R119, R307). -/
def Obligations.StepAlwaysAnswersANextState : Prop :=
  ∀ s : State, s.Inv → ∃ t, step s = .next t

/-- The state after reset meets the invariant. Its registers and parameters are the model's choice (log 2 to log 6). -/
def Obligations.ResetMeetsTheInvariant : Prop :=
  State.reset.Inv

/-- Every launch whose preconditions hold meets the invariant, its entry point aligned or not. -/
def Obligations.AcceptedLaunchMeetsTheInvariant : Prop :=
  ∀ (p : Launch) (u : State), p.Preconditions → (State.launch p u).Inv

/-- No step writes the image or the configuration: fetch always reads the bytes loaded at reset (R80, R310). -/
def Obligations.StepNeverWritesTheImage : Prop :=
  ∀ s t : State, s.Inv → step s = .next t →
    SameConfig s t ∧ ∀ a, s.start ≤ a → a < s.limit → t.mem.read a = s.mem.read a

/-- R271: a fault is precise. Whatever raised it, none of the instruction's writes happened, `pc` stays at its base,
the record is latched, and no further step has an effect. -/
def Obligations.FaultsArePrecise : Prop :=
  ∀ s t : State, s.runState = .running → step s = .next t → t.runState = .faulted →
    (∃ code info, FaultTaken s t code info) ∧ step t = .next t

/-- How a launch can end at a step (R269, R308): `Exited` only by an `EXIT`, `EndOfStream` only at `LIMIT`, `Faulted`
with a code; otherwise the core still runs. -/
def Obligations.EndsOfALaunch : Prop :=
  ∀ s t : State, s.runState = .running → step s = .next t →
    (t.runState = .running ∧ t.faultCode = s.faultCode) ∨
    (t.runState = .exited ∧ t.faultCode = s.faultCode ∧ ∃ n, decode s.ptrWidth (imageFromPc s) = .ok (.exit, n)) ∨
    (t.runState = .endOfStream ∧ t.faultCode = s.faultCode ∧ s.pc = s.limit) ∨
    (t.runState = .faulted ∧ t.faultCode ≠ none)

/-- `Run()` (R307, R308): it takes no step when the core is not Running and otherwise the next step first; it ends in
one state at most; from a Running core that meets the invariant it ends as `Exited`, `EndOfStream` or `Faulted`, in a
state that meets the invariant and that no step leaves, and however many steps it is given it never stops the model; an
aligned jump to itself never ends it. -/
def Obligations.RunRepeatsStepUntilNotRunning : Prop :=
  (∀ s t : State, s.runState ≠ .running → (RunsTo s t ↔ t = s)) ∧
  (∀ s t u : State, s.runState = .running → step s = .next t → (RunsTo s u ↔ RunsTo t u)) ∧
  (∀ s t u : State, RunsTo s t → RunsTo s u → t = u) ∧
  (∀ s t : State, s.Inv → s.runState = .running → RunsTo s t →
    (t.runState = .exited ∨ t.runState = .endOfStream ∨ t.runState = .faulted) ∧ t.Inv ∧ step t = .next t) ∧
  (∀ (s : State) (n : Nat), s.Inv → ∃ t, runFor n s = .next t ∧ t.Inv) ∧
  (∀ (s : State) (i : Instr) (n : Nat), Fetching s → decode s.ptrWidth (imageFromPc s) = .ok (i, n) →
    jumpTarget? s.ptrWidth s.pc i = some s.pc → s.pc % 16 = 0 → ∀ t, ¬ RunsTo s t)

/-- Who writes what (R52): slots, the stack, the ledger, `RETDESC`, the status and the configuration. -/
def Obligations.OnlyTheNamedInstructionsWrite : Prop :=
  ∀ (i : Instr) (s t : State), exec i s = .next t →
    (t.regs ≠ s.regs → mayWriteRegs i = true) ∧
    (t.sp ≠ s.sp ∨ t.mem ≠ s.mem → isStackOp i = true ∨ (isCallOrRet i = true ∧ s.callConv = .stack)) ∧
    (t.ledger ≠ s.ledger → isCallOrRet i = true ∧ s.callConv = .ledger) ∧
    (t.retDesc ≠ s.retDesc → i = .exit) ∧
    (¬ SameStatus s t → t.runState = .exited ∨ t.runState = .faulted) ∧
    SameConfig s t

/-! ## Registers -/

/-- R23: `RegRead` returns the bits of the slot that the class names, as an unsigned `W(c)`-bit integer. -/
def Obligations.RegReadNamesTheBits : Prop :=
  ∀ (s : State) (k : Slot),
    s.regRead ⟨.r8, k⟩ = s.regs[k].toNat % 2 ^ 8 ∧ s.regRead ⟨.r8high, k⟩ = s.regs[k].toNat / 2 ^ 8 % 2 ^ 8 ∧
    s.regRead ⟨.r16, k⟩ = s.regs[k].toNat % 2 ^ 16 ∧ s.regRead ⟨.r32, k⟩ = s.regs[k].toNat % 2 ^ 32 ∧
    s.regRead ⟨.r64, k⟩ = s.regs[k].toNat

/-- R24: `RegWrite` replaces exactly the bits the class names, in every slot and class, and nothing else of the
machine. -/
def Obligations.RegWriteReplacesExactlyTheClassBits : Prop :=
  ∀ (s : State) (r : RegId) (v : Nat), RegWritten s (s.regWrite r v) r v ∧
    (s.regWrite r v) = { s with regs := (s.regWrite r v).regs }

/-- R26: read after write, independence of the two low bytes, visibility at overlapping classes, independence of
slots. -/
def Obligations.OverlayOfWidths : Prop :=
  (∀ (s : State) (r : RegId) (v : Nat), (s.regWrite r v).regRead r = v % 2 ^ r.cls.bits) ∧
  (∀ (s : State) (k : Slot) (v : Nat), (s.regWrite ⟨.r8, k⟩ v).regRead ⟨.r8high, k⟩ = s.regRead ⟨.r8high, k⟩ ∧
    (s.regWrite ⟨.r8high, k⟩ v).regRead ⟨.r8, k⟩ = s.regRead ⟨.r8, k⟩) ∧
  (∀ (s : State) (k : Slot) (c d : RegClass) (v j : Nat), classLow c ≤ j → j < classLow c + c.bits → classLow d ≤ j →
    j < classLow d + d.bits →
    ((s.regWrite ⟨c, k⟩ v).regRead ⟨d, k⟩).testBit (j - classLow d) = v.testBit (j - classLow c)) ∧
  (∀ (s : State) (r q : RegId) (v : Nat), q.slot ≠ r.slot → (s.regWrite r v).regRead q = s.regRead q)

/-- The moves (R132, R133): `MOV_RR` puts the source's unsigned value into the destination's bits, zero-extended or
truncated; `MOV_RI` its immediate. The immediate of a well-formed `MOV_RI` fits the class. -/
def Obligations.MovesWriteTheirDestination : Prop :=
  (∀ (s : State) (rd rs : RegId), ∃ t, exec (.movRR rd rs) s = .next t ∧ RegisterEffect s t rd (s.regRead rs) 3 ∧
    t.regRead rd = s.regRead rs % 2 ^ rd.cls.bits) ∧
  (∀ (s : State) (rd : RegId) (imm : Word), (Instr.movRI rd imm).wellFormed s.ptrWidth = true →
    ∃ t, exec (.movRI rd imm) s = .next t ∧ RegisterEffect s t rd imm.toNat (2 + rd.cls.bytes) ∧
      t.regRead rd = imm.toNat)

/-- R131: add, subtract, multiply, increment and decrement are unsigned and modular at the destination's width, raise no
fault, change no other bit, and agree with the two's-complement results of the signed operands. -/
def Obligations.ArithmeticIsModular : Prop :=
  (∀ (s : State) (rd rs : RegId), rd.cls = rs.cls →
    (∃ t, exec (.addRR rd rs) s = .next t ∧
      RegisterEffect s t rd (((s.regRead rd : Int) + s.regRead rs) % 2 ^ rd.cls.bits).toNat 3) ∧
    (∃ t, exec (.subRR rd rs) s = .next t ∧
      RegisterEffect s t rd (((s.regRead rd : Int) - s.regRead rs) % 2 ^ rd.cls.bits).toNat 3) ∧
    (∃ t, exec (.mulRR rd rs) s = .next t ∧
      RegisterEffect s t rd (((s.regRead rd : Int) * s.regRead rs) % 2 ^ rd.cls.bits).toNat 3)) ∧
  (∀ (s : State) (rd : RegId) (imm : Word),
    (∃ t, exec (.addRI rd imm) s = .next t ∧
      RegisterEffect s t rd (((s.regRead rd : Int) + imm.toNat) % 2 ^ rd.cls.bits).toNat (2 + rd.cls.bytes)) ∧
    (∃ t, exec (.subRI rd imm) s = .next t ∧
      RegisterEffect s t rd (((s.regRead rd : Int) - imm.toNat) % 2 ^ rd.cls.bits).toNat (2 + rd.cls.bytes)) ∧
    (∃ t, exec (.mulRI rd imm) s = .next t ∧
      RegisterEffect s t rd (((s.regRead rd : Int) * imm.toNat) % 2 ^ rd.cls.bits).toNat (2 + rd.cls.bytes))) ∧
  (∀ (s : State) (r : RegId),
    (∃ t, exec (.inc r) s = .next t ∧
      RegisterEffect s t r (((s.regRead r : Int) + 1) % 2 ^ r.cls.bits).toNat 2) ∧
    (∃ t, exec (.dec r) s = .next t ∧
      RegisterEffect s t r (((s.regRead r : Int) - 1) % 2 ^ r.cls.bits).toNat 2)) ∧
  (∀ (c : RegClass) (a b : Nat),
    ((sext c.bits a + sext c.bits b) % 2 ^ c.bits = ((a : Int) + b) % 2 ^ c.bits) ∧
    ((sext c.bits a - sext c.bits b) % 2 ^ c.bits = ((a : Int) - b) % 2 ^ c.bits) ∧
    ((sext c.bits a * sext c.bits b) % 2 ^ c.bits = ((a : Int) * b) % 2 ^ c.bits))

/-- R130: the one-width operations refuse operands of two classes after both fields are decoded; `MOV_RR` is exempt. -/
def Obligations.WidthMismatchFaults : Prop :=
  (∀ (s : State) (rd rs : RegId), rd.cls ≠ rs.cls → ∀ i ∈ [Instr.addRR rd rs, .subRR rd rs, .mulRR rd rs],
    (∃ t, exec i s = .next t ∧ FaultTaken s t .widthMismatch rs.code) ∧
    (∀ rest, decode s.ptrWidth (encode s.ptrWidth i ++ rest) = .error (.widthMismatch rs.code)) ∧
    (∀ rest, Fetching s → imageFromPc s = encode s.ptrWidth i ++ rest →
      ∃ t, step s = .next t ∧ FaultTaken s t .widthMismatch rs.code)) ∧
  (∀ (w : PtrWidth) (rd rs : RegId) (rest : List Byte),
    decode w (encode w (.movRR rd rs) ++ rest) = .ok (.movRR rd rs, 3))

/-! ## The operand stack -/

/-- Where a push stores and where `sp` goes (R34, R35, R71): forward at `sp` and up, backward below it, each move
`dir * n`; a pop is the move back. -/
def Obligations.StackMovesByDirection : Prop :=
  ∀ (s : State) (n : Nat), StackInBounds s →
    (n ≤ s.stackFree → ((s.pushSp n : Int) = s.sp + (if s.stackDir = .forward then (n : Int) else -n)) ∧
      s.pushAddr n = (if s.stackDir = .forward then s.sp else s.pushSp n) ∧
      s.first ≤ s.pushAddr n ∧ s.pushAddr n + n ≤ s.last) ∧
    (n ≤ s.stackSize → ((s.popSp n : Int) = s.sp - (if s.stackDir = .forward then (n : Int) else -n)) ∧
      s.popAddr n = (if s.stackDir = .forward then s.popSp n else s.sp) ∧
      s.first ≤ s.popAddr n ∧ s.popAddr n + n ≤ s.last) ∧
    (s.stackSize : Int) = (if s.stackDir = .forward then (s.sp : Int) - s.first else (s.last : Int) - s.sp) ∧
    (s.stackFree : Int) = ((s.last : Int) - s.first) - s.stackSize

/-- `PUSH_R` and `PUSH_I` with room (R71, R230, R232): the bytes stored are the register's own width or the data type's,
at the top of the stack; nothing else changes. -/
def Obligations.PushesStoreAtTheTop : Prop :=
  (∀ (s : State) (r : RegId), StackInBounds s → r.cls.bytes ≤ s.stackFree →
    ∃ t, exec (.pushR r) s = .next t ∧
      StoreEffect s t (s.pushAddr r.cls.bytes) r.cls.bytes (s.regRead r) (s.pushSp r.cls.bytes) (s.pc + 2)) ∧
  (∀ (s : State) (dt : DataType) (imm : Word), StackInBounds s → dt.bytes s.ptrWidth ≤ s.stackFree →
    ∃ t, exec (.pushI dt imm) s = .next t ∧
      StoreEffect s t (s.pushAddr (dt.bytes s.ptrWidth)) (dt.bytes s.ptrWidth) imm.toNat
        (s.pushSp (dt.bytes s.ptrWidth)) (s.pc + (2 + dt.bytes s.ptrWidth)))

/-- `POP_R` with enough bytes (R72, R231): the value is whatever bytes lie at the top, little-endian, written to the
class's bits; the bytes stay in the buffer. -/
def Obligations.PopLoadsFromTheTop : Prop :=
  ∀ (s : State) (r : RegId), StackInBounds s → r.cls.bytes ≤ s.stackSize →
    ∃ t v, exec (.popR r) s = .next t ∧ v < 256 ^ r.cls.bytes ∧ BytesHold s (s.popAddr r.cls.bytes) r.cls.bytes v ∧
      PopEffect s t r v (s.popSp r.cls.bytes) 2

/-- A push without room and a pop without bytes fault with `FAULT_INFO = sp` and move nothing (R71, R72, R265;
for an `sp` of `2^64`, log 20). -/
def Obligations.StackBoundsFault : Prop :=
  (∀ (s : State) (r : RegId), s.stackFree < r.cls.bytes →
    ∃ t, exec (.pushR r) s = .next t ∧ FaultTaken s t .stackOverflow s.sp) ∧
  (∀ (s : State) (dt : DataType) (imm : Word), s.stackFree < dt.bytes s.ptrWidth →
    ∃ t, exec (.pushI dt imm) s = .next t ∧ FaultTaken s t .stackOverflow s.sp) ∧
  (∀ (s : State) (r : RegId), s.stackSize < r.cls.bytes →
    ∃ t, exec (.popR r) s = .next t ∧ FaultTaken s t .stackUnderflow s.sp)

/-- R233: a typed push and a pop of the same width give the value back and return `sp`, in both directions. -/
def Obligations.PushThenPopGivesTheValueBack : Prop :=
  ∀ (s : State) (dt : DataType) (r : RegId) (v : Word), dt ∈ [DataType.int32, .uint32, .int64, .uint64] →
    r.cls.bytes = dt.bytes s.ptrWidth → StackInBounds s → dt.bytes s.ptrWidth ≤ s.stackFree →
    ∃ t u, exec (.pushI dt v) s = .next t ∧ exec (.popR r) t = .next u ∧
      u.regRead r = v.toNat % 2 ^ (8 * dt.bytes s.ptrWidth) ∧ u.sp = s.sp

/-- R73: popping 8 bytes after pushing two 4-byte values gives `a + 2^32 * b` forward and `b + 2^32 * a` backward. -/
def Obligations.MixedWidthPop : Prop :=
  ∀ (s : State) (k : Slot) (a b : BitVec 32), StackInBounds s → 8 ≤ s.stackFree →
    ∃ t u v, exec (.pushI .uint32 (a.zeroExtend 64)) s = .next t ∧ exec (.pushI .uint32 (b.zeroExtend 64)) t = .next u ∧
      exec (.popR ⟨.r64, k⟩) u = .next v ∧ v.sp = s.sp ∧
      (s.stackDir = .forward → v.regRead ⟨.r64, k⟩ = a.toNat + 2 ^ 32 * b.toNat) ∧
      (s.stackDir = .backward → v.regRead ⟨.r64, k⟩ = b.toNat + 2 ^ 32 * a.toNat)

/-- R37: the stack predicates by direction; while `sp` is in bounds `isOverflow` is exactly a full stack and
`isUnderflow` is false (R38). -/
def Obligations.StackPredicates : Prop :=
  ∀ s : State,
    (s.stackDir = .forward → (s.stackIsOverflow = true ↔ s.last ≤ s.sp) ∧ (s.stackIsUnderflow = true ↔ s.sp < s.first)) ∧
    (s.stackDir = .backward → (s.stackIsOverflow = true ↔ s.sp ≤ s.first) ∧ (s.stackIsUnderflow = true ↔ s.last < s.sp)) ∧
    (StackInBounds s → (s.stackIsOverflow = true ↔ s.stackFree = 0) ∧ s.stackIsUnderflow = false)

/-! ## Control transfer -/

/-- R163 and R164: `NOP` moves the cursor by one; `EXIT` reports slot 0 in `RETDESC`, moves the cursor and halts. -/
def Obligations.NopAndExit : Prop :=
  (∀ s : State, ∃ t, exec .nop s = .next t ∧ CursorEffect s t (s.pc + 1)) ∧
  (∀ s : State, ∃ t, exec .exit s = .next t ∧ t.retDesc.tag = 0 ∧ t.retDesc.length = 8 ∧ t.retDesc.value = s.regs[0] ∧
    t.runState = .exited ∧ t.faultCode = s.faultCode ∧ t.faultPc = s.faultPc ∧ t.faultInfo = s.faultInfo ∧
    t.pc = s.pc + 1 ∧ t.regs = s.regs ∧ t.sp = s.sp ∧ SameBytes s t ∧ t.ledger = s.ledger ∧ SameConfig s t)

/-- R100 and R101: a relative target is `base + sext(rel)` modulo `2^PTR_WIDTH`, from the opcode byte; an absolute one
is the field, zero-extended. -/
def Obligations.TargetAddresses : Prop :=
  ∀ (w : PtrWidth) (base : Nat),
    (∀ rel : BitVec 8, (targetAddr w base (.near rel) : Int) = ((base : Int) + rel.toInt) % 2 ^ w.bits) ∧
    (∀ rel : BitVec 16, (targetAddr w base (.short rel) : Int) = ((base : Int) + rel.toInt) % 2 ^ w.bits) ∧
    (∀ rel : BitVec 32, (targetAddr w base (.long rel) : Int) = ((base : Int) + rel.toInt) % 2 ^ w.bits) ∧
    (∀ a : BitVec 32, targetAddr w base (.ptr32 a) = a.toNat ∧ targetAddr w base (.ptr32 a) < 2 ^ 32) ∧
    (∀ a : BitVec 64, targetAddr w base (.ptr64 a) = a.toNat)

/-- The five unconditional jumps reach an aligned target and change nothing else, whether it lies in the image or not
(R165 to R169, R177). -/
def Obligations.JumpsReachTheirTargets : Prop :=
  ∀ (s : State) (i : Instr) (target : Nat), jumpTarget? s.ptrWidth s.pc i = some target → target % 16 = 0 →
    ∃ t, exec i s = .next t ∧ CursorEffect s t target

/-- R162: the target of every taken jump, call and conditional branch must be a multiple of 16, checked before anything
is written; a return address is not checked. -/
def Obligations.MisalignedTargetsFault : Prop :=
  (∀ (s : State) (i : Instr) (target : Nat), jumpTarget? s.ptrWidth s.pc i = some target → target % 16 ≠ 0 →
    ∃ t, exec i s = .next t ∧ FaultTaken s t .alignment target) ∧
  (∀ (s : State) (i : Instr) (target : Nat), callTarget? s.ptrWidth s.pc i = some target → target % 16 ≠ 0 →
    ∃ t, exec i s = .next t ∧ FaultTaken s t .alignment target) ∧
  (∀ (s : State) (cc : Cond) (dt : DataType) (sa sb : Slot) (tgt : Target), tgt.jumpType.validIn s.ptrWidth = true →
    condEval cc (s.slotTyped dt sa) (s.slotTyped dt sb) = true → targetAddr s.ptrWidth s.pc tgt % 16 ≠ 0 →
    ∃ t, exec (.jccRR cc dt sa sb tgt) s = .next t ∧ FaultTaken s t .alignment (targetAddr s.ptrWidth s.pc tgt)) ∧
  (∀ (s : State) (cc : Cond) (dt : DataType) (sa : Slot) (imm : Word) (tgt : Target),
    tgt.jumpType.validIn s.ptrWidth = true →
    condEval cc (s.slotTyped dt sa) (readTyped s.ptrWidth dt imm.toNat) = true →
    targetAddr s.ptrWidth s.pc tgt % 16 ≠ 0 →
    ∃ t, exec (.jccRI cc dt sa imm tgt) s = .next t ∧ FaultTaken s t .alignment (targetAddr s.ptrWidth s.pc tgt)) ∧
  (∀ (s : State) (v : Nat) (u : State), popReturn s = .ok v u → ∃ t, exec .ret s = .next t ∧ t.pc = v)

/-- The four calls under `CALL_CONV = Stack` with room (R160, R170 to R173): the address of the next instruction is
pushed as `PTR_BYTES` bytes and the cursor is at the target; the ledger is untouched. -/
def Obligations.CallsPushTheReturnAddress : Prop :=
  ∀ (s : State) (i : Instr) (target : Nat), callTarget? s.ptrWidth s.pc i = some target → target % 16 = 0 →
    s.callConv = .stack → StackInBounds s → s.ptrWidth.bytes ≤ s.stackFree →
    ∃ t, exec i s = .next t ∧
      StoreEffect s t (s.pushAddr s.ptrWidth.bytes) s.ptrWidth.bytes (s.pc + i.length s.ptrWidth)
        (s.pushSp s.ptrWidth.bytes) target

/-- The four calls under `CALL_CONV = Ledger` with room (R41, R160, R170 to R173): the entry holds the call's base and
the address after it, as `PTR_WIDTH`-bit addresses (R40; the reduction is the model's reading, log 13). -/
def Obligations.CallsAppendToTheLedger : Prop :=
  ∀ (s : State) (i : Instr) (target : Nat), callTarget? s.ptrWidth s.pc i = some target → target % 16 = 0 →
    s.callConv = .ledger → s.ledgerCapacity ≠ some s.ledger.length →
    ∃ t, exec i s = .next t ∧
      LedgerEffect s t target (s.ledger ++
        [⟨s.pc % 2 ^ s.ptrWidth.bits, (s.pc + i.length s.ptrWidth) % 2 ^ s.ptrWidth.bits⟩])

/-- A call without room faults after its target is found aligned (R160, R170 to R173, R270): `StackOverflow` with
`sp` (for an `sp` of `2^64`, log 20), or `LedgerOverflow` with the call's base. -/
def Obligations.CallsWithoutRoomFault : Prop :=
  ∀ (s : State) (i : Instr) (target : Nat), callTarget? s.ptrWidth s.pc i = some target → target % 16 = 0 →
    (s.callConv = .stack → s.stackFree < s.ptrWidth.bytes →
      ∃ t, exec i s = .next t ∧ FaultTaken s t .stackOverflow s.sp) ∧
    (s.callConv = .ledger → s.ledgerCapacity = some s.ledger.length →
      ∃ t, exec i s = .next t ∧ FaultTaken s t .ledgerOverflow s.pc)

/-- `RET` (R161, R174): under Stack the top `PTR_BYTES` bytes become the cursor, whatever pushed them; under Ledger the
most recent entry's return address. -/
def Obligations.ReturnTakesTheMostRecentAddress : Prop :=
  (∀ s : State, s.callConv = .stack → StackInBounds s → s.ptrWidth.bytes ≤ s.stackSize →
    ∃ t v, exec .ret s = .next t ∧ v < 256 ^ s.ptrWidth.bytes ∧
      BytesHold s (s.popAddr s.ptrWidth.bytes) s.ptrWidth.bytes v ∧ ReturnEffect s t v (s.popSp s.ptrWidth.bytes)) ∧
  (∀ (s : State) (l : List LedgerEntry) (e : LedgerEntry), s.callConv = .ledger → s.ledger = l ++ [e] →
    ∃ t, exec .ret s = .next t ∧ LedgerEffect s t e.returnSite l)

/-- A return with no return address faults `EmptyCallStackFault` (R42, R161, R174, R267), told apart from a return to
address 0 (for an `sp` of `2^64`, log 20). -/
def Obligations.EmptyReturnFaults : Prop :=
  (∀ s : State, s.callConv = .stack → s.stackSize < s.ptrWidth.bytes →
    ∃ t, exec .ret s = .next t ∧ FaultTaken s t .emptyCallStack s.sp) ∧
  (∀ s : State, s.callConv = .ledger → s.ledger = [] →
    ∃ t, exec .ret s = .next t ∧ FaultTaken s t .emptyCallStack 0)

/-- R175: any number of nested calls followed by as many returns puts the cursor after the outermost call, under both
conventions and both directions, with `sp`, the ledger and the registers as before. -/
def Obligations.NestedCallsReturnToTheOutermostCallSite : Prop :=
  ∀ (s : State) (c : Instr) (cs : List Instr), s.Inv → s.pc + c.length s.ptrWidth < 2 ^ s.ptrWidth.bits →
    CallsNest (c :: cs) s →
    ∃ t u, execAll (c :: cs) s = .next t ∧ execAll (List.replicate (c :: cs).length .ret) t = .next u ∧
      u.pc = s.pc + c.length s.ptrWidth ∧ u.sp = s.sp ∧ u.ledger = s.ledger ∧ u.regs = s.regs

/-! ## Conditions -/

/-- R200: the condition table, for all operands. -/
def Obligations.ConditionTable : Prop :=
  ∀ a b : Int,
    (condEval .jz a b = true ↔ a = 0 ∧ b = 0) ∧ (condEval .jnz a b = true ↔ a ≠ 0 ∧ b ≠ 0) ∧
    (condEval .je a b = true ↔ a = b) ∧ (condEval .jne a b = true ↔ a ≠ b) ∧ (condEval .jl a b = true ↔ a < b) ∧
    (condEval .jle a b = true ↔ a ≤ b) ∧ (condEval .jg a b = true ↔ a > b) ∧ (condEval .jge a b = true ↔ a ≥ b)

/-- R202: with exactly one zero operand both `jz` and `jnz` are false. -/
def Obligations.ZeroTestsAreBinary : Prop :=
  ∀ a b : Int, (a = 0 ↔ b ≠ 0) → condEval .jz a b = false ∧ condEval .jnz a b = false

/-- R201: a typed operand is the low `DW(dt)` bytes, read in two's complement for the Int tags and unsigned for the UInt
tags and Pointer; the bytes of the slot above are ignored. -/
def Obligations.TypedOperandReading : Prop :=
  ∀ (s : State) (dt : DataType) (k : Slot),
    (dt ∈ [DataType.int8, .int16, .int32, .int64] → ∀ v : Nat, readTyped s.ptrWidth dt v =
      if v % 2 ^ dt.bits s.ptrWidth < 2 ^ (dt.bits s.ptrWidth - 1) then ((v % 2 ^ dt.bits s.ptrWidth : Nat) : Int)
      else ((v % 2 ^ dt.bits s.ptrWidth : Nat) : Int) - 2 ^ dt.bits s.ptrWidth) ∧
    (dt ∈ [DataType.uint8, .uint16, .uint32, .uint64, .pointer] → ∀ v : Nat, readTyped s.ptrWidth dt v =
      ((v % 2 ^ dt.bits s.ptrWidth : Nat) : Int)) ∧
    s.slotTyped dt k = readTyped s.ptrWidth dt s.regs[k].toNat ∧
    dt.bits s.ptrWidth = 8 * dt.bytes s.ptrWidth

/-- R203: `je`, `jne`, `jz` and `jnz` do not depend on the signedness of the tag; the orderings do. -/
def Obligations.SignednessOfComparisons : Prop :=
  (∀ (s : State) (a b : Slot) (cc : Cond) (d e : DataType), cc ∈ [Cond.je, .jne, .jz, .jnz] →
    (d, e) ∈ [(DataType.int8, DataType.uint8), (.int16, .uint16), (.int32, .uint32), (.int64, .uint64)] →
    condEval cc (s.slotTyped d a) (s.slotTyped d b) = condEval cc (s.slotTyped e a) (s.slotTyped e b)) ∧
  (∀ (s : State) (k : Slot), s.regs[k].toNat % 256 = 0xFF →
    condEval .jl (s.slotTyped .int8 k) 0 = true ∧ condEval .jl (s.slotTyped .uint8 k) 0 = false)

/-- `JCC_RR` and `JCC_RI` (R206 to R208): taken to an aligned target, or past all of its fields when not taken, even
with a misaligned target; nothing but the cursor changes. -/
def Obligations.ConditionalBranches : Prop :=
  (∀ (s : State) (cc : Cond) (dt : DataType) (sa sb : Slot) (tgt : Target), tgt.jumpType.validIn s.ptrWidth = true →
    (condEval cc (s.slotTyped dt sa) (s.slotTyped dt sb) = true → targetAddr s.ptrWidth s.pc tgt % 16 = 0 →
      ∃ t, exec (.jccRR cc dt sa sb tgt) s = .next t ∧ CursorEffect s t (targetAddr s.ptrWidth s.pc tgt)) ∧
    (condEval cc (s.slotTyped dt sa) (s.slotTyped dt sb) = false →
      ∃ t, exec (.jccRR cc dt sa sb tgt) s = .next t ∧ CursorEffect s t (s.pc + (6 + tgt.jumpType.bytes)))) ∧
  (∀ (s : State) (cc : Cond) (dt : DataType) (sa : Slot) (imm : Word) (tgt : Target),
    tgt.jumpType.validIn s.ptrWidth = true →
    (condEval cc (s.slotTyped dt sa) (readTyped s.ptrWidth dt imm.toNat) = true →
      targetAddr s.ptrWidth s.pc tgt % 16 = 0 →
      ∃ t, exec (.jccRI cc dt sa imm tgt) s = .next t ∧ CursorEffect s t (targetAddr s.ptrWidth s.pc tgt)) ∧
    (condEval cc (s.slotTyped dt sa) (readTyped s.ptrWidth dt imm.toNat) = false →
      ∃ t, exec (.jccRI cc dt sa imm tgt) s = .next t ∧
        CursorEffect s t (s.pc + (5 + dt.bytes s.ptrWidth + tgt.jumpType.bytes))))

/-- R113: `JCC_RM` and `JCC_MM` raise `UnsupportedFault` with `FAULT_INFO = op` on their opcode byte, whatever follows
it. -/
def Obligations.UnimplementedComparesFault : Prop :=
  (∀ s : State, (∃ t, exec .jccRM s = .next t ∧ FaultTaken s t .unsupported 0x62) ∧
    (∃ t, exec .jccMM s = .next t ∧ FaultTaken s t .unsupported 0x63)) ∧
  (∀ (s : State) (op : Nat), Fetching s → (s.mem.read s.pc).toNat = op → op = 0x62 ∨ op = 0x63 →
    ∃ t, step s = .next t ∧ FaultTaken s t .unsupported op)

/-! ## Reset and the host -/

/-- The launch preconditions are checked in order; the first that fails refuses the launch with its number, and the
core takes no step (R303). `CONFIG` shows the launch's parameters (R49; of an illegal `PTR_WIDTH` by log 9). `FAULT_PC`,
on which R261 and R303 differ, is any value, as U14 says: it is `u`'s, the model's choice, log 19. -/
def Obligations.LaunchChecksInOrder : Prop :=
  ∀ (p : Launch) (u : State),
    let representable := p.imageBase + p.image.length ≤ 2 ^ p.ptrWidth ∧ p.imageBase + p.entryOffset < 2 ^ p.ptrWidth ∧
      p.stackBase + p.stackCapacity ≤ 2 ^ p.ptrWidth
    let overlap := ∃ a, p.imageBase ≤ a ∧ a < p.imageBase + p.image.length ∧ p.stackBase ≤ a ∧
      a < p.stackBase + p.stackCapacity
    let inRange := (p.ptrWidth = 32 ∨ p.ptrWidth = 64) ∧ 1 ≤ p.stackCapacity ∧ ∀ k, p.ledgerCapacity = some k → 1 ≤ k
    (p.imageBase % 256 ≠ 0 → RefusedWith (State.launch p u) 1) ∧
    (p.imageBase % 256 = 0 → ¬ representable → RefusedWith (State.launch p u) 2) ∧
    (p.imageBase % 256 = 0 → representable → overlap → RefusedWith (State.launch p u) 3) ∧
    (p.imageBase % 256 = 0 → representable → ¬ overlap → ¬ inRange → RefusedWith (State.launch p u) 4) ∧
    (p.imageBase % 256 = 0 → representable → ¬ overlap → inRange → (State.launch p u).runState ≠ .refused) ∧
    ((State.launch p u).runState = .refused → (State.launch p u).faultPc = u.faultPc ∧
      ((State.launch p u).ptrWidth = .w64 ↔ p.ptrWidth = 64) ∧ (State.launch p u).stackDir = p.stackDir ∧
      (State.launch p u).callConv = p.callConv)

/-- R301: the value of every piece of state after a launch whose preconditions hold; the status and the fault record as
R302 says where the entry point is misaligned. -/
def Obligations.ResetValues : Prop :=
  ∀ (p : Launch) (u : State), p.Preconditions →
    let s := State.launch p u
    s.regs = p.regReset ∧ s.pc = p.imageBase + p.entryOffset ∧ s.start = p.imageBase ∧
    s.limit = p.imageBase + p.image.length ∧ s.entry = p.imageBase + p.entryOffset ∧
    (∀ k (h : k < p.image.length), s.mem.read (p.imageBase + k) = p.image[k]) ∧
    (∀ k (h : k < p.stackInit.length), k < p.stackCapacity → s.mem.read (p.stackBase + k) = p.stackInit[k]) ∧
    s.first = p.stackBase ∧ s.last = p.stackBase + p.stackCapacity ∧
    s.sp = (if p.stackDir = .forward then s.first else s.last) ∧ s.ledger = [] ∧
    s.ledgerCapacity = p.ledgerCapacity ∧ (s.ptrWidth = .w64 ↔ p.ptrWidth = 64) ∧ s.stackDir = p.stackDir ∧
    s.callConv = p.callConv ∧
    ((p.imageBase + p.entryOffset) % 16 = 0 →
      s.runState = .running ∧ s.faultCode = none ∧ s.faultPc = 0 ∧ s.faultInfo = 0)

/-- R302: a misaligned entry point leaves the core Faulted with `AlignmentFault` at once; the entry point is not
compared with the cursor bounds at reset but at the first step. -/
def Obligations.EntryChecks : Prop :=
  ∀ (p : Launch) (u : State), p.Preconditions →
    ((p.imageBase + p.entryOffset) % 16 ≠ 0 →
      (State.launch p u).runState = .faulted ∧ (State.launch p u).faultCode = some .alignment ∧
      (State.launch p u).faultPc = p.imageBase + p.entryOffset ∧
      (State.launch p u).faultInfo.toNat = (State.launch p u).faultPc ∧
      step (State.launch p u) = .next (State.launch p u)) ∧
    ((p.imageBase + p.entryOffset) % 16 ≠ 0 ↔ p.entryOffset % 16 ≠ 0) ∧
    ((p.imageBase + p.entryOffset) % 16 = 0 → p.entryOffset = p.image.length →
      ∃ t, step (State.launch p u) = .next t ∧ t.runState = .endOfStream) ∧
    ((p.imageBase + p.entryOffset) % 16 = 0 → p.image.length < p.entryOffset →
      ∃ t, step (State.launch p u) = .next t ∧
        FaultTaken (State.launch p u) t .cursorOverflow (p.imageBase + p.entryOffset))

/-- The layout of `STATUS` (R48) and the fault numbers of R261: the host reads the run state in bits 2:0, the fault code
in bits 15:8 and zeros elsewhere. -/
def Obligations.StatusWordLayout : Prop :=
  ∀ (s : State) (r : RunState) (n : Nat),
    (r, n) ∈ [(RunState.unbound, 0), (.running, 1), (.exited, 2), (.endOfStream, 3), (.faulted, 4), (.refused, 5)] →
    s.runState = r →
    (s.faultCode = none → s.statusWord.toNat = n) ∧
    (∀ (c : FaultCode) (m : Nat),
      (c, m) ∈ [(FaultCode.unknownOpcode, 0x01), (.unknownRegister, 0x02), (.unknownDataType, 0x03),
        (.unknownJumpType, 0x04), (.unknownCondition, 0x05), (.widthMismatch, 0x06), (.profileInvalid, 0x07),
        (.unsupported, 0x08), (.cursorOverflow, 0x10), (.cursorUnderflow, 0x11), (.stackOverflow, 0x12),
        (.stackUnderflow, 0x13), (.alignment, 0x20), (.emptyCallStack, 0x30), (.ledgerOverflow, 0x31),
        (.launchRefused, 0x40)] →
      s.faultCode = some c → s.statusWord.toNat = n + 256 * m)

/-- R49: the three bits of `CONFIG`; the others read as zero. -/
def Obligations.ConfigWordLayout : Prop :=
  ∀ s : State, s.configWord.toNat =
    (if s.ptrWidth = .w64 then 1 else 0) + (if s.stackDir = .backward then 2 else 0) +
      (if s.callConv = .ledger then 4 else 0)

/-- R31: the cursor predicates, overlapping at `pc = LIMIT`, and the step's use of them: the end of the stream is a
normal termination and only `pc > LIMIT` or `pc < START` faults. -/
def Obligations.CursorPredicates : Prop :=
  ∀ s : State, (s.cursorIsEnd = true ↔ s.pc = s.limit) ∧ (s.cursorIsOverflow = true ↔ s.limit ≤ s.pc) ∧
    (s.cursorIsUnderflow = true ↔ s.pc < s.start) ∧ (s.cursorIsEnd = true → s.cursorIsOverflow = true) ∧
    (s.runState = .running → s.cursorIsEnd = true →
      ∃ t, step s = .next t ∧ t.runState = .endOfStream ∧ t.faultCode = s.faultCode) ∧
    (s.runState = .running → s.cursorIsEnd = false → s.cursorIsUnderflow = true →
      ∃ t, step s = .next t ∧ FaultTaken s t .cursorUnderflow s.pc) ∧
    (s.runState = .running → s.cursorIsEnd = false → s.cursorIsUnderflow = false → s.cursorIsOverflow = true →
      ∃ t, step s = .next t ∧ FaultTaken s t .cursorOverflow s.pc) ∧
    (s.cursorIsUnderflow = false → s.cursorIsOverflow = false → s.runState = .running → Fetching s)

/-- The host register map (R51): each number and width, and the value the host reads. An address equal to
`2^PTR_WIDTH` and a ledger deeper than 32 bits count are outside the map (log 1, log 14) and assumed away. -/
def Obligations.HostRegistersReadTheState : Prop :=
  ∀ (s : State) (r : HostReg) (no width value : Nat), s.Inv → s.limit < 2 ^ s.ptrWidth.bits →
    s.last < 2 ^ s.ptrWidth.bits → s.ledger.length < 2 ^ 32 →
    (r, no, width, value) ∈ [(HostReg.status, 0, 32, s.statusWord.toNat), (.faultPc, 1, s.ptrWidth.bits, s.faultPc),
      (.faultInfo, 2, 64, s.faultInfo.toNat), (.pc, 3, s.ptrWidth.bits, s.pc), (.start, 4, s.ptrWidth.bits, s.start),
      (.limit, 5, s.ptrWidth.bits, s.limit), (.entry, 6, s.ptrWidth.bits, s.entry), (.sp, 7, s.ptrWidth.bits, s.sp),
      (.stackFirst, 8, s.ptrWidth.bits, s.first), (.stackLast, 9, s.ptrWidth.bits, s.last),
      (.ledgerDepth, 10, 32, s.ledger.length), (.retDescTag, 11, 3, s.retDesc.tag.toNat),
      (.retDescLength, 12, 32, s.retDesc.length.toNat), (.retDescValue, 13, 64, s.retDesc.value.toNat),
      (.config, 14, 32, s.configWord.toNat)] →
    r.number = no ∧ r.width s.ptrWidth = width ∧ s.readHost r = value ∧ value < 2 ^ width

/-- The host's image writes: allowed only while the core is not Running (R80, R311), and such a write changes exactly the
bytes it names. That a write may be of any number of bytes at any address, not only of a data type's width at the current
position, and that it is refused where its bytes are not all inside `[START, LIMIT)`, is the model's choice, log 18, as
is the write's form, a function beside `step`, log 15. -/
def Obligations.HostWritesOnlyTheImage : Prop :=
  ∀ (s : State) (a n v : Nat),
    (s.hostStoreImage a n v = none ↔ s.runState = .running ∨ a < s.start ∨ s.limit < a + n) ∧
    (∀ t, s.hostStoreImage a n v = some t → StoreEffect s t a n v s.sp s.pc ∧ (s.Inv → t.Inv))
end

