-- ==== Sys2Proof/Laws/Decode.lean ====
section
/-! SUPPORT. What each field decoder can do, and that tags and their numbers determine each other. -/

namespace Sys2Proof

open Sys2Proof.Machine

@[simp] theorem Decoded.andThen_ok {α β : Type} (a : α) (c : Cursor) (f : α → Cursor → Decoded β) :
    (Decoded.ok a c).andThen f = f a c := rfl

@[simp] theorem Decoded.andThen_error {α β : Type} (e : DecodeError) (f : α → Cursor → Decoded β) :
    (Decoded.error e).andThen f = .error e := rfl

/-- A sequence of fields decodes exactly when each of them does. -/
theorem Decoded.andThen_eq_ok {α β : Type} {r : Decoded α} {f : α → Cursor → Decoded β} {b : β} {c' : Cursor} :
    r.andThen f = .ok b c' ↔ ∃ a c, r = .ok a c ∧ f a c = .ok b c' := by
  cases r with
  | ok a c =>
    constructor
    · exact fun h => ⟨a, c, rfl, h⟩
    · rintro ⟨_, _, h, h'⟩
      cases h
      exact h'
  | error e =>
    constructor
    · intro h
      cases h
    · rintro ⟨_, _, h, _⟩
      cases h

/-- A field whose bytes are all there gives its value and moves past them. -/
theorem fetch_leBytes (n v o : Nat) (rest : List Byte) :
    fetch n ⟨o, leBytes n v ++ rest⟩ = .ok (v % 256 ^ n) ⟨o + n, rest⟩ := by
  have h : ¬ (leBytes n v ++ rest).length < n := by simp
  simp only [fetch, h, if_false]
  rw [List.take_left' (leBytes_length n v), List.drop_left' (leBytes_length n v), leNat_leBytes]

/-- Everything a successful `Fetch` can be. -/
theorem fetch_eq_ok {n v : Nat} {c c' : Cursor} :
    fetch n c = .ok v c' ↔
      n ≤ c.rest.length ∧ v = leNat (c.rest.take n) ∧ c' = ⟨c.off + n, c.rest.drop n⟩ := by
  unfold fetch
  split
  · constructor
    · intro h
      cases h
    · rintro ⟨h, _⟩
      omega
  · constructor
    · intro h
      cases h
      exact ⟨by omega, rfl, rfl⟩
    · rintro ⟨_, rfl, rfl⟩
      rfl

/-- A field that runs past `LIMIT` faults at its first byte. -/
theorem fetch_short {n : Nat} {c : Cursor} (h : c.rest.length < n) : fetch n c = .error (.overrun c.off) := by
  simp [fetch, h]

/-- Everything a successful tag field can be. -/
theorem fetchTag_eq_ok {α : Type} {ofCode? : Nat → Option α} {unknown : Nat → DecodeError} {c c' : Cursor} {a : α} :
    fetchTag ofCode? unknown c = .ok a c' ↔ ∃ b, fetch 1 c = .ok b c' ∧ ofCode? b = some a := by
  unfold fetchTag
  rw [Decoded.andThen_eq_ok]
  constructor
  · rintro ⟨b, d, hb, h⟩
    split at h
    · rename_i x hx
      cases h
      exact ⟨b, hb, hx⟩
    · cases h
  · rintro ⟨b, hb, h⟩
    exact ⟨b, c', hb, by simp [h]⟩

/-! ## `NUM_SLOTS` as a number, for arithmetic -/

theorem Slot.val_lt (s : Slot) : s.val < 32 := s.isLt

theorem RegId.code_eq (r : RegId) : r.code = r.cls.code * 32 + r.slot.val := rfl

theorem RegId.ofCode?_eq (id : Nat) :
    RegId.ofCode? id = (RegClass.ofCode? (id / 32)).map (fun c => ⟨c, ⟨id % 32, Nat.mod_lt _ (by decide)⟩⟩) := by
  unfold RegId.ofCode?
  cases RegClass.ofCode? (id / 32) <;> rfl

/-! ## Tags and their numbers -/

theorem RegClass.ofCode?_code (c : RegClass) : RegClass.ofCode? c.code = some c := by
  cases c <;> rfl

theorem RegClass.code_of_ofCode? {n : Nat} {c : RegClass} (h : RegClass.ofCode? n = some c) : c.code = n := by
  unfold RegClass.ofCode? at h
  split at h <;> cases h <;> rfl

theorem DataType.ofCode?_code (d : DataType) : DataType.ofCode? d.code = some d := by
  cases d <;> rfl

theorem DataType.code_of_ofCode? {n : Nat} {d : DataType} (h : DataType.ofCode? n = some d) : d.code = n := by
  unfold DataType.ofCode? at h
  split at h <;> cases h <;> rfl

theorem Cond.ofCode?_code (d : Cond) : Cond.ofCode? d.code = some d := by
  cases d <;> rfl

theorem Cond.code_of_ofCode? {n : Nat} {d : Cond} (h : Cond.ofCode? n = some d) : d.code = n := by
  unfold Cond.ofCode? at h
  split at h <;> cases h <;> rfl

theorem JumpType.ofCode?_code (d : JumpType) : JumpType.ofCode? d.code = some d := by
  cases d <;> rfl

theorem JumpType.code_of_ofCode? {n : Nat} {d : JumpType} (h : JumpType.ofCode? n = some d) : d.code = n := by
  unfold JumpType.ofCode? at h
  split at h <;> cases h <;> rfl

theorem Slot.ofCode?_val (s : Slot) : Slot.ofCode? s.val = some s := by
  simp [Slot.ofCode?, s.isLt]

theorem Slot.val_of_ofCode? {n : Nat} {s : Slot} (h : Slot.ofCode? n = some s) : s.val = n := by
  unfold Slot.ofCode? at h
  split at h <;> cases h
  rfl

theorem RegClass.code_lt (c : RegClass) : c.code < 5 := by
  cases c <;> decide

theorem RegId.code_lt (r : RegId) : r.code < 160 := by
  have h1 := r.cls.code_lt
  have h2 := r.slot.val_lt
  rw [RegId.code_eq]
  omega

theorem RegId.ofCode?_code (r : RegId) : RegId.ofCode? r.code = some r := by
  have h := r.slot.val_lt
  have h1 : r.code / 32 = r.cls.code := by rw [RegId.code_eq]; omega
  have h2 : r.code % 32 = r.slot.val := by rw [RegId.code_eq]; omega
  rw [RegId.ofCode?_eq, h1, RegClass.ofCode?_code]
  simp [h2]

theorem RegId.code_of_ofCode? {n : Nat} {r : RegId} (h : RegId.ofCode? n = some r) : r.code = n := by
  rw [RegId.ofCode?_eq, Option.map_eq_some_iff] at h
  obtain ⟨c, hc, rfl⟩ := h
  have := RegClass.code_of_ofCode? hc
  simp only [RegId.code_eq]
  omega

theorem Target.ofField_field (t : Target) : Target.ofField t.jumpType t.field = t := by
  cases t <;> simp [Target.jumpType, Target.field, Target.ofField]

theorem Target.jumpType_ofField (jt : JumpType) (v : Nat) : (Target.ofField jt v).jumpType = jt := by
  cases jt <;> rfl

theorem Target.field_ofField (jt : JumpType) (v : Nat) (h : v < 256 ^ jt.bytes) : (Target.ofField jt v).field = v := by
  cases jt <;> simp only [JumpType.bytes] at h <;>
    simp only [Target.ofField, Target.field, BitVec.toNat_ofNat] <;> omega

theorem Target.field_lt (t : Target) : t.field < 256 ^ t.jumpType.bytes := by
  cases t <;> simp only [Target.field, Target.jumpType, JumpType.bytes] <;> exact BitVec.isLt _

/-! ## Each field, from its bytes and back to its bytes -/

theorem fetchTag_leBytes {α : Type} (ofCode? : Nat → Option α) (unknown : Nat → DecodeError) {b : Nat} {a : α} (o : Nat)
    (rest : List Byte) (hb : b < 256) (h : ofCode? b = some a) :
    fetchTag ofCode? unknown ⟨o, leBytes 1 b ++ rest⟩ = .ok a ⟨o + 1, rest⟩ := by
  unfold fetchTag
  rw [fetch_leBytes]
  simp [Nat.mod_eq_of_lt hb, h]

theorem fetchReg_leBytes (r : RegId) (o : Nat) (rest : List Byte) :
    fetchReg ⟨o, leBytes 1 r.code ++ rest⟩ = .ok r ⟨o + 1, rest⟩ :=
  fetchTag_leBytes _ _ _ _ (Nat.lt_trans r.code_lt (by decide)) r.ofCode?_code

theorem fetchSlot_leBytes (s : Slot) (o : Nat) (rest : List Byte) :
    fetchSlot ⟨o, leBytes 1 s.val ++ rest⟩ = .ok s ⟨o + 1, rest⟩ :=
  fetchTag_leBytes _ _ _ _ (Nat.lt_trans s.isLt (by decide)) (Slot.ofCode?_val s)

theorem fetchDataType_leBytes (d : DataType) (o : Nat) (rest : List Byte) :
    fetchDataType ⟨o, leBytes 1 d.code ++ rest⟩ = .ok d ⟨o + 1, rest⟩ :=
  fetchTag_leBytes _ _ _ _ (by cases d <;> decide) d.ofCode?_code

theorem fetchCond_leBytes (c : Cond) (o : Nat) (rest : List Byte) :
    fetchCond ⟨o, leBytes 1 c.code ++ rest⟩ = .ok c ⟨o + 1, rest⟩ :=
  fetchTag_leBytes _ _ _ _ (by cases c <;> decide) c.ofCode?_code

theorem fetchJumpType_leBytes {w : PtrWidth} {j : JumpType} (o : Nat) (rest : List Byte) (h : j.validIn w = true) :
    fetchJumpType w ⟨o, leBytes 1 j.code ++ rest⟩ = .ok j ⟨o + 1, rest⟩ := by
  unfold fetchJumpType
  rw [fetchTag_leBytes _ _ _ _ (by cases j <;> decide) j.ofCode?_code]
  simp [h]

theorem fetchImm_leBytes {n : Nat} {imm : Word} (o : Nat) (rest : List Byte) (h : immFits n imm = true) :
    fetchImm n ⟨o, leBytes n imm.toNat ++ rest⟩ = .ok imm ⟨o + n, rest⟩ := by
  unfold fetchImm
  rw [fetch_leBytes]
  simp only [immFits, Nat.pow_mul, decide_eq_true_eq] at h
  simp [Nat.mod_eq_of_lt (show imm.toNat < 256 ^ n from h)]

theorem fetchTarget_leBytes (t : Target) (o : Nat) (rest : List Byte) :
    fetchTarget t.jumpType ⟨o, leBytes t.jumpType.bytes t.field ++ rest⟩ = .ok t ⟨o + t.jumpType.bytes, rest⟩ := by
  unfold fetchTarget
  rw [fetch_leBytes, Nat.mod_eq_of_lt t.field_lt]
  simp [t.ofField_field]

theorem pow_256_div_8 {bits : Nat} (hb : bits = 8 * (bits / 8)) : 256 ^ (bits / 8) = 2 ^ bits := by
  rw [show 256 = 2 ^ 8 from rfl, ← Nat.pow_mul, ← hb]

theorem decodeFJ_leBytes {bits : Nat} (mk : BitVec bits → Instr) (v : BitVec bits) (hb : bits = 8 * (bits / 8)) (o : Nat)
    (rest : List Byte) :
    decodeFJ bits mk ⟨o, leBytes (bits / 8) v.toNat ++ rest⟩ = .ok (mk v) ⟨o + bits / 8, rest⟩ := by
  unfold decodeFJ
  rw [fetch_leBytes, pow_256_div_8 hb]
  simp

theorem fetch_bytes {n v : Nat} {c c' : Cursor} (h : fetch n c = .ok v c') :
    v < 256 ^ n ∧ c.rest = leBytes n v ++ c'.rest ∧ c'.off = c.off + n := by
  obtain ⟨h1, rfl, rfl⟩ := fetch_eq_ok.1 h
  have hl : (c.rest.take n).length = n := by simp; omega
  refine ⟨by simpa only [hl] using leNat_lt (c.rest.take n), ?_, rfl⟩
  have hb := leBytes_leNat (c.rest.take n)
  rw [hl] at hb
  rw [hb]
  simp

theorem fetchTag_bytes {α : Type} {ofCode? : Nat → Option α} {unknown : Nat → DecodeError} {a : α} {c c' : Cursor}
    (h : fetchTag ofCode? unknown c = .ok a c') :
    ∃ b, ofCode? b = some a ∧ c.rest = leBytes 1 b ++ c'.rest ∧ c'.off = c.off + 1 := by
  obtain ⟨b, hb, hf⟩ := fetchTag_eq_ok.1 h
  exact ⟨b, hf, (fetch_bytes hb).2⟩

theorem fetchReg_bytes {r : RegId} {c c' : Cursor} (h : fetchReg c = .ok r c') :
    c.rest = leBytes 1 r.code ++ c'.rest ∧ c'.off = c.off + 1 := by
  obtain ⟨b, hb, h⟩ := fetchTag_bytes h
  rw [RegId.code_of_ofCode? hb]
  exact h

theorem fetchSlot_bytes {s : Slot} {c c' : Cursor} (h : fetchSlot c = .ok s c') :
    c.rest = leBytes 1 s.val ++ c'.rest ∧ c'.off = c.off + 1 := by
  obtain ⟨b, hb, h⟩ := fetchTag_bytes h
  rw [Slot.val_of_ofCode? hb]
  exact h

theorem fetchDataType_bytes {d : DataType} {c c' : Cursor} (h : fetchDataType c = .ok d c') :
    c.rest = leBytes 1 d.code ++ c'.rest ∧ c'.off = c.off + 1 := by
  obtain ⟨b, hb, h⟩ := fetchTag_bytes h
  rw [DataType.code_of_ofCode? hb]
  exact h

theorem fetchCond_bytes {d : Cond} {c c' : Cursor} (h : fetchCond c = .ok d c') :
    c.rest = leBytes 1 d.code ++ c'.rest ∧ c'.off = c.off + 1 := by
  obtain ⟨b, hb, h⟩ := fetchTag_bytes h
  rw [Cond.code_of_ofCode? hb]
  exact h

theorem fetchJumpType_bytes {w : PtrWidth} {j : JumpType} {c c' : Cursor} (h : fetchJumpType w c = .ok j c') :
    j.validIn w = true ∧ c.rest = leBytes 1 j.code ++ c'.rest ∧ c'.off = c.off + 1 := by
  unfold fetchJumpType at h
  obtain ⟨_, _, ht, h⟩ := Decoded.andThen_eq_ok.1 h
  obtain ⟨b, hb, hr⟩ := fetchTag_bytes ht
  split at h <;> cases h
  rw [JumpType.code_of_ofCode? hb]
  exact ⟨‹_›, hr⟩

theorem fetchImm_bytes {n : Nat} {imm : Word} {c c' : Cursor} (hn : n ≤ 8) (h : fetchImm n c = .ok imm c') :
    immFits n imm = true ∧ c.rest = leBytes n imm.toNat ++ c'.rest ∧ c'.off = c.off + n := by
  unfold fetchImm at h
  obtain ⟨v, _, hv, h⟩ := Decoded.andThen_eq_ok.1 h
  cases h
  obtain ⟨hlt, hr⟩ := fetch_bytes hv
  have h8 : 256 ^ n ≤ 256 ^ 8 := Nat.pow_le_pow_right (by decide) hn
  have he : (BitVec.ofNat 64 v).toNat = v := by simp; omega
  rw [he]
  refine ⟨?_, hr⟩
  simp only [immFits, he, Nat.pow_mul, decide_eq_true_eq]
  exact hlt

theorem fetchTarget_bytes {j : JumpType} {t : Target} {c c' : Cursor} (h : fetchTarget j c = .ok t c') :
    t.jumpType = j ∧ c.rest = leBytes j.bytes t.field ++ c'.rest ∧ c'.off = c.off + j.bytes := by
  unfold fetchTarget at h
  obtain ⟨v, _, hv, h⟩ := Decoded.andThen_eq_ok.1 h
  cases h
  obtain ⟨hlt, hr⟩ := fetch_bytes hv
  refine ⟨Target.jumpType_ofField _ _, ?_⟩
  rw [Target.field_ofField _ _ hlt]
  exact hr

theorem decodeFJ_bytes {bits : Nat} {mk : BitVec bits → Instr} (hb : bits = 8 * (bits / 8)) {i : Instr} {c c' : Cursor}
    (h : decodeFJ bits mk c = .ok i c') :
    ∃ v, i = mk v ∧ c.rest = leBytes (bits / 8) v.toNat ++ c'.rest ∧ c'.off = c.off + bits / 8 := by
  unfold decodeFJ at h
  obtain ⟨v, _, hv, h⟩ := Decoded.andThen_eq_ok.1 h
  cases h
  obtain ⟨hlt, hr⟩ := fetch_bytes hv
  rw [pow_256_div_8 hb] at hlt
  refine ⟨_, rfl, ?_⟩
  rw [BitVec.toNat_ofNat, Nat.mod_eq_of_lt hlt]
  exact hr

end Sys2Proof
end

