-- ==== Sys2Proof/Laws/Memory.lean ====
section
/-! SUPPORT. The laws of memory: read after write, frames, and the canonical form. -/

namespace Sys2Proof.Machine

@[simp] theorem Memory.read_nil (a : Nat) : Memory.read [] a = Memory.unlisted := rfl

theorem Memory.read_write (m : Memory) (a b : Nat) (v : Byte) :
    (m.write a v).read b = if b = a then v else m.read b := by
  induction m with
  | nil =>
    by_cases h : v = Memory.unlisted <;> by_cases hb : b = a <;> simp [Memory.write, Memory.read, h, hb]
    simp [Ne.symm hb]
  | cons c m ih =>
    obtain ⟨k, x⟩ := c
    simp only [Memory.write]
    split
    · subst_vars
      split
      · rw [ih]
        by_cases hb : b = k
        · simp [hb]
        · simp [hb, Memory.read, Ne.symm hb]
      · by_cases hb : b = k
        · simp [hb, Memory.read]
        · simp [hb, Memory.read, Ne.symm hb]
    · split
      · by_cases hb : b = a
        · simp [hb, Memory.read]
        · simp [hb, Memory.read, Ne.symm hb]
      · simp only [Memory.read, ih]
        split
        · rename_i h1 _ h2
          have : ¬ b = a := fun h => h1 (h ▸ h2.symm)
          simp [this]
        · rfl

@[simp] theorem Memory.readBytes_length (m : Memory) (a : Nat) (n : Nat) : (m.readBytes a n).length = n := by
  induction n generalizing a with
  | zero => rfl
  | succ n ih => simp [Memory.readBytes, ih]

theorem Memory.readBytes_getElem (m : Memory) (a : Nat) (n k : Nat) (h : k < (m.readBytes a n).length) :
    (m.readBytes a n)[k] = m.read (a + k) := by
  induction n generalizing a k with
  | zero => simp at h
  | succ n ih =>
    cases k with
    | zero => rfl
    | succ k =>
      simp only [Memory.readBytes, List.getElem_cons_succ]
      rw [ih]
      congr 1
      omega

theorem Memory.readBytes_congr (m m' : Memory) (a : Nat) (n : Nat)
    (h : ∀ k, k < n → m.read (a + k) = m'.read (a + k)) : m.readBytes a n = m'.readBytes a n := by
  apply List.ext_getElem
  · simp
  · intro k h1 h2
    rw [Memory.readBytes_getElem, Memory.readBytes_getElem]
    exact h k (by simpa using h1)

theorem Memory.readBytes_take (m : Memory) (a : Nat) (n k : Nat) :
    (m.readBytes a n).take k = m.readBytes a (min k n) := by
  apply List.ext_getElem
  · simp
  · intro j h1 h2
    rw [List.getElem_take, Memory.readBytes_getElem, Memory.readBytes_getElem]

theorem Memory.readBytes_add (m : Memory) (a : Nat) (n k : Nat) :
    m.readBytes a (n + k) = m.readBytes a n ++ m.readBytes (a + n) k := by
  induction n generalizing a with
  | zero => simp [Memory.readBytes]
  | succ n ih =>
    rw [show n + 1 + k = (n + k) + 1 by omega]
    simp only [Memory.readBytes, List.cons_append]
    rw [ih, show a + 1 + n = a + (n + 1) by omega]

/-- A byte outside the written range reads as before. -/
theorem Memory.read_writeBytes_outside (m : Memory) (a b : Nat) (bs : List Byte)
    (h : b < a ∨ a + bs.length ≤ b) : (m.writeBytes a bs).read b = m.read b := by
  induction bs generalizing m a with
  | nil => rfl
  | cons x bs ih =>
    simp only [List.length_cons] at h
    simp only [Memory.writeBytes]
    rw [ih _ _ (by omega), Memory.read_write]
    have : ¬ b = a := by omega
    simp [this]

/-- A byte inside the written range reads as written. -/
theorem Memory.read_writeBytes_inside (m : Memory) (a : Nat) (bs : List Byte) (k : Nat) (h : k < bs.length) :
    (m.writeBytes a bs).read (a + k) = bs[k] := by
  induction bs generalizing m a k with
  | nil => simp at h
  | cons x bs ih =>
    simp only [Memory.writeBytes]
    cases k with
    | zero =>
      rw [Memory.read_writeBytes_outside _ _ _ _ (by omega), Memory.read_write]
      simp
    | succ k =>
      rw [show a + (k + 1) = a + 1 + k by omega, ih _ _ k (by simpa using h)]
      rfl

/-- Bytes written are the bytes read back. -/
theorem Memory.readBytes_writeBytes (m : Memory) (a : Nat) (bs : List Byte) :
    (m.writeBytes a bs).readBytes a bs.length = bs := by
  apply List.ext_getElem
  · simp
  · intro k h1 h2
    rw [Memory.readBytes_getElem, Memory.read_writeBytes_inside _ _ _ _ h2]

theorem Memory.wfFrom_mono {lo lo' : Nat} {m : Memory} (hle : lo' ≤ lo) (h : Memory.wfFrom lo m = true) :
    Memory.wfFrom lo' m = true := by
  cases m with
  | nil => rfl
  | cons c m =>
    obtain ⟨k, b⟩ := c
    simp only [Memory.wfFrom, Bool.and_eq_true, decide_eq_true_eq] at h ⊢
    exact ⟨⟨by omega, h.1.2⟩, h.2⟩

/-- Removing an address keeps the form whatever lies below. -/
theorem Memory.wfFrom_write_unlisted {lo : Nat} {m : Memory} {a : Nat} {v : Byte} (hv : v = Memory.unlisted)
    (h : Memory.wfFrom lo m = true) : Memory.wfFrom lo (m.write a v) = true := by
  induction m generalizing lo with
  | nil => simp [Memory.write, Memory.wfFrom, hv]
  | cons c m ih =>
    obtain ⟨k, b⟩ := c
    simp only [Memory.wfFrom, Bool.and_eq_true, decide_eq_true_eq] at h
    simp only [Memory.write, hv]
    split
    · simpa [hv] using ih (lo := lo) (Memory.wfFrom_mono (by omega) h.2)
    · simp only [ne_eq, not_true_eq_false, and_false, if_false, Memory.wfFrom, Bool.and_eq_true, decide_eq_true_eq]
      exact ⟨h.1, by simpa [hv] using ih h.2⟩

theorem Memory.wfFrom_write {lo : Nat} {m : Memory} (a : Nat) (v : Byte) (hlo : lo ≤ a)
    (h : Memory.wfFrom lo m = true) : Memory.wfFrom lo (m.write a v) = true := by
  induction m generalizing lo with
  | nil => by_cases hv : v = Memory.unlisted <;> simp [Memory.write, Memory.wfFrom, hv, hlo]
  | cons c m ih =>
    obtain ⟨k, b⟩ := c
    simp only [Memory.wfFrom, Bool.and_eq_true, decide_eq_true_eq] at h
    obtain ⟨⟨hk, hb⟩, hm⟩ := h
    simp only [Memory.write]
    split
    · subst_vars
      split
      · exact ih hk (Memory.wfFrom_mono (by omega) hm)
      · simp_all [Memory.wfFrom]
    · split
      · rename_i hlt
        simp only [Memory.wfFrom, Bool.and_eq_true, decide_eq_true_eq]
        exact ⟨⟨hlo, hlt.2⟩, ⟨by omega, hb⟩, hm⟩
      · rename_i hne hnot
        simp only [Memory.wfFrom, Bool.and_eq_true, decide_eq_true_eq]
        refine ⟨⟨hk, hb⟩, ?_⟩
        by_cases hlt : a < k
        · have hv : v = Memory.unlisted := by
            by_cases hv : v = Memory.unlisted
            · exact hv
            · exact absurd ⟨hlt, hv⟩ hnot
          exact Memory.wfFrom_write_unlisted hv hm
        · exact ih (by omega) hm

theorem Memory.wf_write {m : Memory} (a : Nat) (v : Byte) (h : m.wf = true) : (m.write a v).wf = true :=
  Memory.wfFrom_write a v (Nat.zero_le a) h

theorem Memory.wf_writeBytes {m : Memory} (a : Nat) (bs : List Byte) (h : m.wf = true) :
    (m.writeBytes a bs).wf = true := by
  induction bs generalizing m a with
  | nil => exact h
  | cons x bs ih => exact ih _ (Memory.wf_write a x h)

@[simp] theorem Memory.wf_nil : Memory.wf [] = true := rfl

/-- Below its cells a memory reads as unlisted. -/
theorem Memory.read_below {lo : Nat} {m : Memory} (h : Memory.wfFrom lo m = true) {a : Nat} (ha : a < lo) :
    m.read a = Memory.unlisted := by
  induction m generalizing lo with
  | nil => rfl
  | cons c m ih =>
    obtain ⟨k, b⟩ := c
    simp only [Memory.wfFrom, Bool.and_eq_true, decide_eq_true_eq] at h
    have : ¬ k = a := by omega
    simp only [Memory.read, this, if_false]
    exact ih h.2 (by omega)

/-- Canonical memories that read the same are the same data. -/
theorem Memory.ext_of_read {lo : Nat} {m m' : Memory} (h : Memory.wfFrom lo m = true)
    (h' : Memory.wfFrom lo m' = true) (hr : ∀ a, m.read a = m'.read a) : m = m' := by
  induction m generalizing lo m' with
  | nil =>
    cases m' with
    | nil => rfl
    | cons c m' =>
      obtain ⟨k, b⟩ := c
      simp only [Memory.wfFrom, Bool.and_eq_true, decide_eq_true_eq] at h'
      exact absurd (by simpa [Memory.read] using (hr k).symm) h'.1.2
  | cons c m ih =>
    obtain ⟨k, b⟩ := c
    simp only [Memory.wfFrom, Bool.and_eq_true, decide_eq_true_eq] at h
    cases m' with
    | nil => exact absurd (by simpa [Memory.read] using hr k) h.1.2
    | cons c' m' =>
      obtain ⟨k', b'⟩ := c'
      simp only [Memory.wfFrom, Bool.and_eq_true, decide_eq_true_eq] at h'
      have hkk : k = k' := by
        rcases Nat.lt_trichotomy k k' with hlt | heq | hgt
        · have := hr k
          rw [Memory.read_below (lo := k') (m := (k', b') :: m') (by simp [Memory.wfFrom, h'.1.2, h'.2]) hlt] at this
          exact absurd (by simpa [Memory.read] using this) h.1.2
        · exact heq
        · have := hr k'
          rw [Memory.read_below (lo := k) (m := (k, b) :: m) (by simp [Memory.wfFrom, h.1.2, h.2]) hgt] at this
          exact absurd (by simpa [Memory.read] using this.symm) h'.1.2
      subst hkk
      have hbb : b = b' := by simpa [Memory.read] using hr k
      subst hbb
      refine congrArg _ (ih h.2 h'.2 fun a => ?_)
      by_cases ha : k = a
      · subst ha
        rw [Memory.read_below h.2 (by omega), Memory.read_below h'.2 (by omega)]
      · simpa [Memory.read, ha] using hr a

end Sys2Proof.Machine
end

