-- ==== Sys2Proof/Laws/State.lean ====
section
/-! SUPPORT. One lemma per field per state update, so that no later proof unfolds a record update. -/

namespace Sys2Proof.Machine

variable (s : State)

@[simp] theorem State.advance_eq (n : Nat) : s.advance n = s.withPc (s.pc + n) := rfl
@[simp] theorem State.endOfStream_eq : s.endOfStream = s.halt .endOfStream := rfl

@[simp] theorem State.regWrite_regs (r : RegId) (v : Nat) : (s.regWrite r v).regs = s.regs.set r.slot (writeField r.cls s.regs[r.slot] v) := rfl
@[simp] theorem State.regWrite_pc (r : RegId) (v : Nat) : (s.regWrite r v).pc = s.pc := rfl
@[simp] theorem State.regWrite_start (r : RegId) (v : Nat) : (s.regWrite r v).start = s.start := rfl
@[simp] theorem State.regWrite_limit (r : RegId) (v : Nat) : (s.regWrite r v).limit = s.limit := rfl
@[simp] theorem State.regWrite_entry (r : RegId) (v : Nat) : (s.regWrite r v).entry = s.entry := rfl
@[simp] theorem State.regWrite_sp (r : RegId) (v : Nat) : (s.regWrite r v).sp = s.sp := rfl
@[simp] theorem State.regWrite_first (r : RegId) (v : Nat) : (s.regWrite r v).first = s.first := rfl
@[simp] theorem State.regWrite_last (r : RegId) (v : Nat) : (s.regWrite r v).last = s.last := rfl
@[simp] theorem State.regWrite_mem (r : RegId) (v : Nat) : (s.regWrite r v).mem = s.mem := rfl
@[simp] theorem State.regWrite_ledger (r : RegId) (v : Nat) : (s.regWrite r v).ledger = s.ledger := rfl
@[simp] theorem State.regWrite_ledgerCapacity (r : RegId) (v : Nat) : (s.regWrite r v).ledgerCapacity = s.ledgerCapacity := rfl
@[simp] theorem State.regWrite_retDesc (r : RegId) (v : Nat) : (s.regWrite r v).retDesc = s.retDesc := rfl
@[simp] theorem State.regWrite_runState (r : RegId) (v : Nat) : (s.regWrite r v).runState = s.runState := rfl
@[simp] theorem State.regWrite_faultCode (r : RegId) (v : Nat) : (s.regWrite r v).faultCode = s.faultCode := rfl
@[simp] theorem State.regWrite_faultPc (r : RegId) (v : Nat) : (s.regWrite r v).faultPc = s.faultPc := rfl
@[simp] theorem State.regWrite_faultInfo (r : RegId) (v : Nat) : (s.regWrite r v).faultInfo = s.faultInfo := rfl
@[simp] theorem State.regWrite_ptrWidth (r : RegId) (v : Nat) : (s.regWrite r v).ptrWidth = s.ptrWidth := rfl
@[simp] theorem State.regWrite_stackDir (r : RegId) (v : Nat) : (s.regWrite r v).stackDir = s.stackDir := rfl
@[simp] theorem State.regWrite_callConv (r : RegId) (v : Nat) : (s.regWrite r v).callConv = s.callConv := rfl

@[simp] theorem State.raiseFault_regs (c : FaultCode) (n : Nat) : (s.raiseFault c n).regs = s.regs := rfl
@[simp] theorem State.raiseFault_pc (c : FaultCode) (n : Nat) : (s.raiseFault c n).pc = s.pc := rfl
@[simp] theorem State.raiseFault_start (c : FaultCode) (n : Nat) : (s.raiseFault c n).start = s.start := rfl
@[simp] theorem State.raiseFault_limit (c : FaultCode) (n : Nat) : (s.raiseFault c n).limit = s.limit := rfl
@[simp] theorem State.raiseFault_entry (c : FaultCode) (n : Nat) : (s.raiseFault c n).entry = s.entry := rfl
@[simp] theorem State.raiseFault_sp (c : FaultCode) (n : Nat) : (s.raiseFault c n).sp = s.sp := rfl
@[simp] theorem State.raiseFault_first (c : FaultCode) (n : Nat) : (s.raiseFault c n).first = s.first := rfl
@[simp] theorem State.raiseFault_last (c : FaultCode) (n : Nat) : (s.raiseFault c n).last = s.last := rfl
@[simp] theorem State.raiseFault_mem (c : FaultCode) (n : Nat) : (s.raiseFault c n).mem = s.mem := rfl
@[simp] theorem State.raiseFault_ledger (c : FaultCode) (n : Nat) : (s.raiseFault c n).ledger = s.ledger := rfl
@[simp] theorem State.raiseFault_ledgerCapacity (c : FaultCode) (n : Nat) : (s.raiseFault c n).ledgerCapacity = s.ledgerCapacity := rfl
@[simp] theorem State.raiseFault_retDesc (c : FaultCode) (n : Nat) : (s.raiseFault c n).retDesc = s.retDesc := rfl
@[simp] theorem State.raiseFault_runState (c : FaultCode) (n : Nat) : (s.raiseFault c n).runState = .faulted := rfl
@[simp] theorem State.raiseFault_faultCode (c : FaultCode) (n : Nat) : (s.raiseFault c n).faultCode = some c := rfl
@[simp] theorem State.raiseFault_faultPc (c : FaultCode) (n : Nat) : (s.raiseFault c n).faultPc = s.pc := rfl
@[simp] theorem State.raiseFault_faultInfo (c : FaultCode) (n : Nat) : (s.raiseFault c n).faultInfo = BitVec.ofNat 64 n := rfl
@[simp] theorem State.raiseFault_ptrWidth (c : FaultCode) (n : Nat) : (s.raiseFault c n).ptrWidth = s.ptrWidth := rfl
@[simp] theorem State.raiseFault_stackDir (c : FaultCode) (n : Nat) : (s.raiseFault c n).stackDir = s.stackDir := rfl
@[simp] theorem State.raiseFault_callConv (c : FaultCode) (n : Nat) : (s.raiseFault c n).callConv = s.callConv := rfl

@[simp] theorem State.withPc_regs (p : Nat) : (s.withPc p).regs = s.regs := rfl
@[simp] theorem State.withPc_pc (p : Nat) : (s.withPc p).pc = p := rfl
@[simp] theorem State.withPc_start (p : Nat) : (s.withPc p).start = s.start := rfl
@[simp] theorem State.withPc_limit (p : Nat) : (s.withPc p).limit = s.limit := rfl
@[simp] theorem State.withPc_entry (p : Nat) : (s.withPc p).entry = s.entry := rfl
@[simp] theorem State.withPc_sp (p : Nat) : (s.withPc p).sp = s.sp := rfl
@[simp] theorem State.withPc_first (p : Nat) : (s.withPc p).first = s.first := rfl
@[simp] theorem State.withPc_last (p : Nat) : (s.withPc p).last = s.last := rfl
@[simp] theorem State.withPc_mem (p : Nat) : (s.withPc p).mem = s.mem := rfl
@[simp] theorem State.withPc_ledger (p : Nat) : (s.withPc p).ledger = s.ledger := rfl
@[simp] theorem State.withPc_ledgerCapacity (p : Nat) : (s.withPc p).ledgerCapacity = s.ledgerCapacity := rfl
@[simp] theorem State.withPc_retDesc (p : Nat) : (s.withPc p).retDesc = s.retDesc := rfl
@[simp] theorem State.withPc_runState (p : Nat) : (s.withPc p).runState = s.runState := rfl
@[simp] theorem State.withPc_faultCode (p : Nat) : (s.withPc p).faultCode = s.faultCode := rfl
@[simp] theorem State.withPc_faultPc (p : Nat) : (s.withPc p).faultPc = s.faultPc := rfl
@[simp] theorem State.withPc_faultInfo (p : Nat) : (s.withPc p).faultInfo = s.faultInfo := rfl
@[simp] theorem State.withPc_ptrWidth (p : Nat) : (s.withPc p).ptrWidth = s.ptrWidth := rfl
@[simp] theorem State.withPc_stackDir (p : Nat) : (s.withPc p).stackDir = s.stackDir := rfl
@[simp] theorem State.withPc_callConv (p : Nat) : (s.withPc p).callConv = s.callConv := rfl

@[simp] theorem State.halt_regs (r : RunState) : (s.halt r).regs = s.regs := rfl
@[simp] theorem State.halt_pc (r : RunState) : (s.halt r).pc = s.pc := rfl
@[simp] theorem State.halt_start (r : RunState) : (s.halt r).start = s.start := rfl
@[simp] theorem State.halt_limit (r : RunState) : (s.halt r).limit = s.limit := rfl
@[simp] theorem State.halt_entry (r : RunState) : (s.halt r).entry = s.entry := rfl
@[simp] theorem State.halt_sp (r : RunState) : (s.halt r).sp = s.sp := rfl
@[simp] theorem State.halt_first (r : RunState) : (s.halt r).first = s.first := rfl
@[simp] theorem State.halt_last (r : RunState) : (s.halt r).last = s.last := rfl
@[simp] theorem State.halt_mem (r : RunState) : (s.halt r).mem = s.mem := rfl
@[simp] theorem State.halt_ledger (r : RunState) : (s.halt r).ledger = s.ledger := rfl
@[simp] theorem State.halt_ledgerCapacity (r : RunState) : (s.halt r).ledgerCapacity = s.ledgerCapacity := rfl
@[simp] theorem State.halt_retDesc (r : RunState) : (s.halt r).retDesc = s.retDesc := rfl
@[simp] theorem State.halt_runState (r : RunState) : (s.halt r).runState = r := rfl
@[simp] theorem State.halt_faultCode (r : RunState) : (s.halt r).faultCode = s.faultCode := rfl
@[simp] theorem State.halt_faultPc (r : RunState) : (s.halt r).faultPc = s.faultPc := rfl
@[simp] theorem State.halt_faultInfo (r : RunState) : (s.halt r).faultInfo = s.faultInfo := rfl
@[simp] theorem State.halt_ptrWidth (r : RunState) : (s.halt r).ptrWidth = s.ptrWidth := rfl
@[simp] theorem State.halt_stackDir (r : RunState) : (s.halt r).stackDir = s.stackDir := rfl
@[simp] theorem State.halt_callConv (r : RunState) : (s.halt r).callConv = s.callConv := rfl

@[simp] theorem State.withRetDesc_regs (d : RetDesc) : (s.withRetDesc d).regs = s.regs := rfl
@[simp] theorem State.withRetDesc_pc (d : RetDesc) : (s.withRetDesc d).pc = s.pc := rfl
@[simp] theorem State.withRetDesc_start (d : RetDesc) : (s.withRetDesc d).start = s.start := rfl
@[simp] theorem State.withRetDesc_limit (d : RetDesc) : (s.withRetDesc d).limit = s.limit := rfl
@[simp] theorem State.withRetDesc_entry (d : RetDesc) : (s.withRetDesc d).entry = s.entry := rfl
@[simp] theorem State.withRetDesc_sp (d : RetDesc) : (s.withRetDesc d).sp = s.sp := rfl
@[simp] theorem State.withRetDesc_first (d : RetDesc) : (s.withRetDesc d).first = s.first := rfl
@[simp] theorem State.withRetDesc_last (d : RetDesc) : (s.withRetDesc d).last = s.last := rfl
@[simp] theorem State.withRetDesc_mem (d : RetDesc) : (s.withRetDesc d).mem = s.mem := rfl
@[simp] theorem State.withRetDesc_ledger (d : RetDesc) : (s.withRetDesc d).ledger = s.ledger := rfl
@[simp] theorem State.withRetDesc_ledgerCapacity (d : RetDesc) : (s.withRetDesc d).ledgerCapacity = s.ledgerCapacity := rfl
@[simp] theorem State.withRetDesc_retDesc (d : RetDesc) : (s.withRetDesc d).retDesc = d := rfl
@[simp] theorem State.withRetDesc_runState (d : RetDesc) : (s.withRetDesc d).runState = s.runState := rfl
@[simp] theorem State.withRetDesc_faultCode (d : RetDesc) : (s.withRetDesc d).faultCode = s.faultCode := rfl
@[simp] theorem State.withRetDesc_faultPc (d : RetDesc) : (s.withRetDesc d).faultPc = s.faultPc := rfl
@[simp] theorem State.withRetDesc_faultInfo (d : RetDesc) : (s.withRetDesc d).faultInfo = s.faultInfo := rfl
@[simp] theorem State.withRetDesc_ptrWidth (d : RetDesc) : (s.withRetDesc d).ptrWidth = s.ptrWidth := rfl
@[simp] theorem State.withRetDesc_stackDir (d : RetDesc) : (s.withRetDesc d).stackDir = s.stackDir := rfl
@[simp] theorem State.withRetDesc_callConv (d : RetDesc) : (s.withRetDesc d).callConv = s.callConv := rfl

@[simp] theorem State.withStack_regs (m : Memory) (p : Nat) : (s.withStack m p).regs = s.regs := rfl
@[simp] theorem State.withStack_pc (m : Memory) (p : Nat) : (s.withStack m p).pc = s.pc := rfl
@[simp] theorem State.withStack_start (m : Memory) (p : Nat) : (s.withStack m p).start = s.start := rfl
@[simp] theorem State.withStack_limit (m : Memory) (p : Nat) : (s.withStack m p).limit = s.limit := rfl
@[simp] theorem State.withStack_entry (m : Memory) (p : Nat) : (s.withStack m p).entry = s.entry := rfl
@[simp] theorem State.withStack_sp (m : Memory) (p : Nat) : (s.withStack m p).sp = p := rfl
@[simp] theorem State.withStack_first (m : Memory) (p : Nat) : (s.withStack m p).first = s.first := rfl
@[simp] theorem State.withStack_last (m : Memory) (p : Nat) : (s.withStack m p).last = s.last := rfl
@[simp] theorem State.withStack_mem (m : Memory) (p : Nat) : (s.withStack m p).mem = m := rfl
@[simp] theorem State.withStack_ledger (m : Memory) (p : Nat) : (s.withStack m p).ledger = s.ledger := rfl
@[simp] theorem State.withStack_ledgerCapacity (m : Memory) (p : Nat) : (s.withStack m p).ledgerCapacity = s.ledgerCapacity := rfl
@[simp] theorem State.withStack_retDesc (m : Memory) (p : Nat) : (s.withStack m p).retDesc = s.retDesc := rfl
@[simp] theorem State.withStack_runState (m : Memory) (p : Nat) : (s.withStack m p).runState = s.runState := rfl
@[simp] theorem State.withStack_faultCode (m : Memory) (p : Nat) : (s.withStack m p).faultCode = s.faultCode := rfl
@[simp] theorem State.withStack_faultPc (m : Memory) (p : Nat) : (s.withStack m p).faultPc = s.faultPc := rfl
@[simp] theorem State.withStack_faultInfo (m : Memory) (p : Nat) : (s.withStack m p).faultInfo = s.faultInfo := rfl
@[simp] theorem State.withStack_ptrWidth (m : Memory) (p : Nat) : (s.withStack m p).ptrWidth = s.ptrWidth := rfl
@[simp] theorem State.withStack_stackDir (m : Memory) (p : Nat) : (s.withStack m p).stackDir = s.stackDir := rfl
@[simp] theorem State.withStack_callConv (m : Memory) (p : Nat) : (s.withStack m p).callConv = s.callConv := rfl

@[simp] theorem State.withLedger_regs (l : List LedgerEntry) : (s.withLedger l).regs = s.regs := rfl
@[simp] theorem State.withLedger_pc (l : List LedgerEntry) : (s.withLedger l).pc = s.pc := rfl
@[simp] theorem State.withLedger_start (l : List LedgerEntry) : (s.withLedger l).start = s.start := rfl
@[simp] theorem State.withLedger_limit (l : List LedgerEntry) : (s.withLedger l).limit = s.limit := rfl
@[simp] theorem State.withLedger_entry (l : List LedgerEntry) : (s.withLedger l).entry = s.entry := rfl
@[simp] theorem State.withLedger_sp (l : List LedgerEntry) : (s.withLedger l).sp = s.sp := rfl
@[simp] theorem State.withLedger_first (l : List LedgerEntry) : (s.withLedger l).first = s.first := rfl
@[simp] theorem State.withLedger_last (l : List LedgerEntry) : (s.withLedger l).last = s.last := rfl
@[simp] theorem State.withLedger_mem (l : List LedgerEntry) : (s.withLedger l).mem = s.mem := rfl
@[simp] theorem State.withLedger_ledger (l : List LedgerEntry) : (s.withLedger l).ledger = l := rfl
@[simp] theorem State.withLedger_ledgerCapacity (l : List LedgerEntry) : (s.withLedger l).ledgerCapacity = s.ledgerCapacity := rfl
@[simp] theorem State.withLedger_retDesc (l : List LedgerEntry) : (s.withLedger l).retDesc = s.retDesc := rfl
@[simp] theorem State.withLedger_runState (l : List LedgerEntry) : (s.withLedger l).runState = s.runState := rfl
@[simp] theorem State.withLedger_faultCode (l : List LedgerEntry) : (s.withLedger l).faultCode = s.faultCode := rfl
@[simp] theorem State.withLedger_faultPc (l : List LedgerEntry) : (s.withLedger l).faultPc = s.faultPc := rfl
@[simp] theorem State.withLedger_faultInfo (l : List LedgerEntry) : (s.withLedger l).faultInfo = s.faultInfo := rfl
@[simp] theorem State.withLedger_ptrWidth (l : List LedgerEntry) : (s.withLedger l).ptrWidth = s.ptrWidth := rfl
@[simp] theorem State.withLedger_stackDir (l : List LedgerEntry) : (s.withLedger l).stackDir = s.stackDir := rfl
@[simp] theorem State.withLedger_callConv (l : List LedgerEntry) : (s.withLedger l).callConv = s.callConv := rfl

end Sys2Proof.Machine
end

