-- ==== Sys2Proof/Laws/Ops.lean ====
section
/-! SUPPORT. One lemma per shared operation that says everything it can do; proofs cite it instead of unfolding it. -/

namespace Sys2Proof.Machine

/-! ## Settling an instruction -/

@[simp] theorem OpResult.settle_ok {α : Type} (a : α) (t base : State) (k : α → State → State) :
    (OpResult.ok a t).settle base k = .next (k a t) := rfl

@[simp] theorem OpResult.settle_trap {α : Type} (c : FaultCode) (n : Nat) (base : State) (k : α → State → State) :
    (OpResult.trap c n : OpResult α).settle base k = .next (base.raiseFault c n) := rfl

@[simp] theorem OpResult.settle_stop {α : Type} (f : Fault) (base : State) (k : α → State → State) :
    (OpResult.stop f : OpResult α).settle base k = .fault f := rfl

/-- An instruction that settles in a next state either commits its operation or takes its fault. -/
theorem OpResult.settle_eq_next {α : Type} {r : OpResult α} {base t : State} {k : α → State → State}
    (h : r.settle base k = .next t) :
    (∃ a u, r = .ok a u ∧ t = k a u) ∨ ∃ c n, r = .trap c n ∧ t = base.raiseFault c n := by
  cases r with
  | ok a u => exact .inl ⟨a, u, rfl, by cases h; rfl⟩
  | trap c n => exact .inr ⟨c, n, rfl, by cases h; rfl⟩
  | stop f => cases h

/-! ## The stack controller -/

theorem State.inStack_iff {s : State} {a n : Nat} : s.inStack a n = true ↔ s.first ≤ a ∧ a + n ≤ s.last := by
  simp [State.inStack]

/-- Size and free space add up to the capacity while `sp` is in bounds (R36). -/
theorem State.size_add_free {s : State} (h1 : s.first ≤ s.sp) (h2 : s.sp ≤ s.last) :
    s.stackSize + s.stackFree = s.stackCapacity := by
  unfold State.stackFree State.stackSize State.stackCapacity
  split <;> omega

/-- Where a push stores, in bounds. -/
theorem State.pushAddr_inStack {s : State} {n : Nat} (h1 : s.first ≤ s.sp) (h2 : s.sp ≤ s.last) (hn : n ≤ s.stackFree) :
    s.inStack (s.pushAddr n) n = true ∧ s.first ≤ s.pushSp n ∧ s.pushSp n ≤ s.last := by
  rw [State.inStack_iff]
  unfold State.stackFree State.stackSize State.stackCapacity at hn
  unfold State.pushAddr State.pushSp
  cases hd : s.stackDir <;> simp only [hd] at hn ⊢ <;> omega

/-- Where a pop reads, in bounds. -/
theorem State.popAddr_inStack {s : State} {n : Nat} (h1 : s.first ≤ s.sp) (h2 : s.sp ≤ s.last) (hn : n ≤ s.stackSize) :
    s.inStack (s.popAddr n) n = true ∧ s.first ≤ s.popSp n ∧ s.popSp n ≤ s.last := by
  rw [State.inStack_iff]
  unfold State.stackSize at hn
  unfold State.popAddr State.popSp
  cases hd : s.stackDir <;> simp only [hd] at hn ⊢ <;> omega

/-- Everything `Push` can do (R71). -/
theorem push_cases (s : State) (n v : Nat) :
    (s.stackFree < n ∧ push s n v = .trap .stackOverflow s.sp) ∨
    (n ≤ s.stackFree ∧ s.inStack (s.pushAddr n) n = true ∧
      push s n v = .ok () (s.withStack (s.mem.writeBytes (s.pushAddr n) (leBytes n v)) (s.pushSp n))) ∨
    (n ≤ s.stackFree ∧ s.inStack (s.pushAddr n) n = false ∧ push s n v = .stop (.stackAccess (s.pushAddr n) n)) := by
  unfold push memWrite
  by_cases h : s.stackFree < n
  · exact .inl ⟨h, by simp [h]⟩
  · cases hs : s.inStack (s.pushAddr n) n
    · exact .inr (.inr ⟨by omega, rfl, by simp [h]⟩)
    · exact .inr (.inl ⟨by omega, rfl, by simp [h]⟩)

/-- Everything `Pop` can do (R72). -/
theorem pop_cases (s : State) (n : Nat) :
    (s.stackSize < n ∧ pop s n = .trap .stackUnderflow s.sp) ∨
    (n ≤ s.stackSize ∧ s.inStack (s.popAddr n) n = true ∧
      pop s n = .ok (leNat (s.mem.readBytes (s.popAddr n) n)) (s.withStack s.mem (s.popSp n))) ∨
    (n ≤ s.stackSize ∧ s.inStack (s.popAddr n) n = false ∧ pop s n = .stop (.stackAccess (s.popAddr n) n)) := by
  unfold pop memRead
  by_cases h : s.stackSize < n
  · exact .inl ⟨h, by simp [h]⟩
  · cases hs : s.inStack (s.popAddr n) n
    · exact .inr (.inr ⟨by omega, rfl, by simp [h]⟩)
    · exact .inr (.inl ⟨by omega, rfl, by simp [h]⟩)

/-- `Push` with room, `sp` in bounds. -/
theorem push_ok {s : State} {n : Nat} (v : Nat) (h1 : s.first ≤ s.sp) (h2 : s.sp ≤ s.last) (hn : n ≤ s.stackFree) :
    push s n v = .ok () (s.withStack (s.mem.writeBytes (s.pushAddr n) (leBytes n v)) (s.pushSp n)) := by
  rcases push_cases s n v with ⟨h, _⟩ | ⟨_, _, h⟩ | ⟨_, h, _⟩
  · omega
  · exact h
  · rw [(State.pushAddr_inStack h1 h2 hn).1] at h
    cases h

/-- `Pop` with enough bytes, `sp` in bounds. -/
theorem pop_ok {s : State} {n : Nat} (h1 : s.first ≤ s.sp) (h2 : s.sp ≤ s.last) (hn : n ≤ s.stackSize) :
    pop s n = .ok (leNat (s.mem.readBytes (s.popAddr n) n)) (s.withStack s.mem (s.popSp n)) := by
  rcases pop_cases s n with ⟨h, _⟩ | ⟨_, _, h⟩ | ⟨_, h, _⟩
  · omega
  · exact h
  · rw [(State.popAddr_inStack h1 h2 hn).1] at h
    cases h

/-! ## The ledger and return addresses -/

/-- Everything `LedgerPush` can do (R41). -/
theorem ledgerPush_cases (s : State) (callSite returnSite : Nat) :
    (s.ledgerCapacity = some s.ledger.length ∧ ledgerPush s callSite returnSite = .trap .ledgerOverflow callSite) ∨
    (s.ledgerCapacity ≠ some s.ledger.length ∧
      ledgerPush s callSite returnSite = .ok () (s.withLedger
        (s.ledger ++ [⟨callSite % 2 ^ s.ptrWidth.bits, returnSite % 2 ^ s.ptrWidth.bits⟩]))) := by
  unfold ledgerPush
  by_cases h : s.ledgerCapacity = some s.ledger.length
  · exact .inl ⟨h, by simp [h]⟩
  · exact .inr ⟨h, by simp [h, truncTo_natCast]⟩

/-- Everything `LedgerPop` can do (R42). -/
theorem ledgerPop_cases (s : State) :
    (s.ledger = [] ∧ ledgerPop s = .trap .emptyCallStack 0) ∨
    ∃ l e, s.ledger = l ++ [e] ∧ ledgerPop s = .ok e.returnSite (s.withLedger l) := by
  unfold ledgerPop
  rcases List.eq_nil_or_concat s.ledger with h | ⟨l, e, h⟩
  · exact .inl ⟨h, by simp [h]⟩
  · exact .inr ⟨l, e, by simpa using h, by simp [h]⟩

theorem pushReturn_stack {s : State} (h : s.callConv = .stack) (callSite ret : Nat) :
    pushReturn s callSite ret = push s s.ptrWidth.bytes ret := by
  simp [pushReturn, h]

theorem pushReturn_ledger {s : State} (h : s.callConv = .ledger) (callSite ret : Nat) :
    pushReturn s callSite ret = ledgerPush s callSite ret := by
  simp [pushReturn, h]

theorem popReturn_stack {s : State} (h : s.callConv = .stack) :
    popReturn s = if s.stackSize < s.ptrWidth.bytes then .trap .emptyCallStack s.sp else pop s s.ptrWidth.bytes := by
  simp [popReturn, h]

theorem popReturn_ledger {s : State} (h : s.callConv = .ledger) : popReturn s = ledgerPop s := by
  simp [popReturn, h]

/-! ## Transfers -/

@[simp] theorem targetAligned_iff {t : Nat} : targetAligned t = true ↔ t % 16 = 0 := by
  simp [targetAligned]

theorem jumpTo_aligned {s : State} {t : Nat} (h : t % 16 = 0) : jumpTo s t = .next (s.withPc t) := by
  simp [jumpTo, h]

theorem jumpTo_misaligned {s : State} {t : Nat} (h : t % 16 ≠ 0) : jumpTo s t = .next (s.raiseFault .alignment t) := by
  simp [jumpTo, h]

theorem callTo_aligned {s : State} {t : Nat} (n : Nat) (h : t % 16 = 0) :
    callTo s t n = (pushReturn s s.pc (s.pc + n)).settle s (fun _ u => u.withPc t) := by
  simp [callTo, h]

theorem callTo_misaligned {s : State} {t : Nat} (n : Nat) (h : t % 16 ≠ 0) :
    callTo s t n = .next (s.raiseFault .alignment t) := by
  simp [callTo, h]

/-! ## Fields of a slot -/

/-- A class names the bits from its lowest up, as a quotient and a remainder. -/
theorem readField_eq (c : RegClass) (x : Word) :
    readField c x = x.toNat / (match c with | .r8high => 256 | _ => 1) % 2 ^ c.bits := by
  have hx := x.isLt
  cases c
  case r8high =>
    simp only [readField, RegClass.bits, RegClass.bytes, BitVec.extractLsb'_toNat]
    omega
  all_goals simp only [readField, RegClass.bits, RegClass.bytes, BitVec.extractLsb'_toNat, Nat.shiftRight_eq_div_pow]
  case r64 => omega

theorem readField_lt (c : RegClass) (x : Word) : readField c x < 2 ^ c.bits := by
  rw [readField_eq]
  exact Nat.mod_lt _ (Nat.two_pow_pos _)

theorem regRead_lt (s : State) (r : RegId) : s.regRead r < 2 ^ r.cls.bits :=
  readField_lt _ _

/-- A register write reads back on the slots it does not name as before. -/
theorem regWrite_get_other (s : State) (r : RegId) (v : Nat) (k : Slot) (h : k ≠ r.slot) :
    (s.regWrite r v).regs[k] = s.regs[k] := by
  have : r.slot.val ≠ k.val := fun e => h (Fin.ext e.symm)
  simp [State.regWrite, Vector.getElem_set_ne, this]

/-- A register write puts the written field into the slot it names. -/
theorem regWrite_get_self (s : State) (r : RegId) (v : Nat) :
    (s.regWrite r v).regs[r.slot] = writeField r.cls s.regs[r.slot] v := by
  simp [State.regWrite]

end Sys2Proof.Machine
end

