-- ==== Sys2Proof/Laws/Exec.lean ====
section
/-! SUPPORT. Everything an instruction can do when it answers a next state, said once. -/

namespace Sys2Proof.Machine

/-- The next states an instruction can answer from `s`, each with the tests that led to it. -/
inductive Effect (s : State) : Instr → State → Prop
  /-- A fault of the core. -/
  | fault (i c n) : Effect s i (s.raiseFault c n)
  /-- A register instruction. -/
  | write (i r v) (hi : i ≠ .exit) (hw : mayWriteRegs i = true) :
      Effect s i ((s.regWrite r v).advance (i.length s.ptrWidth))
  /-- Only the cursor moves: to an address, or past the instruction. -/
  | move (i p) (hi : i ≠ .exit) (hp : p < 2 ^ s.ptrWidth.bits ∨ p = s.pc + i.length s.ptrWidth) :
      Effect s i (s.withPc p)
  | exit : Effect s .exit (((s.withRetDesc (exitDesc s)).advance 1).halt .exited)
  /-- A push. -/
  | push (i n v) (hi : i ≠ .exit) (ho : isStackOp i = true) (hn : n ≤ s.stackFree)
      (hs : s.inStack (s.pushAddr n) n = true) :
      Effect s i ((s.withStack (s.mem.writeBytes (s.pushAddr n) (leBytes n v)) (s.pushSp n)).advance
        (i.length s.ptrWidth))
  /-- A pop into a register. -/
  | pop (r v n) (hn : n ≤ s.stackSize) (hs : s.inStack (s.popAddr n) n = true) :
      Effect s (.popR r) (((s.withStack s.mem (s.popSp n)).regWrite r v).advance 2)
  /-- A call under `CALL_CONV = Stack`. -/
  | callStack (i v p) (hi : i ≠ .exit) (ho : isCallOrRet i = true) (hc : s.callConv = .stack)
      (hp : p < 2 ^ s.ptrWidth.bits) (hn : s.ptrWidth.bytes ≤ s.stackFree)
      (hs : s.inStack (s.pushAddr s.ptrWidth.bytes) s.ptrWidth.bytes = true) :
      Effect s i ((s.withStack (s.mem.writeBytes (s.pushAddr s.ptrWidth.bytes) (leBytes s.ptrWidth.bytes v))
        (s.pushSp s.ptrWidth.bytes)).withPc p)
  /-- A call under `CALL_CONV = Ledger`. -/
  | callLedger (i v p) (hi : i ≠ .exit) (ho : isCallOrRet i = true) (hc : s.callConv = .ledger)
      (hp : p < 2 ^ s.ptrWidth.bits) (hl : s.ledgerCapacity ≠ some s.ledger.length) :
      Effect s i ((s.withLedger
        (s.ledger ++ [⟨s.pc % 2 ^ s.ptrWidth.bits, v % 2 ^ s.ptrWidth.bits⟩])).withPc p)
  /-- A return under `CALL_CONV = Stack`. -/
  | retStack (v) (hc : s.callConv = .stack) (hp : v < 2 ^ s.ptrWidth.bits) (hn : s.ptrWidth.bytes ≤ s.stackSize)
      (hs : s.inStack (s.popAddr s.ptrWidth.bytes) s.ptrWidth.bytes = true) :
      Effect s .ret ((s.withStack s.mem (s.popSp s.ptrWidth.bytes)).withPc v)
  /-- A return under `CALL_CONV = Ledger`. -/
  | retLedger (l e) (hc : s.callConv = .ledger) (hl : s.ledger = l ++ [e]) :
      Effect s .ret ((s.withLedger l).withPc e.returnSite)

theorem relTarget_lt (w : PtrWidth) (base : Nat) (offset : Int) : relTarget w base offset < 2 ^ w.bits :=
  truncTo_lt _ _

theorem toNat_lt_of_32 (w : PtrWidth) (a : BitVec 32) : a.toNat < 2 ^ w.bits :=
  Nat.lt_of_lt_of_le a.isLt (by cases w <;> decide)

theorem effect_of_jumpTo {i : Instr} {s t : State} {p : Nat} (h : jumpTo s p = .next t) (hi : i ≠ .exit)
    (hp : p < 2 ^ s.ptrWidth.bits) : Effect s i t := by
  by_cases ha : p % 16 = 0
  · rw [jumpTo_aligned ha] at h
    cases h
    exact .move _ _ hi (.inl hp)
  · rw [jumpTo_misaligned ha] at h
    cases h
    exact .fault _ _ _

theorem effect_of_callTo {i : Instr} {s t : State} {p n : Nat} (h : callTo s p n = .next t) (hi : i ≠ .exit)
    (ho : isCallOrRet i = true) (hp : p < 2 ^ s.ptrWidth.bits) : Effect s i t := by
  by_cases ha : p % 16 = 0
  · rw [callTo_aligned _ ha] at h
    cases hc : s.callConv with
    | stack =>
      rw [pushReturn_stack hc] at h
      rcases push_cases s s.ptrWidth.bytes (s.pc + n) with ⟨_, e⟩ | ⟨hn, hs, e⟩ | ⟨_, _, e⟩ <;> rw [e] at h <;> cases h
      · exact .fault _ _ _
      · exact .callStack _ _ _ hi ho hc hp hn hs
    | ledger =>
      rw [pushReturn_ledger hc] at h
      rcases ledgerPush_cases s s.pc (s.pc + n) with ⟨_, e⟩ | ⟨hl, e⟩ <;> rw [e] at h <;> cases h
      · exact .fault _ _ _
      · exact .callLedger _ _ _ hi ho hc hp hl
  · rw [callTo_misaligned _ ha] at h
    cases h
    exact .fault _ _ _

theorem effect_of_write {i : Instr} {s t : State} {r : RegId} {v n : Nat} (h : writeAndAdvance s r v n = .next t)
    (hi : i ≠ .exit) (hw : mayWriteRegs i = true) (hn : n = i.length s.ptrWidth) : Effect s i t := by
  cases h
  subst hn
  exact .write _ _ _ hi hw

theorem effect_of_binaryRR {i : Instr} {s t : State} {op : Int → Int → Int} {rd rs : RegId}
    (h : binaryRR op rd rs s = .next t) (hi : i ≠ .exit) (hw : mayWriteRegs i = true)
    (hn : 3 = i.length s.ptrWidth) : Effect s i t := by
  unfold binaryRR at h
  split at h
  · exact effect_of_write h hi hw hn
  · cases h
    exact .fault _ _ _

theorem effect_of_branch {i : Instr} {s t : State} {c : Bool} {tgt : Target} {n : Nat}
    (h : branch c tgt n s = .next t) (hi : i ≠ .exit) (hn : n = i.length s.ptrWidth) : Effect s i t := by
  unfold branch at h
  split at h
  · rename_i hv
    split at h
    · refine effect_of_jumpTo h hi ?_
      cases tgt with
      | near _ => exact relTarget_lt _ _ _
      | short _ => exact relTarget_lt _ _ _
      | long _ => exact relTarget_lt _ _ _
      | ptr32 a => exact toNat_lt_of_32 _ a
      | ptr64 a =>
        cases hw : s.ptrWidth with
        | w32 =>
          rw [hw] at hv
          cases hv
        | w64 => exact a.isLt
    · cases h
      subst hn
      exact .move _ _ hi (.inr rfl)
  · cases h
    exact .fault _ _ _

theorem effect_of_push {i : Instr} {s t : State} {n v : Nat}
    (h : (push s n v).settle s (fun _ u => u.advance (i.length s.ptrWidth)) = .next t) (hi : i ≠ .exit)
    (ho : isStackOp i = true) : Effect s i t := by
  rcases push_cases s n v with ⟨_, e⟩ | ⟨hn, hs, e⟩ | ⟨_, _, e⟩ <;> rw [e] at h <;> cases h
  · exact .fault _ _ _
  · exact .push _ _ _ hi ho hn hs

theorem effect_of_popR {s t : State} {r : RegId} (h : execPopR r s = .next t) : Effect s (.popR r) t := by
  unfold execPopR at h
  rcases pop_cases s r.cls.bytes with ⟨_, e⟩ | ⟨hn, hs, e⟩ | ⟨_, _, e⟩ <;> rw [e] at h <;> cases h
  · exact .fault _ _ _
  · exact .pop _ _ _ hn hs

theorem effect_of_ret {s t : State} (h : execRet s = .next t) : Effect s .ret t := by
  unfold execRet at h
  cases hc : s.callConv with
  | stack =>
    rw [popReturn_stack hc] at h
    split at h
    · cases h
      exact .fault _ _ _
    · rename_i hlt
      rcases pop_cases s s.ptrWidth.bytes with ⟨h', _⟩ | ⟨hn, hs, e⟩ | ⟨_, _, e⟩
      · exact absurd h' hlt
      · rw [e] at h
        cases h
        refine .retStack _ hc ?_ hn hs
        have hv := leNat_lt (s.mem.readBytes (s.popAddr s.ptrWidth.bytes) s.ptrWidth.bytes)
        rw [Memory.readBytes_length] at hv
        cases hw : s.ptrWidth <;> rw [hw] at hv <;> exact hv
      · rw [e] at h
        cases h
  | ledger =>
    rw [popReturn_ledger hc] at h
    rcases ledgerPop_cases s with ⟨_, e⟩ | ⟨l, e, hl, he⟩
    · rw [e] at h
      cases h
      exact .fault _ _ _
    · rw [he] at h
      cases h
      exact .retLedger _ _ hc hl

/-- An absolute 64-bit form: refused under `PTR_WIDTH = 32`, and its address is one under 64. -/
theorem effect_of_ptr64 {i : Instr} {s t : State} {n : Nat} {k : Result}
    (h : (match s.ptrWidth with
      | .w32 => Host.Outcome.next (s.raiseFault .profileInvalid n)
      | .w64 => k) = .next t) (hk : s.ptrWidth = .w64 → k = .next t → Effect s i t) : Effect s i t := by
  cases hw : s.ptrWidth with
  | w32 =>
    simp only [hw] at h
    cases h
    exact .fault _ _ _
  | w64 =>
    simp only [hw] at h
    exact hk hw h

/-- Everything an instruction can do when it answers a next state. -/
theorem exec_effect (i : Instr) (s t : State) (h : exec i s = .next t) : Effect s i t := by
  cases i with
  | nop =>
    cases h
    exact .move _ _ nofun (.inr rfl)
  | exit =>
    cases h
    exact .exit
  | movRR _ _ => exact effect_of_write h nofun rfl rfl
  | movRI _ _ => exact effect_of_write h nofun rfl rfl
  | inc _ => exact effect_of_write h nofun rfl rfl
  | dec _ => exact effect_of_write h nofun rfl rfl
  | addRR _ _ => exact effect_of_binaryRR h nofun rfl rfl
  | addRI _ _ => exact effect_of_write h nofun rfl rfl
  | subRR _ _ => exact effect_of_binaryRR h nofun rfl rfl
  | subRI _ _ => exact effect_of_write h nofun rfl rfl
  | mulRR _ _ => exact effect_of_binaryRR h nofun rfl rfl
  | mulRI _ _ => exact effect_of_write h nofun rfl rfl
  | pushR r => exact effect_of_push (i := .pushR r) h nofun rfl
  | popR _ => exact effect_of_popR h
  | pushI dt imm => exact effect_of_push (i := .pushI dt imm) h nofun rfl
  | jmpNear _ => exact effect_of_jumpTo h nofun (relTarget_lt _ _ _)
  | jmpShort _ => exact effect_of_jumpTo h nofun (relTarget_lt _ _ _)
  | jmpLong _ => exact effect_of_jumpTo h nofun (relTarget_lt _ _ _)
  | jmpPtr32 a => exact effect_of_jumpTo h nofun (toNat_lt_of_32 _ a)
  | jmpPtr64 a => exact effect_of_ptr64 h fun hw h => effect_of_jumpTo h nofun (by rw [hw]; exact a.isLt)
  | callShort _ => exact effect_of_callTo h nofun rfl (relTarget_lt _ _ _)
  | callLong _ => exact effect_of_callTo h nofun rfl (relTarget_lt _ _ _)
  | callPtr32 a => exact effect_of_callTo h nofun rfl (toNat_lt_of_32 _ a)
  | callPtr64 a => exact effect_of_ptr64 h fun hw h => effect_of_callTo h nofun rfl (by rw [hw]; exact a.isLt)
  | ret => exact effect_of_ret h
  | jccRR _ _ _ _ _ => exact effect_of_branch h nofun rfl
  | jccRI _ _ _ _ _ => exact effect_of_branch h nofun rfl
  | jccRM =>
    cases h
    exact .fault _ _ _
  | jccMM =>
    cases h
    exact .fault _ _ _

/-! ## The effects of Safety.lean, for the state updates that have them -/

theorem faultTaken_raiseFault (s : State) (c : FaultCode) (n : Nat) : FaultTaken s (s.raiseFault c n) c n :=
  ⟨rfl, rfl, rfl, rfl, rfl, rfl, rfl, fun _ => rfl, rfl, rfl, ⟨rfl, rfl, rfl, rfl, rfl, rfl, rfl, rfl, rfl⟩⟩

theorem cursorEffect_withPc (s : State) (p : Nat) : CursorEffect s (s.withPc p) p :=
  ⟨rfl, rfl, rfl, fun _ => rfl, rfl, rfl, ⟨rfl, rfl, rfl, rfl⟩, ⟨rfl, rfl, rfl, rfl, rfl, rfl, rfl, rfl, rfl⟩⟩

theorem bytesHold_writeBytes (m : Memory) (a n v k : Nat) (hk : k < n) :
    ((m.writeBytes a (leBytes n v)).read (a + k)).toNat = v / 256 ^ k % 256 := by
  rw [Memory.read_writeBytes_inside _ _ _ _ (by simpa using hk), leBytes_getElem]

theorem storeEffect_withStack (s : State) (a n v sp p : Nat) :
    StoreEffect s ((s.withStack (s.mem.writeBytes a (leBytes n v)) sp).withPc p) a n v sp p :=
  ⟨bytesHold_writeBytes _ _ _ _, fun _ hb => Memory.read_writeBytes_outside _ _ _ _ (by simpa using hb), rfl, rfl, rfl,
    rfl, rfl, ⟨rfl, rfl, rfl, rfl⟩, ⟨rfl, rfl, rfl, rfl, rfl, rfl, rfl, rfl, rfl⟩⟩

theorem bytesHold_readBytes (s : State) (a n : Nat) : BytesHold s a n (leNat (s.mem.readBytes a n)) := by
  intro k hk
  have hb : leBytes n (leNat (s.mem.readBytes a n)) = s.mem.readBytes a n := by
    simpa using leBytes_leNat (s.mem.readBytes a n)
  rw [← leBytes_getElem n _ k (by simpa using hk)]
  simp only [hb]
  rw [Memory.readBytes_getElem]

end Sys2Proof.Machine
end

