-- ==== Sys2Proof/Laws/Launch.lean ====
section
/-! SUPPORT. The state after reset is the standard launch of an empty image. -/

namespace Sys2Proof.Machine

theorem launch_standard_empty : State.launch (Launch.standard []) State.reset = State.reset := rfl

/-- What a launch takes from the state before it: nothing but the unspecified `RETDESC` when its preconditions hold. -/
theorem launch_congr (p : Launch) (u v : State) (h : p.failedCheck = none) (hd : u.retDesc = v.retDesc) :
    State.launch p u = State.launch p v := by
  simp [State.launch, h, Launch.accepted, hd]

end Sys2Proof.Machine
end

