-- ==== Sys2Proof/Laws/PerInstr.lean ====
section
/-! SUPPORT. Facts about each instruction as syntax, one lemma per constructor. -/

namespace Sys2Proof.Laws.EncodedLength

open Sys2Proof Sys2Proof.Machine

/-- The encoding of an instruction has the length R117 gives it. -/
def Statement (i : Instr) : Prop :=
  ∀ w : PtrWidth, (encode w i).length = i.length w

/-- One case analysis serves every constructor. -/
theorem of_cases (i : Instr) : Statement i := by
  intro w
  cases i <;> simp [encode, Instr.fieldBytes, Instr.length] <;> omega

theorem nop : Statement .nop := of_cases _
theorem exit : Statement .exit := of_cases _
theorem movRR (rd : RegId) (rs : RegId) : Statement (.movRR rd rs) := of_cases _
theorem movRI (rd : RegId) (imm : Word) : Statement (.movRI rd imm) := of_cases _
theorem inc (r : RegId) : Statement (.inc r) := of_cases _
theorem dec (r : RegId) : Statement (.dec r) := of_cases _
theorem addRR (rd : RegId) (rs : RegId) : Statement (.addRR rd rs) := of_cases _
theorem addRI (rd : RegId) (imm : Word) : Statement (.addRI rd imm) := of_cases _
theorem subRR (rd : RegId) (rs : RegId) : Statement (.subRR rd rs) := of_cases _
theorem subRI (rd : RegId) (imm : Word) : Statement (.subRI rd imm) := of_cases _
theorem mulRR (rd : RegId) (rs : RegId) : Statement (.mulRR rd rs) := of_cases _
theorem mulRI (rd : RegId) (imm : Word) : Statement (.mulRI rd imm) := of_cases _
theorem pushR (r : RegId) : Statement (.pushR r) := of_cases _
theorem popR (r : RegId) : Statement (.popR r) := of_cases _
theorem pushI (dt : DataType) (imm : Word) : Statement (.pushI dt imm) := of_cases _
theorem jmpNear (rel : BitVec 8) : Statement (.jmpNear rel) := of_cases _
theorem jmpShort (rel : BitVec 16) : Statement (.jmpShort rel) := of_cases _
theorem jmpLong (rel : BitVec 32) : Statement (.jmpLong rel) := of_cases _
theorem jmpPtr32 (address : BitVec 32) : Statement (.jmpPtr32 address) := of_cases _
theorem jmpPtr64 (address : BitVec 64) : Statement (.jmpPtr64 address) := of_cases _
theorem callShort (rel : BitVec 16) : Statement (.callShort rel) := of_cases _
theorem callLong (rel : BitVec 32) : Statement (.callLong rel) := of_cases _
theorem callPtr32 (address : BitVec 32) : Statement (.callPtr32 address) := of_cases _
theorem callPtr64 (address : BitVec 64) : Statement (.callPtr64 address) := of_cases _
theorem ret : Statement .ret := of_cases _
theorem jccRR (cc : Cond) (dt : DataType) (sa : Slot) (sb : Slot) (tgt : Target) : Statement (.jccRR cc dt sa sb tgt) := of_cases _
theorem jccRI (cc : Cond) (dt : DataType) (sa : Slot) (imm : Word) (tgt : Target) : Statement (.jccRI cc dt sa imm tgt) := of_cases _
theorem jccRM : Statement .jccRM := of_cases _
theorem jccMM : Statement .jccMM := of_cases _

end Sys2Proof.Laws.EncodedLength
end

