-- ==== Sys2Proof/Laws/Step.lean ====
section
/-! SUPPORT. Everything a step can do, said once. -/

namespace Sys2Proof.Machine

theorem step_idle {s : State} (h : s.stepAction = .idle) : step s = .next s := by
  simp [step, h]

theorem step_ended {s : State} (h : s.stepAction = .ended) : step s = .next (s.halt .endOfStream) := by
  simp [step, h]

theorem step_trap {s : State} {c : FaultCode} {n : Nat} (h : s.stepAction = .trap c n) :
    step s = .next (s.raiseFault c n) := by
  simp [step, h]

theorem step_run {s : State} {i : Instr} (h : s.stepAction = .run i) : step s = exec i s := by
  simp [step, h]

/-- Everything a step can be (R307): no effect, end of stream, a fault before execution, or the decoded instruction,
each with the tests that led to it. -/
theorem step_cases (s : State) :
    (s.runState ≠ .running ∧ s.stepAction = .idle) ∨
    (s.runState = .running ∧ s.pc = s.limit ∧ s.stepAction = .ended) ∨
    (s.runState = .running ∧ s.pc ≠ s.limit ∧ s.pc < s.start ∧ s.stepAction = .trap .cursorUnderflow s.pc) ∨
    (s.runState = .running ∧ s.start ≤ s.pc ∧ s.limit < s.pc ∧ s.stepAction = .trap .cursorOverflow s.pc) ∨
    (s.runState = .running ∧ s.start ≤ s.pc ∧ s.pc < s.limit ∧ ∃ e, decode s.ptrWidth s.fetchWindow = .error e ∧
      s.stepAction = .trap (decodeFault s.pc e).1 (decodeFault s.pc e).2) ∨
    (s.runState = .running ∧ s.start ≤ s.pc ∧ s.pc < s.limit ∧ ∃ i n, decode s.ptrWidth s.fetchWindow = .ok (i, n) ∧
      s.stepAction = .run i) := by
  unfold State.stepAction
  by_cases hr : s.runState = .running
  · by_cases h1 : s.pc = s.limit
    · simp [hr, h1]
    · by_cases h2 : s.pc < s.start
      · simp [hr, h1, h2]
      · by_cases h3 : s.limit < s.pc
        · have : s.start ≤ s.pc := by omega
          simp [hr, h1, h2, h3, this]
        · have h4 : s.start ≤ s.pc := by omega
          have h5 : s.pc < s.limit := by omega
          cases hd : decode s.ptrWidth s.fetchWindow with
          | error e => exact .inr (.inr (.inr (.inr (.inl ⟨hr, h4, h5, e, rfl, by simp [hr, h1, h2, h3]⟩))))
          | ok p => exact .inr (.inr (.inr (.inr (.inr ⟨hr, h4, h5, p.1, p.2, rfl, by simp [hr, h1, h2, h3]⟩))))
  · simp [hr]

end Sys2Proof.Machine
end

