-- ==== Sys2Proof/Laws/Run.lean ====
section
/-! SUPPORT. What `Run()` does, step by step, and that it is the host's run of the core. -/

namespace Sys2Proof.Machine

@[simp] theorem runFor_zero (s : State) : runFor 0 s = .next s := rfl

/-- A core that is not Running runs no step. -/
theorem runFor_stopped {s : State} (n : Nat) (h : s.runState ≠ .running) : runFor n s = .next s := by
  cases n <;> simp [runFor, h]

/-- A Running core runs its next step first. -/
theorem runFor_succ {s t : State} (n : Nat) (hr : s.runState = .running) (h : step s = .next t) :
    runFor (n + 1) s = runFor n t := by
  simp [runFor, hr, h]

theorem step_stopped {s : State} (h : s.runState ≠ .running) : step s = .next s :=
  step_idle (by simp [State.stepAction, h])

/-- Steps beyond the end of a launch have no effect, so `Run()` cut to `n` steps is `n` steps of the core. -/
theorem runFor_eq_run (n : Nat) (s : State) : runFor n s = Host.Core.run Sys2Proof.core n s := by
  induction n generalizing s with
  | zero => rfl
  | succ n ih =>
    by_cases hr : s.runState = .running
    · simp only [runFor, hr, if_true, Host.Core.run, Sys2Proof.core]
      cases step s with
      | next t => exact ih t
      | fault _ => rfl
      | refused _ => rfl
    · have h : Host.Core.run Sys2Proof.core (n + 1) s = Host.Core.run Sys2Proof.core n s := by
        simp [Host.Core.run, Sys2Proof.core, step_stopped hr]
      rw [h, ← ih, runFor_stopped _ hr, runFor_stopped _ hr]

end Sys2Proof.Machine
end

