-- ==== Sys2Proof/Tests/Slice0.lean ====
section
/-! SUPPORT. Tests: expected results are the spec's own words, examples and vectors (`30_encoding.md`, `40_register_ops.md`
to `43_stack_ops.md`, `95_test_vectors.md`; the vector's name stands in the comment), and a witness for the hypotheses of
each statement. -/

namespace Sys2Proof.Tests

open Sys2Proof Sys2Proof.Machine

/-! ## Well-formedness refuses -/

/-- A register immediate wider than its class. -/
theorem test_wf_refuses_wide_register_immediate :
    ([Instr.movRI ⟨.r8, 0⟩ 0x100, .addRI ⟨.r8high, 0⟩ 0x100, .subRI ⟨.r16, 0⟩ 0x10000,
      .mulRI ⟨.r32, 0⟩ 0x100000000].map (Instr.wellFormed .w64)) = [false, false, false, false] := by decide

/-- A typed immediate wider than its tag, a Pointer above 4 bytes in the 32-bit profile among them. -/
theorem test_wf_refuses_wide_typed_immediate :
    (Instr.pushI .int8 0x100).wellFormed .w64 = false ∧ (Instr.pushI .pointer 0x100000000).wellFormed .w32 = false ∧
    (Instr.jccRI .je .uint16 0 0x10000 (.near 0)).wellFormed .w64 = false := by decide

/-- A one-width operation on two classes. -/
theorem test_wf_refuses_two_classes :
    ([Instr.addRR ⟨.r8, 0⟩ ⟨.r8high, 0⟩, .subRR ⟨.r64, 0⟩ ⟨.r32, 0⟩, .mulRR ⟨.r16, 0⟩ ⟨.r32, 0⟩].map
      (Instr.wellFormed .w64)) = [false, false, false] := by decide

/-- A Ptr64 form in the 32-bit profile. -/
theorem test_wf_refuses_ptr64_in_profile_32 :
    ([Instr.jmpPtr64 0, .callPtr64 0, .jccRR .je .int8 0 0 (.ptr64 0), .jccRI .je .int8 0 0 (.ptr64 0)].map
      (Instr.wellFormed .w32)) = [false, false, false, false] := by decide

/-- The boundary values that fit. -/
theorem test_wf_admits_the_widest_values :
    ([Instr.movRI ⟨.r8, 31⟩ 0xFF, .movRI ⟨.r64, 31⟩ 0xFFFFFFFFFFFFFFFF, .pushI .pointer 0xFFFFFFFF,
      .jccRI .jge .uint16 31 0xFFFF (.ptr32 0xFFFFFFFF)].map (Instr.wellFormed .w32)) = [true, true, true, true] := by
  decide

/-! ## Decoding, one word of the spec for each constructor -/

/-- What a decode gives, none for an error. -/
def decoded (w : PtrWidth) (bytes : List Byte) : Option (Instr × Nat) :=
  match decode w bytes with
  | .ok r => some r
  | .error _ => none

/-- The error a decode gives. -/
def rejected (w : PtrWidth) (bytes : List Byte) : Option DecodeError :=
  match decode w bytes with
  | .ok _ => none
  | .error e => some e

/-- R163, R164, R174, R209, R210. -/
theorem test_decode_f0 : decoded .w64 [0x01] = some (.nop, 1) ∧ decoded .w64 [0x02] = some (.exit, 1) ∧
    decoded .w64 [0x58] = some (.ret, 1) ∧ decoded .w64 [0x62, 0, 0, 0] = some (.jccRM, 1) ∧
    decoded .w64 [0x63] = some (.jccMM, 1) := by decide

/-- The examples of R132 and R136; V15, V18. -/
theorem test_decode_frr : decoded .w64 [0x10, 0x02, 0x21] = some (.movRR ⟨.r8, 2⟩ ⟨.r8high, 1⟩, 3) ∧
    decoded .w64 [0x20, 0x00, 0x01] = some (.addRR ⟨.r8, 0⟩ ⟨.r8, 1⟩, 3) ∧
    decoded .w64 [0x22, 0x67, 0x67] = some (.subRR ⟨.r32, 7⟩ ⟨.r32, 7⟩, 3) ∧
    decoded .w64 [0x24, 0x40, 0x41] = some (.mulRR ⟨.r16, 0⟩ ⟨.r16, 1⟩, 3) := by decide

/-- The examples of R133, R137, R139 and R141; S5. -/
theorem test_decode_fri : decoded .w64 [0x11, 0x9F, 1, 0, 0, 0, 0, 0, 0, 0x80] =
      some (.movRI ⟨.r64, 31⟩ 0x8000000000000001, 10) ∧
    decoded .w64 [0x21, 0x05, 0xFA] = some (.addRI ⟨.r8, 5⟩ 250, 3) ∧
    decoded .w64 [0x23, 0x42, 0x20, 0x00] = some (.subRI ⟨.r16, 2⟩ 0x20, 4) ∧
    decoded .w64 [0x25, 0x06, 0x10] = some (.mulRI ⟨.r8, 6⟩ 0x10, 3) := by decide

/-- The examples of R134, R135, R230 and R231. -/
theorem test_decode_fr : decoded .w64 [0x18, 0x04] = some (.inc ⟨.r8, 4⟩, 2) ∧
    decoded .w64 [0x19, 0x81] = some (.dec ⟨.r64, 1⟩, 2) ∧ decoded .w64 [0x30, 0x41] = some (.pushR ⟨.r16, 1⟩, 2) ∧
    decoded .w64 [0x31, 0x42] = some (.popR ⟨.r16, 2⟩, 2) := by decide

/-- The example of R232; P-4 and E16, the Pointer width of each profile. -/
theorem test_decode_fdi : decoded .w64 [0x32, 0x05, 0x44, 0x33, 0x22, 0x11] = some (.pushI .uint32 0x11223344, 6) ∧
    decoded .w64 [0x32, 0x08, 0, 0x10, 0, 0, 0, 0, 0, 0] = some (.pushI .pointer 0x1000, 10) ∧
    decoded .w32 [0x32, 0x08, 0, 0x10, 0, 0] = some (.pushI .pointer 0x1000, 6) := by decide

/-- The examples of R165 to R169. -/
theorem test_decode_jmp : decoded .w64 [0x40, 0xFC] = some (.jmpNear 0xFC, 2) ∧
    decoded .w64 [0x41, 0xEC, 0xFF] = some (.jmpShort 0xFFEC, 3) ∧
    decoded .w64 [0x42, 0x00, 0x01, 0x00, 0x00] = some (.jmpLong 0x100, 5) ∧
    decoded .w64 [0x43, 0x40, 0x10, 0x00, 0x00] = some (.jmpPtr32 0x1040, 5) ∧
    decoded .w64 [0x44, 0x20, 0x10, 0, 0, 0, 0, 0, 0] = some (.jmpPtr64 0x1020, 9) := by decide

/-- The examples of R170 to R173. -/
theorem test_decode_call : decoded .w64 [0x51, 0x20, 0x00] = some (.callShort 0x20, 3) ∧
    decoded .w64 [0x52, 0x40, 0x00, 0x00, 0x00] = some (.callLong 0x40, 5) ∧
    decoded .w64 [0x53, 0x24, 0x10, 0x00, 0x00] = some (.callPtr32 0x1024, 5) ∧
    decoded .w64 [0x54, 0x30, 0x10, 0, 0, 0, 0, 0, 0] = some (.callPtr64 0x1030, 9) := by decide

/-- The examples of R207 and R208; B1, and B9, the longest instruction. -/
theorem test_decode_jcc :
    decoded .w64 [0x60, 0x00, 0x07, 0x00, 0x01, 0x02, 0x10] = some (.jccRR .jz .uint64 1 2 (.near 0x10), 7) ∧
    decoded .w64 [0x61, 0x02, 0x03, 0x02, 0x01, 0x34, 0x12, 0x20, 0, 0, 0] =
      some (.jccRI .je .uint16 1 0x1234 (.long 0x20), 11) ∧
    decoded .w64 [0x61, 0x02, 0x07, 0x04, 0x01, 0, 0, 0, 0, 0, 0, 0, 0, 0x20, 0, 0, 0, 0, 0, 0, 0] =
      some (.jccRI .je .uint64 1 0 (.ptr64 0x20), 21) := by decide

/-- E1, E2 and the ends of the reserved ranges of R112. -/
theorem test_decode_unknown_opcode : ∀ op ∈ [(0x00 : Byte), 0x03, 0x0F, 0x12, 0x17, 0x1A, 0x1F, 0x26, 0x2F, 0x33, 0x3F,
    0x45, 0x50, 0x55, 0x57, 0x59, 0x5F, 0x64, 0xFF], rejected .w64 [op, 0, 0] = some (.unknownOpcode op.toNat) := by decide

/-- E5 to E10, E12, V13, V22: the first illegal field in byte order, with its byte. -/
theorem test_decode_illegal_fields :
    rejected .w64 [0x60, 0x08, 0x00, 0x00, 0x01, 0x02, 0x10] = some (.unknownCondition 0x08) ∧
    rejected .w64 [0x60, 0x02, 0x09, 0x00, 0x01, 0x02, 0x10] = some (.unknownDataType 0x09) ∧
    rejected .w64 [0x60, 0x02, 0x00, 0x05, 0x01, 0x02, 0x10] = some (.unknownJumpType 0x05) ∧
    rejected .w64 [0x60, 0x02, 0x00, 0x00, 0x20, 0x02, 0x10] = some (.unknownRegister 0x20) ∧
    rejected .w64 [0x60, 0x02, 0x00, 0x00, 0x01, 0x81, 0x10] = some (.unknownRegister 0x81) ∧
    rejected .w64 [0x60, 0x08, 0x09, 0x05, 0x20, 0x20, 0x10] = some (.unknownCondition 0x08) ∧
    rejected .w64 [0x32, 0x09, 0x00] = some (.unknownDataType 0x09) ∧
    rejected .w64 [0x20, 0x80, 0x61] = some (.widthMismatch 0x61) ∧
    rejected .w64 [0x18, 0xA0] = some (.unknownRegister 0xA0) := by decide

/-- E13 to E15. -/
theorem test_decode_profile : rejected .w32 [0x44, 0, 0x10, 0, 0, 0, 0, 0, 0] = some (.profileInvalid 0x44) ∧
    rejected .w32 [0x54, 0, 0x10, 0, 0, 0, 0, 0, 0] = some (.profileInvalid 0x54) ∧
    rejected .w32 [0x60, 2, 0, 4, 1, 2, 0, 0, 0, 0, 0, 0, 0, 0] = some (.profileInvalid 0x04) := by decide

/-- V23, E11: the offset of the first field that is not all there. -/
theorem test_decode_overrun : rejected .w64 [0x11, 0x80, 0x01, 0x00] = some (.overrun 2) ∧
    rejected .w64 [0x60, 0x02, 0x00, 0x01, 0x01, 0x02, 0x10] = some (.overrun 6) := by decide

/-- The host's table words: the first byte is the low one, operand bytes not given are zero. -/
theorem test_table_words : decodeTableWord 24 0x210210 = some (.movRR ⟨.r8, 2⟩ ⟨.r8high, 1⟩) ∧
    decodeTableWord 8 0x51 = some (.callShort 0) ∧ decodeTableWord 8 0x00 = none := by decide

/-! ## One step -/

/-- The standard launch with an image, then slots given values. -/
def start (image : List Byte) (regs : List (Slot × Word)) : State :=
  { State.launch (Launch.standard image) State.reset with
    regs := regs.foldl (fun v q => v.set q.1 q.2) (Vector.replicate Config.numSlots 0) }

/-- The same stack, growing backward, empty. -/
def backward (s : State) : State :=
  { s with stackDir := .backward, sp := s.last }

/-- The same launch under `CALL_CONV = Ledger`. -/
def ledgerConv (s : State) : State :=
  { s with callConv := .ledger }

/-- The same launch under `PTR_WIDTH = 32`. -/
def profile32 (s : State) : State :=
  { s with ptrWidth := .w32 }

/-- The same state at another cursor. -/
def atPc (p : Nat) (s : State) : State :=
  { s with pc := p }

/-- The next state; the Unbound one if there is none. -/
def next (o : Result) : State :=
  match o with
  | .next t => t
  | .fault _ => { State.reset with runState := .unbound }
  | .refused _ => { State.reset with runState := .unbound }

/-- The state after one step of the standard launch. -/
def after (image : List Byte) (regs : List (Slot × Word)) : State :=
  next (step (start image regs))

/-- What a vector reports of a fault: the code number, `FAULT_PC`, `FAULT_INFO`, `pc` and `sp`. -/
def report (s : State) : Nat × Nat × Nat × Nat × Nat :=
  (s.faultCodeField.toNat, s.faultPc, s.faultInfo.toNat, s.pc, s.sp)

/-- J1. -/
theorem test_nop : after [0x01] [] = { start [0x01] [] with pc := 0x1001 } := by decide

/-- J2. -/
theorem test_exit : (after [0x02] [(0, 120)]).retDesc = ⟨0, 8, 120⟩ ∧ (after [0x02] [(0, 120)]).statusWord = 2 ∧
    (after [0x02] [(0, 120)]).pc = 0x1001 := by decide

/-- V1: zero-extended to 32 bits, bits 63:32 kept. -/
theorem test_mov_rr_wider : (after [0x10, 0x62, 0x01] [(1, 0x1122334455667788), (2, 0xFFFFFFFFFFFFFFFF)]).regs[2] =
    0xFFFFFFFF00000088 := by decide

/-- V4: the high byte of the source's own slot. -/
theorem test_mov_rr_high : (after [0x10, 0x21, 0x01] [(1, 0x1122334455667788)]).regs[1] = 0x1122334455668888 := by decide

/-- V5. -/
theorem test_mov_ri : (after [0x11, 0x63, 0xBE, 0xBA, 0xFE, 0xCA] [(3, 0xFFFFFFFFFFFFFFFF)]).regs[3] =
    0xFFFFFFFFCAFEBABE ∧ (after [0x11, 0x63, 0xBE, 0xBA, 0xFE, 0xCA] []).pc = 0x1006 := by decide

/-- V7. -/
theorem test_inc_high : (after [0x18, 0x24] [(4, 0xFFFF)]).regs[4] = 0x00FF := by decide

/-- V10. -/
theorem test_dec : (after [0x19, 0x64] [(4, 0x5500000000)]).regs[4] = 0x55FFFFFFFF := by decide

/-- V12. -/
theorem test_add_rr : (after [0x20, 0x20, 0x20] [(0, 0x9000)]).regs[0] = 0x2000 := by decide

/-- V13. -/
theorem test_add_rr_width : report (after [0x20, 0x80, 0x61] [(0, 1), (1, 1)]) = (0x06, 0x1000, 0x61, 0x1000, 0x8000) ∧
    (after [0x20, 0x80, 0x61] [(0, 1), (1, 1)]).regs[0] = 1 := by decide

/-- V14. -/
theorem test_add_ri : (after [0x21, 0x80, 0xFF, 0xFF, 0xFF, 0xFF, 0xFF, 0xFF, 0xFF, 0xFF] [(0, 5)]).regs[0] = 4 := by
  decide

/-- V15. -/
theorem test_sub_rr : (after [0x22, 0x00, 0x01] [(0, 3), (1, 5)]).regs[0] = 0xFE := by decide

/-- V17. -/
theorem test_sub_ri : (after [0x23, 0x42, 0x20, 0x00] [(2, 0x10)]).regs[2] = 0xFFF0 := by decide

/-- V18. -/
theorem test_mul_rr : (after [0x24, 0x40, 0x41] [(0, 0x1234), (1, 0x100)]).regs[0] = 0x3400 := by decide

/-- V20. -/
theorem test_mul_ri : (after [0x25, 0x00, 0xFF] [(0, 3)]).regs[0] = 0xFD := by decide

/-- P-2. -/
theorem test_push_r_backward : (next (step (backward (start [0x30, 0x21] [(1, 0x1122334455667788)])))).sp = 0x80FF ∧
    (next (step (backward (start [0x30, 0x21] [(1, 0x1122334455667788)])))).mem.read 0x80FF = 0x77 := by decide

/-- P-1. -/
theorem test_push_r_forward : (after [0x30, 0x81] [(1, 0x1122334455667788)]).mem.readBytes 0x8000 8 =
    [0x88, 0x77, 0x66, 0x55, 0x44, 0x33, 0x22, 0x11] ∧ (after [0x30, 0x81] []).sp = 0x8008 := by decide

/-- The example of R231: two bytes held, `pop r2.w`. -/
theorem test_pop_r : (next (exec (.popR ⟨.r16, 2⟩)
      { start [] [(2, 0xFFFFFFFFFFFFFFFF)] with sp := 0x8002, mem := [(0x8000, 0x88), (0x8001, 0x77)] })).regs[2] =
    0xFFFFFFFFFFFF7788 := by decide

/-- O3. -/
theorem test_pop_r_empty : report (after [0x31, 0x01] []) = (0x13, 0x1000, 0x8000, 0x1000, 0x8000) := by decide

/-- The example of R232. -/
theorem test_push_i : (after [0x32, 0x05, 0x44, 0x33, 0x22, 0x11] []).mem.readBytes 0x8000 4 = [0x44, 0x33, 0x22, 0x11] ∧
    (after [0x32, 0x05, 0x44, 0x33, 0x22, 0x11] []).sp = 0x8004 := by decide

/-- O1, its second push, on a stack of 4 bytes that is full. -/
theorem test_push_i_full : report (next (exec (.pushI .uint8 0x99)
    { start [] [] with last := 0x8004, sp := 0x8004, pc := 0x1006 })) = (0x12, 0x1006, 0x8004, 0x1006, 0x8004) := by decide

/-- The example of R165, at 0x1034. -/
theorem test_jmp_near : (next (exec (.jmpNear 0xFC) (atPc 0x1034 State.reset))).pc = 0x1030 := by decide

/-- A1. -/
theorem test_jmp_near_misaligned : report (after [0x40, 0x08] []) = (0x20, 0x1000, 0x1008, 0x1000, 0x8000) := by decide

/-- J4. -/
theorem test_jmp_short : (after [0x41, 0x00, 0xF0] []).pc = 0 := by decide

/-- J7: the sum wraps modulo `2^32`. -/
theorem test_jmp_long : (next (step (profile32 (start [0x42, 0xF0, 0xEF, 0xFF, 0xFF] [])))).pc = 0xFFFFFFF0 := by decide

/-- J6: zero-extended. -/
theorem test_jmp_ptr32 : (after [0x43, 0xF0, 0xFF, 0xFF, 0xFF] []).pc = 0xFFFFFFF0 := by decide

/-- The example of R169. -/
theorem test_jmp_ptr64 : (after [0x44, 0x20, 0x10, 0, 0, 0, 0, 0, 0] []).pc = 0x1020 := by decide

/-- E13. -/
theorem test_jmp_ptr64_profile : report (next (step (profile32 (start [0x44, 0, 0x10, 0, 0, 0, 0, 0, 0] [])))) =
    (0x07, 0x1000, 0x44, 0x1000, 0x8000) := by decide

/-- J8. -/
theorem test_call_short : (after [0x51, 0x20, 0x00] []).mem.readBytes 0x8000 8 = [0x03, 0x10, 0, 0, 0, 0, 0, 0] ∧
    (after [0x51, 0x20, 0x00] []).pc = 0x1020 ∧ (after [0x51, 0x20, 0x00] []).sp = 0x8008 := by decide

/-- J9: four bytes under the 32-bit profile. -/
theorem test_call_short_32 : (next (step (profile32 (start [0x51, 0x20, 0x00] [])))).sp = 0x8004 := by decide

/-- The example of R171. -/
theorem test_call_long_ledger :
    (next (step (ledgerConv (start [0x52, 0x40, 0, 0, 0] [])))).ledger = [⟨0x1000, 0x1005⟩] ∧
    (next (step (ledgerConv (start [0x52, 0x40, 0, 0, 0] [])))).sp = 0x8000 := by decide

/-- P3a: the second call under `LEDGER_CAPACITY = 1`. -/
theorem test_call_ledger_full : report (next (exec (.callShort 0x1E)
    { ledgerConv (atPc 0x1022 State.reset) with ledger := [⟨0x100A, 0x100D⟩], ledgerCapacity := some 1 })) =
    (0x31, 0x1022, 0x1022, 0x1022, 0x8000) := by decide

/-- A8: nothing is pushed. -/
theorem test_call_ptr32_misaligned : report (after [0x53, 0x08, 0x10, 0, 0] []) = (0x20, 0x1000, 0x1008, 0x1000, 0x8000) := by
  decide

/-- `call.ptr32` to an aligned target (R172). -/
theorem test_call_ptr32 : (after [0x53, 0x20, 0x10, 0, 0] []).pc = 0x1020 ∧
    (after [0x53, 0x20, 0x10, 0, 0] []).mem.readBytes 0x8000 2 = [0x05, 0x10] := by decide

/-- The example of R173. -/
theorem test_call_ptr64 : (after [0x54, 0x30, 0x10, 0, 0, 0, 0, 0, 0] []).mem.readBytes 0x8000 8 =
    [0x09, 0x10, 0, 0, 0, 0, 0, 0] ∧ (after [0x54, 0x30, 0x10, 0, 0, 0, 0, 0, 0] []).pc = 0x1030 := by decide

/-- The example of R174. -/
theorem test_ret : (next (exec .ret { State.reset with sp := 0x8008, mem := [(0x8000, 0x13), (0x8001, 0x10)] })).pc =
    0x1013 := by decide

/-- O6, its second step: 4 bytes are fewer than a return address. -/
theorem test_ret_short : report (next (exec .ret { State.reset with sp := 0x8004, pc := 0x1006 })) =
    (0x30, 0x1006, 0x8004, 0x1006, 0x8004) := by decide

/-- K2 and K11: `jz` with one zero operand is not taken; `jl` is signed at Int8. -/
theorem test_jcc_rr : (after [0x60, 0x00, 0x07, 0x00, 0x01, 0x02, 0x10] [(2, 5)]).pc = 0x1007 ∧
    (after [0x60, 0x04, 0x00, 0x00, 0x01, 0x02, 0x10] [(1, 0xFF)]).pc = 0x1010 := by decide

/-- A11: a branch that is not taken checks no target. -/
theorem test_jcc_rr_misaligned_not_taken : (after [0x60, 0x03, 0x00, 0x00, 0x01, 0x02, 0x08] []).pc = 0x1007 := by decide

/-- B3 and B4: the immediate is read with the tag's signedness. -/
theorem test_jcc_ri : (after [0x61, 0x04, 0x00, 0x00, 0x01, 0x80, 0x10] []).pc = 0x1007 ∧
    (after [0x61, 0x04, 0x01, 0x00, 0x01, 0x80, 0x10] []).pc = 0x1010 := by decide

/-- B9. -/
theorem test_jcc_ri_longest :
    (after [0x61, 0x02, 0x07, 0x04, 0x01, 0, 0, 0, 0, 0, 0, 0, 0, 0x20, 0, 0, 0, 0, 0, 0, 0] []).pc = 0x20 := by decide

/-- E3, E4. -/
theorem test_jcc_unimplemented : report (after [0x62, 0, 0, 0] []) = (0x08, 0x1000, 0x62, 0x1000, 0x8000) ∧
    report (after [0x63] []) = (0x08, 0x1000, 0x63, 0x1000, 0x8000) := by decide

/-! ## The step loop and reset -/

/-- R-1. -/
theorem test_end_of_stream : (next (step State.reset)).statusWord = 3 := by decide

/-- J4 and J13, their second steps. -/
theorem test_cursor_faults : report (next (step (atPc 0 (start [0x01] [])))) = (0x11, 0, 0, 0, 0x8000) ∧
    report (next (step (atPc 0x2000 (start [0x01] [])))) = (0x10, 0x2000, 0x2000, 0x2000, 0x8000) := by decide

/-- V23. -/
theorem test_fetch_overrun : report (after [0x11, 0x80, 0x01, 0x00] []) = (0x10, 0x1000, 0x1002, 0x1000, 0x8000) := by
  decide

/-- R-2: a misaligned entry point. -/
theorem test_launch_misaligned_entry : report (State.launch
    { Launch.standard (List.replicate 15 1) with entryOffset := 8 } State.reset) =
    (0x20, 0x1008, 0x1008, 0x1008, 0x8000) := by decide

/-- R-3, R-5 and R-6, and for check 2 an entry point at exactly `2^32` (R303). -/
theorem test_launch_refusals :
    ((Launch.failedCheck { Launch.standard [] with imageBase := 0x1010 }) = some 1) ∧
    ((Launch.failedCheck { Launch.standard [] with
      ptrWidth := 32, imageBase := 0xFFFFFF00, entryOffset := 0x100 }) = some 2) ∧
    ((Launch.failedCheck { Launch.standard (List.replicate 16 1) with stackBase := 0x1000 }) = some 3) ∧
    ((Launch.failedCheck { Launch.standard [] with stackCapacity := 0 }) = some 4) := by decide

/-- The words of a refused launch: RUN_STATE 5 and FAULT_CODE 0x40 (R303). -/
theorem test_launch_refused_status :
    (State.launch { Launch.standard [] with stackCapacity := 0 } State.reset).statusWord = 0x4005 := by decide

/-- CONFIG of the standard launch and of its opposite (R49). -/
theorem test_config : State.reset.configWord = 1 ∧ (profile32 (ledgerConv (backward State.reset))).configWord = 6 := by
  decide

/-- The host's placement of an instruction runs it first after reset (R170). -/
theorem test_with_fetch_word : step (State.reset.withFetchWord 8 0x51) =
    exec (.callShort 0) (State.reset.withFetchWord 8 0x51) := by rfl

/-- A host write of the image (C11). -/
theorem test_host_store : ((next (step State.reset)).hostStoreImage 0x1000 1 2 = none) ∧
    (start [0x01] []).hostStoreImage 0x1000 1 2 = none ∧
    ((next (step (start [0x02] []))).hostStoreImage 0x1000 1 0x58).map (fun t => t.mem.read 0x1000) = some 0x58 := by decide

/-! ## Witnesses: a state and operands that meet the hypotheses of each statement, at the boundaries of its clauses -/

/-- A state under `CALL_CONV = Stack` about to fetch the first of two bytes of an image, with one pushed word. -/
def busy : State :=
  { start [0x01, 0x02] [(0, 3), (1, 0xFF)] with sp := 0x8008 }

/-- `busy` meets the invariant. -/
theorem test_busy_invariant : busy.Inv where
  mem_wf := by decide
  base_aligned := by decide
  image_order := by decide
  limit_repr := by decide
  entry_repr := by decide
  pc_repr := .inl (by decide)
  stack_order := by decide
  last_repr := by decide
  sp_low := by decide
  sp_high := by decide
  regions_disjoint := by
    intro a _ h
    have h1 : a < 0x1002 := h
    intro h2
    have h3 : 0x8000 ≤ a := h2.1
    omega
  ledger_unused := fun _ => rfl
  ledger_bound := nofun
  ledger_repr := nofun
  faultPc_repr := by decide
  fault_recorded := by decide

/-- The invariant and a step that answers a next state: StepKeepsTheInvariant, StepAlwaysAnswersANextState,
StepNeverWritesTheImage (the address 0x1001 of the image). -/
theorem test_witness_invariant_step : busy.Inv ∧ step busy = .next (busy.advance 1) ∧ busy.start ≤ 0x1001 ∧
    0x1001 < busy.limit :=
  ⟨test_busy_invariant, rfl, by decide, by decide⟩

/-- DecodeOfEncodeIsIdentity: the longest instruction and each profile's widest operand. -/
theorem test_witness_decode_of_encode : (Instr.jccRI .jge .uint64 31 0xFFFFFFFFFFFFFFFF (.ptr64 0xFFFFFFFFFFFFFFFF)).wellFormed
    .w64 = true ∧ (Instr.pushI .pointer 0xFFFFFFFF).wellFormed .w32 = true := by decide

/-- EncodeOfDecodeIsIdentity: an instruction followed by other bytes. -/
theorem test_witness_encode_of_decode : decode .w64 [0x10, 0x9F, 0x21, 0xFF] = .ok (.movRR ⟨.r64, 31⟩ ⟨.r8high, 1⟩, 3) := rfl

/-- InstructionLengths: a member of each list. -/
theorem test_witness_lengths : Instr.ret ∈ [Instr.nop, .exit, .ret] ∧
    Instr.popR ⟨.r8, 0⟩ ∈ [Instr.inc ⟨.r8, 0⟩, .dec ⟨.r8, 0⟩, .pushR ⟨.r8, 0⟩, .popR ⟨.r8, 0⟩] ∧
    (RegClass.r64, 10) ∈ [(RegClass.r8, 3), (.r8high, 3), (.r16, 4), (.r32, 6), (.r64, 10)] ∧
    (JumpType.ptr64, 8) ∈ [(JumpType.near, 1), (.short, 2), (.long, 4), (.ptr32, 4), (.ptr64, 8)] := by decide

/-- A state about to fetch the given bytes. -/
def fetchingAt (image : List Byte) : State :=
  start image []

theorem fetching_start (image : List Byte) (h : (fetchingAt image).runState = .running ∧
    (fetchingAt image).start ≤ (fetchingAt image).pc ∧ (fetchingAt image).pc < (fetchingAt image).limit) :
    Fetching (fetchingAt image) := h

/-- UnknownOpcodesFault: 0x00, 0x50 and 0xFF. -/
theorem test_witness_unknown_opcode : (Fetching (fetchingAt [0x00]) ∧ ((fetchingAt [0x00]).mem.read 0x1000).toNat = 0x00) ∧
    (Fetching (fetchingAt [0x50]) ∧ ((fetchingAt [0x50]).mem.read 0x1000).toNat = 0x50) ∧
    (Fetching (fetchingAt [0xFF]) ∧ ((fetchingAt [0xFF]).mem.read 0x1000).toNat = 0xFF) :=
  ⟨⟨fetching_start _ (by decide), by decide⟩, ⟨fetching_start _ (by decide), by decide⟩,
    ⟨fetching_start _ (by decide), by decide⟩⟩

/-- IllegalFieldsFault: the least illegal value of each clause, the fields before it at their greatest legal values. -/
theorem test_witness_illegal_fields :
    rejected .w64 [0x31, 160] = some (.unknownRegister 160) ∧ rejected .w64 [0x24, 159, 160] = some (.unknownRegister 160) ∧
    rejected .w64 [0x20, 159, 127] = some (.widthMismatch 127) ∧ rejected .w64 [0x32, 9] = some (.unknownDataType 9) ∧
    rejected .w64 [0x61, 8] = some (.unknownCondition 8) ∧ rejected .w64 [0x61, 7, 9] = some (.unknownDataType 9) ∧
    rejected .w64 [0x60, 7, 8, 5] = some (.unknownJumpType 5) ∧ rejected .w32 [0x61, 7, 8, 4] = some (.profileInvalid 4) ∧
    rejected .w64 [0x61, 7, 8, 4, 32] = some (.unknownRegister 32) ∧
    rejected .w32 [0x60, 7, 8, 3, 31, 32] = some (.unknownRegister 32) := by decide

/-- IllegalFieldsFault, its last clause: each error at a fetching state. -/
theorem test_witness_illegal_fields_step :
    (Fetching (fetchingAt [0x18, 160]) ∧ decode .w64 (imageFromPc (fetchingAt [0x18, 160])) = .error (.unknownRegister 160)) ∧
    (Fetching (fetchingAt [0x32, 9]) ∧ decode .w64 (imageFromPc (fetchingAt [0x32, 9])) = .error (.unknownDataType 9)) ∧
    (Fetching (fetchingAt [0x60, 8]) ∧ decode .w64 (imageFromPc (fetchingAt [0x60, 8])) = .error (.unknownCondition 8)) ∧
    (Fetching (fetchingAt [0x60, 7, 8, 5]) ∧
      decode .w64 (imageFromPc (fetchingAt [0x60, 7, 8, 5])) = .error (.unknownJumpType 5)) ∧
    (Fetching (fetchingAt [0x20, 0, 32]) ∧
      decode .w64 (imageFromPc (fetchingAt [0x20, 0, 32])) = .error (.widthMismatch 32)) ∧
    (Fetching (profile32 (fetchingAt [0x60, 7, 8, 4])) ∧
      decode .w32 (imageFromPc (profile32 (fetchingAt [0x60, 7, 8, 4]))) = .error (.profileInvalid 4)) :=
  ⟨⟨fetching_start _ (by decide), rfl⟩, ⟨fetching_start _ (by decide), rfl⟩, ⟨fetching_start _ (by decide), rfl⟩,
    ⟨fetching_start _ (by decide), rfl⟩, ⟨fetching_start _ (by decide), rfl⟩, ⟨fetching_start _ (by decide), rfl⟩⟩

/-- ProfileValidity: the two opcodes at a fetching state of the 32-bit profile. -/
theorem test_witness_profile : (Fetching (profile32 (fetchingAt [0x44])) ∧ (profile32 (fetchingAt [0x44])).ptrWidth = .w32 ∧
      ((profile32 (fetchingAt [0x44])).mem.read 0x1000).toNat = 0x44) ∧
    (Fetching (profile32 (fetchingAt [0x54])) ∧ ((profile32 (fetchingAt [0x54])).mem.read 0x1000).toNat = 0x54) :=
  ⟨⟨fetching_start [0x44] (by decide), rfl, by decide⟩, ⟨fetching_start [0x54] (by decide), by decide⟩⟩

/-- R92, R109, R110: a field that ends at the cut is whole, one that runs past it is the one that faults. -/
theorem test_cut_fields : fieldLengths .w64 (.jccRI .je .uint64 1 0 (.ptr64 0x20)) = [1, 1, 1, 1, 1, 8, 8] ∧
    ([0, 1, 4, 5, 12, 13, 20].map fun k => cutFieldOffset k 0 [1, 1, 1, 1, 1, 8, 8]) = [0, 1, 4, 5, 5, 13, 13] := by
  decide

/-- TruncatedInstructionsFault: all but the last byte, and the opcode byte alone. -/
theorem test_witness_truncated :
    (Fetching (fetchingAt [0x51, 0x20]) ∧ (Instr.callShort 0x20).wellFormed .w64 = true ∧
      2 < (encode .w64 (.callShort 0x20)).length ∧
      imageFromPc (fetchingAt [0x51, 0x20]) = (encode .w64 (.callShort 0x20)).take 2) ∧
    (Fetching (fetchingAt [0x51]) ∧ imageFromPc (fetchingAt [0x51]) = (encode .w64 (.callShort 0x20)).take 1) :=
  ⟨⟨fetching_start _ (by decide), rfl, by decide, by decide⟩, ⟨fetching_start _ (by decide), by decide⟩⟩

/-- StepExecutesTheDecodedInstruction: an instruction that ends at `LIMIT`, and one with bytes after it. -/
theorem test_witness_step_executes :
    (Fetching (fetchingAt [0x18, 0x04]) ∧ decode .w64 (imageFromPc (fetchingAt [0x18, 0x04])) = .ok (.inc ⟨.r8, 4⟩, 2)) ∧
    (Fetching busy ∧ Instr.nop.wellFormed .w64 = true ∧ imageFromPc busy = encode .w64 .nop ++ [0x02]) :=
  ⟨⟨fetching_start _ (by decide), rfl⟩, ⟨⟨rfl, by decide, by decide⟩, rfl, by decide⟩⟩

/-- CursorBoundsAtTheStartOfAStep and CursorPredicates: at `LIMIT`, just below `START` and just above `LIMIT`. -/
theorem test_witness_cursor_bounds : busy.runState = .running ∧ (atPc 0x1002 busy).pc = (atPc 0x1002 busy).limit ∧
    ((atPc 0xFFF busy).pc ≠ (atPc 0xFFF busy).limit ∧ (atPc 0xFFF busy).pc < (atPc 0xFFF busy).start) ∧
    ((atPc 0x1003 busy).start ≤ (atPc 0x1003 busy).pc ∧ (atPc 0x1003 busy).limit < (atPc 0x1003 busy).pc) ∧
    ((atPc 0x1002 busy).cursorIsEnd = true ∧ (atPc 0xFFF busy).cursorIsUnderflow = true ∧
      (atPc 0x1003 busy).cursorIsOverflow = true ∧ (atPc 0x1003 busy).cursorIsEnd = false ∧
      busy.cursorIsOverflow = false ∧ busy.cursorIsUnderflow = false) := by decide

/-- OnlyARunningCoreSteps. -/
theorem test_witness_not_running : (busy.halt .exited).runState ≠ .running := by decide

/-- FaultsArePrecise and EndsOfALaunch: a step that faults, one that exits, one that ends and one that goes on. -/
theorem test_witness_ends : busy.runState = .running ∧
    ((fetchingAt [0x00]).runState = .running ∧
      step (fetchingAt [0x00]) = .next ((fetchingAt [0x00]).raiseFault .unknownOpcode 0)) ∧
    (next (step (fetchingAt [0x02]))).runState = .exited ∧ (next (step State.reset)).runState = .endOfStream ∧
    (next (step busy)).runState = .running :=
  ⟨rfl, ⟨rfl, rfl⟩, rfl, rfl, rfl⟩

/-- RunRepeatsStepUntilNotRunning: a run that ends (R308: `EXIT` after `NOP`), and a jump to itself at an aligned
address. -/
theorem test_witness_run : busy.Inv ∧ busy.runState = .running ∧ step busy = .next (busy.advance 1) ∧
    RunsTo busy (next (runFor 2 busy)) ∧ (next (runFor 2 busy)).runState = .exited ∧
    (Fetching (fetchingAt [0x40, 0x00]) ∧
      decode .w64 (imageFromPc (fetchingAt [0x40, 0x00])) = .ok (.jmpNear 0, 2) ∧
      jumpTarget? .w64 (fetchingAt [0x40, 0x00]).pc (.jmpNear 0) = some (fetchingAt [0x40, 0x00]).pc ∧
      (fetchingAt [0x40, 0x00]).pc % 16 = 0) :=
  ⟨test_busy_invariant, rfl, rfl, ⟨by decide, 2, rfl⟩, rfl, fetching_start _ (by decide), rfl, by decide, by decide⟩

/-- OnlyTheNamedInstructionsWrite: each clause's change happens somewhere. -/
theorem test_witness_writers : (next (exec (.inc ⟨.r8, 0⟩) busy)).regs ≠ busy.regs ∧
    (next (exec (.pushR ⟨.r8, 0⟩) busy)).sp ≠ busy.sp ∧ (next (exec .ret busy)).sp ≠ busy.sp ∧
    (next (exec (.callShort 0x10) (ledgerConv busy))).ledger ≠ busy.ledger ∧
    (next (exec .exit busy)).retDesc ≠ busy.retDesc ∧ (next (exec .exit busy)).runState ≠ busy.runState := by decide

/-- OverlayOfWidths: r16 bit 15 after a write of r8_high bit 7, and two slots. -/
theorem test_witness_overlay : (classLow .r8high ≤ 15 ∧ 15 < classLow .r8high + RegClass.r8high.bits ∧ classLow .r16 ≤ 15 ∧
    15 < classLow .r16 + RegClass.r16.bits) ∧ (31 : Slot) ≠ 0 := by decide

/-- MovesWriteTheirDestination: the widest immediate of each class fits. -/
theorem test_witness_moves : (Instr.movRI ⟨.r8high, 31⟩ 0xFF).wellFormed .w64 = true ∧
    (Instr.movRI ⟨.r64, 31⟩ 0xFFFFFFFFFFFFFFFF).wellFormed .w32 = true := by decide

/-- ArithmeticIsModular and WidthMismatchFaults: one class, and two classes of one slot with the bytes of the
instruction in the image. -/
theorem test_witness_classes : (RegId.mk .r8 0).cls = (RegId.mk .r8 1).cls ∧
    (RegId.mk .r8 0).cls ≠ (RegId.mk .r8high 0).cls ∧ Fetching (fetchingAt [0x20, 0x00, 0x20]) ∧
    imageFromPc (fetchingAt [0x20, 0x00, 0x20]) = encode .w64 (.addRR ⟨.r8, 0⟩ ⟨.r8high, 0⟩) ++ [] :=
  ⟨rfl, by decide, fetching_start _ (by decide), by decide⟩

/-- StackMovesByDirection, PushesStoreAtTheTop, PopLoadsFromTheTop: exactly the bytes there are, in both directions. -/
theorem test_witness_stack : (StackInBounds { busy with sp := 0x80F8 } ∧ 8 ≤ State.stackFree { busy with sp := 0x80F8 }) ∧
    (StackInBounds busy ∧ 8 ≤ busy.stackSize) ∧
    (StackInBounds (backward busy) ∧ 8 ≤ (backward busy).stackFree) ∧
    (StackInBounds { backward busy with sp := 0x80F8 } ∧ 8 ≤ State.stackSize { backward busy with sp := 0x80F8 }) := by
  unfold StackInBounds
  decide

/-- StackBoundsFault: one byte short of a push and of a pop. -/
theorem test_witness_stack_short : State.stackFree { busy with sp := 0x80F9 } < RegClass.r64.bytes ∧
    State.stackFree { busy with sp := 0x8100 } < DataType.bytes .w64 .int8 ∧
    State.stackSize { busy with sp := 0x8007 } < RegClass.r64.bytes := by decide

/-- PushThenPopGivesTheValueBack and MixedWidthPop: matching widths, the last 8 free bytes. -/
theorem test_witness_round_trip : DataType.int64 ∈ [DataType.int32, .uint32, .int64, .uint64] ∧
    RegClass.r64.bytes = DataType.bytes .w64 .int64 ∧ RegClass.r32.bytes = DataType.bytes .w32 .uint32 ∧
    (StackInBounds { busy with sp := 0x80F8 } ∧ 8 ≤ State.stackFree { busy with sp := 0x80F8 }) := by
  unfold StackInBounds
  decide

/-- StackPredicates: both directions, in bounds at a full stack. -/
theorem test_witness_stack_predicates : busy.stackDir = .forward ∧ (backward busy).stackDir = .backward ∧
    (StackInBounds { busy with sp := 0x8100 } ∧ State.stackIsOverflow { busy with sp := 0x8100 } = true) := by
  unfold StackInBounds
  decide

/-- JumpsReachTheirTargets: one target for each jump; an absolute one outside the image. -/
theorem test_witness_jumps : jumpTarget? .w64 0x1000 (.jmpNear 0x80) = some 0xF80 ∧
    jumpTarget? .w64 0x1000 (.jmpShort 0x7FF0) = some 0x8FF0 ∧ jumpTarget? .w32 0x1000 (.jmpLong 0xFFFFEFF0) = some 0xFFFFFFF0 ∧
    jumpTarget? .w64 0x1000 (.jmpPtr32 0xFFFFFFF0) = some 0xFFFFFFF0 ∧ jumpTarget? .w64 0x1000 (.jmpPtr64 0) = some 0 := by
  decide

/-- MisalignedTargetsFault: a target one past an aligned one for a jump, a call, each branch; a return. -/
theorem test_witness_misaligned : jumpTarget? .w64 0x1000 (.jmpNear 1) = some 0x1001 ∧
    callTarget? .w64 0x1000 (.callLong 0xFFFFFFFF) = some 0xFFF ∧
    (Target.near 1).jumpType.validIn busy.ptrWidth = true ∧
    condEval .je (busy.slotTyped .int8 2) (busy.slotTyped .int8 3) = true ∧
    condEval .jl (busy.slotTyped .int8 1) (readTyped busy.ptrWidth .int8 (0 : Word).toNat) = true ∧
    targetAddr busy.ptrWidth busy.pc (.near 1) % 16 ≠ 0 ∧ popReturn busy = .ok 0 { busy with sp := 0x8000 } := by decide

/-- CallsPushTheReturnAddress, CallsAppendToTheLedger and CallsWithoutRoomFault: each call's target; room for exactly one
return address; one byte less; a full ledger. -/
theorem test_witness_calls : callTarget? .w64 0x1000 (.callShort 0xFFF0) = some 0xFF0 ∧
    callTarget? .w64 0x1000 (.callLong 0x10) = some 0x1010 ∧ callTarget? .w64 0x1000 (.callPtr32 0x2000) = some 0x2000 ∧
    callTarget? .w64 0x1000 (.callPtr64 0x2000) = some 0x2000 ∧
    (busy.callConv = .stack ∧ StackInBounds { busy with sp := 0x80F8 } ∧
      busy.ptrWidth.bytes ≤ State.stackFree { busy with sp := 0x80F8 }) ∧
    State.stackFree { busy with sp := 0x80F9 } < busy.ptrWidth.bytes ∧
    ((ledgerConv busy).callConv = .ledger ∧ (ledgerConv busy).ledgerCapacity ≠ some (ledgerConv busy).ledger.length) ∧
    State.ledgerCapacity { ledgerConv busy with ledger := [⟨0, 0⟩], ledgerCapacity := some 1 } =
      some (State.ledger { ledgerConv busy with ledger := [⟨0, 0⟩], ledgerCapacity := some 1 }).length := by
  unfold StackInBounds
  decide

/-- ReturnTakesTheMostRecentAddress and EmptyReturnFaults. -/
theorem test_witness_returns : (busy.callConv = .stack ∧ StackInBounds busy ∧ busy.ptrWidth.bytes ≤ busy.stackSize) ∧
    State.stackSize { busy with sp := 0x8007 } < busy.ptrWidth.bytes ∧
    (ledgerConv busy).callConv = .ledger ∧ (ledgerConv busy).ledger = [] ∧
    State.ledger { ledgerConv busy with ledger := [⟨1, 2⟩, ⟨3, 4⟩] } = [⟨1, 2⟩] ++ [⟨3, 4⟩] := by
  unfold StackInBounds
  decide

/-- NestedCallsReturnToTheOutermostCallSite: two nested calls under the Stack convention. -/
theorem test_witness_nested_calls : busy.Inv ∧ busy.pc + (Instr.callShort 0x20).length busy.ptrWidth < 2 ^ busy.ptrWidth.bits ∧
    CallsNest [.callShort 0x20, .callPtr32 0x40] busy :=
  ⟨test_busy_invariant, by decide,
    ⟨0x1020, next (exec (.callShort 0x20) busy), rfl, rfl, fun _ => by decide, nofun, rfl,
      0x40, next (exec (.callPtr32 0x40) (next (exec (.callShort 0x20) busy))), rfl, rfl, fun _ => by decide, nofun, rfl,
      trivial⟩⟩

/-- The same under the Ledger convention, with a capacity of two. -/
theorem test_witness_nested_calls_ledger : State.Inv { ledgerConv busy with ledgerCapacity := some 2 } ∧
    (ledgerConv busy).pc + (Instr.callShort 0x20).length (ledgerConv busy).ptrWidth < 2 ^ (ledgerConv busy).ptrWidth.bits ∧
    CallsNest [.callShort 0x20, .callPtr32 0x40] { ledgerConv busy with ledgerCapacity := some 2 } :=
  ⟨{ test_busy_invariant with
      ledger_unused := nofun
      ledger_bound := fun k _ => Nat.zero_le k }, by decide, 0x1020, next (exec (.callShort 0x20) { ledgerConv busy with ledgerCapacity := some 2 }), rfl, rfl, nofun,
    fun _ => by decide, rfl, 0x40,
    next (exec (.callPtr32 0x40) (next (exec (.callShort 0x20) { ledgerConv busy with ledgerCapacity := some 2 }))), rfl, rfl,
    nofun, fun _ => by decide, rfl, trivial⟩

/-- ZeroTestsAreBinary, TypedOperandReading and SignednessOfComparisons: one zero operand; a tag of each kind; a low byte
of 0xFF. -/
theorem test_witness_compares : ((0 : Int) = 0 ↔ (5 : Int) ≠ 0) ∧ ((5 : Int) = 0 ↔ (0 : Int) ≠ 0) ∧
    DataType.int64 ∈ [DataType.int8, .int16, .int32, .int64] ∧
    DataType.pointer ∈ [DataType.uint8, .uint16, .uint32, .uint64, .pointer] ∧
    Cond.jnz ∈ [Cond.je, .jne, .jz, .jnz] ∧ busy.regs[(1 : Slot)].toNat % 256 = 0xFF := by decide

/-- ConditionalBranches: taken to an aligned target and not taken, for both forms. -/
theorem test_witness_branches : (Target.near 0x10).jumpType.validIn busy.ptrWidth = true ∧
    condEval .je (busy.slotTyped .int8 2) (busy.slotTyped .int8 3) = true ∧
    condEval .jne (busy.slotTyped .int8 2) (busy.slotTyped .int8 3) = false ∧
    condEval .jl (busy.slotTyped .int8 1) (readTyped busy.ptrWidth .int8 (0 : Word).toNat) = true ∧
    condEval .jl (busy.slotTyped .uint8 1) (readTyped busy.ptrWidth .uint8 (0 : Word).toNat) = false ∧
    targetAddr busy.ptrWidth busy.pc (.near 0x10) % 16 = 0 := by decide

/-- UnimplementedComparesFault: both opcodes as the last byte of the image. -/
theorem test_witness_unimplemented : (Fetching (fetchingAt [0x62]) ∧ ((fetchingAt [0x62]).mem.read 0x1000).toNat = 0x62) ∧
    (Fetching (fetchingAt [0x63]) ∧ ((fetchingAt [0x63]).mem.read 0x1000).toNat = 0x63) :=
  ⟨⟨fetching_start _ (by decide), by decide⟩, ⟨fetching_start _ (by decide), by decide⟩⟩

/-- A launch that meets every precondition: an image and a stack that touch, each at an end of the 32-bit space. -/
def tight : Launch where
  ptrWidth := 32
  imageBase := 0xFFFFFF00
  image := [0x01, 0x02]
  entryOffset := 0
  stackDir := .backward
  stackBase := 0xFFFFFEFF
  stackCapacity := 1
  callConv := .ledger
  ledgerCapacity := some 1
  regReset := Vector.replicate Config.numSlots 0xDEADBEEFDEADBEEF
  stackInit := [0x7F]

theorem tight_preconditions (entryOffset : Nat) (h : entryOffset < 0x100) :
    Launch.Preconditions { tight with entryOffset := entryOffset } where
  base_aligned := (by decide : 0xFFFFFF00 % 256 = 0)
  representable := ⟨(by decide : 0xFFFFFF00 + 2 ≤ 2 ^ 32), by show 0xFFFFFF00 + entryOffset < 2 ^ 32; omega,
    (by decide : 0xFFFFFEFF + 1 ≤ 2 ^ 32)⟩
  disjoint := by
    intro a h1 h2 h3
    have h4 : 0xFFFFFF00 ≤ a := h1
    have h5 : a < 0xFFFFFEFF + 1 := h3.2
    omega
  in_range := ⟨.inl rfl, Nat.le_refl 1, by intro k hk; cases hk; decide⟩

/-- AcceptedLaunchMeetsTheInvariant and ResetValues, and the clauses of EntryChecks: an aligned entry point, a misaligned
one, one at `LIMIT` (of an image of 16 bytes) and one past it. -/
theorem test_witness_launch : tight.Preconditions ∧ (tight.imageBase + tight.entryOffset) % 16 = 0 ∧
    Launch.Preconditions { tight with entryOffset := 8 } ∧ (tight.imageBase + 8) % 16 ≠ 0 ∧
    Launch.Preconditions { tight with entryOffset := 16 } ∧ (tight.imageBase + 16) % 16 = 0 ∧ tight.image.length < 16 :=
  ⟨tight_preconditions 0 (by decide), by decide, tight_preconditions 8 (by decide), by decide,
    tight_preconditions 16 (by decide), by decide, by decide⟩

/-- EntryChecks: the entry point at `LIMIT`. -/
theorem test_witness_entry_at_limit : Launch.Preconditions (Launch.standard []) ∧
    ((Launch.standard []).imageBase + (Launch.standard []).entryOffset) % 16 = 0 ∧
    (Launch.standard []).entryOffset = (Launch.standard []).image.length where
  left := {
    base_aligned := by decide
    representable := ⟨by decide, by decide, by decide⟩
    disjoint := by
      intro a h1 h2
      have h3 : 0x1000 ≤ a := h1
      have h4 : a < 0x1000 + 0 := h2
      omega
    in_range := ⟨.inr rfl, by decide, nofun⟩ }
  right := ⟨by decide, rfl⟩

/-- LaunchChecksInOrder: the hypotheses of the clauses of checks 1, 2, 3 and 4, and a refused launch. -/
theorem test_witness_launch_checks : (tight.imageBase + 1) % 256 ≠ 0 ∧ ¬ (tight.imageBase + 0x101 ≤ 2 ^ 32) ∧
    (tight.imageBase ≤ 0xFFFFFF00 ∧ 0xFFFFFF00 < tight.imageBase + tight.image.length ∧ tight.stackBase ≤ 0xFFFFFF00 ∧
      0xFFFFFF00 < tight.stackBase + 2) ∧ ¬ (1 ≤ 0) ∧
    (State.launch { tight with stackCapacity := 0 } State.reset).runState = .refused := by decide

/-- StatusWordLayout: a state with no fault and one with the greatest code. -/
theorem test_witness_status : busy.runState = .running ∧ busy.faultCode = none ∧
    (State.launch { Launch.standard [] with stackCapacity := 0 } State.reset).faultCode = some .launchRefused := by decide

/-- HostRegistersReadTheState: every address below `2^PTR_WIDTH`, a ledger of 32 bits' depth. -/
theorem test_witness_host_registers : busy.Inv ∧ busy.limit < 2 ^ busy.ptrWidth.bits ∧ busy.last < 2 ^ busy.ptrWidth.bits ∧
    busy.ledger.length < 2 ^ 32 :=
  ⟨test_busy_invariant, by decide, by decide, by decide⟩

/-- HostWritesOnlyTheImage: the last image byte of a core that has exited. -/
theorem test_witness_host_writes : ((busy.halt .exited).hostStoreImage 0x1001 1 0x58).isSome = true ∧
    ((busy.halt .exited).hostStoreImage 0x1001 2 0x58).isSome = false := by decide

end Sys2Proof.Tests
end

section
/-! The register overlay (R23, R24, R26), the stack by direction (R36, R37), the cursor predicates (R31) and `CONFIG`
(R49). -/

namespace Sys2Proof.Machine

/-! ## Fields of a slot, bit by bit -/

/-- A class covers `W(c)` bits of the 64-bit slot from its lowest one up. -/
theorem classLow_add_bits_le (c : RegClass) : classLow c + c.bits ≤ 64 := by
  cases c <;> decide

/-- `readField_eq` with the class's lowest bit written by `classLow`. -/
theorem readField_eq_div_mod (c : RegClass) (x : Word) : readField c x = x.toNat / 2 ^ classLow c % 2 ^ c.bits := by
  rw [readField_eq]
  cases c <;> rfl

theorem testBit_readField (c : RegClass) (x : Word) (i : Nat) :
    (readField c x).testBit i = (decide (i < c.bits) && x.getLsbD (classLow c + i)) := by
  rw [readField_eq_div_mod, Nat.testBit_mod_two_pow, Nat.testBit_div_two_pow, Nat.add_comm]
  rfl

/-- The low `n` bits replaced by a value's, the bits above kept: the form of a write at `r8`, `r16` and `r32`. -/
theorem getLsbD_replaceLow {w n : Nat} (x : Word) (v : Nat) {j : Nat} (hj : j < w + n) :
    (x.extractLsb' n w ++ BitVec.ofNat n v).getLsbD j = if j < n then v.testBit j else x.getLsbD j := by
  rw [BitVec.getLsbD_append, BitVec.getLsbD_ofNat, BitVec.getLsbD_extractLsb']
  split
  · next hlow => simp [hlow]
  · next hhigh => simp [show j - n < w by omega, show n + (j - n) = j by omega]

/-- The same for the second byte, between the kept first byte and the kept bits above. -/
theorem getLsbD_replaceHighByte (x : Word) (v : Nat) {j : Nat} (hj : j < 64) :
    (x.extractLsb' 16 48 ++ (BitVec.ofNat 8 v ++ x.extractLsb' 0 8)).getLsbD j =
      if 8 ≤ j ∧ j < 16 then v.testBit (j - 8) else x.getLsbD j := by
  simp only [BitVec.getLsbD_append, BitVec.getLsbD_ofNat, BitVec.getLsbD_extractLsb']
  by_cases hlow : j < 8
  · simp [hlow, show j < 16 by omega, show ¬ 8 ≤ j by omega]
  by_cases hmid : j < 16
  · simp [hlow, hmid, show 8 ≤ j by omega, show j - 8 < 8 by omega]
  · simp [hmid, show j - 16 < 48 by omega, show 16 + (j - 16) = j by omega]

/-- A written field holds the value's bits where the class names them, and the slot's own bits elsewhere. -/
theorem getLsbD_writeField (c : RegClass) (x : Word) (v : Nat) {j : Nat} (hj : j < 64) :
    (writeField c x v).getLsbD j =
      if classLow c ≤ j ∧ j < classLow c + c.bits then v.testBit (j - classLow c) else x.getLsbD j := by
  cases c <;> simp only [writeField, classLow, RegClass.bits, RegClass.bytes]
  case r8 => simpa using getLsbD_replaceLow (w := 56) (n := 8) x v hj
  case r8high => exact getLsbD_replaceHighByte x v hj
  case r16 => simpa using getLsbD_replaceLow (w := 48) (n := 16) x v hj
  case r32 => simpa using getLsbD_replaceLow (w := 32) (n := 32) x v hj
  case r64 =>
    rw [BitVec.getLsbD_ofNat]
    simp [hj]

/-! ## Registers -/

theorem regWritten_regWrite (s : State) (r : RegId) (v : Nat) : RegWritten s (s.regWrite r v) r v := by
  refine ⟨fun j hj => ?_, regWrite_get_other s r v⟩
  rw [regWrite_get_self, getLsbD_writeField _ _ _ hj]

/-- What any class of the written slot reads after a write, bit by bit. -/
theorem testBit_regRead_regWrite (s : State) (k : Slot) (c d : RegClass) (v : Nat) {i : Nat} (hi : i < d.bits) :
    ((s.regWrite ⟨c, k⟩ v).regRead ⟨d, k⟩).testBit i =
      if classLow c ≤ classLow d + i ∧ classLow d + i < classLow c + c.bits
      then v.testBit (classLow d + i - classLow c) else (s.regRead ⟨d, k⟩).testBit i := by
  have hd := classLow_add_bits_le d
  simp only [State.regRead, testBit_readField, hi, decide_true, Bool.true_and]
  exact (regWritten_regWrite s ⟨c, k⟩ v).1 _ (by omega)

/-- Two classes of a slot that share no bit do not disturb each other. -/
theorem regRead_regWrite_of_disjoint (s : State) (k : Slot) (c d : RegClass) (v : Nat)
    (h : classLow c + c.bits ≤ classLow d ∨ classLow d + d.bits ≤ classLow c) :
    (s.regWrite ⟨c, k⟩ v).regRead ⟨d, k⟩ = s.regRead ⟨d, k⟩ := by
  refine Nat.eq_of_testBit_eq fun i => ?_
  by_cases hi : i < d.bits
  · rw [testBit_regRead_regWrite _ _ _ _ _ hi, if_neg (by omega)]
  · simp [State.regRead, testBit_readField, hi]

theorem regRead_regWrite_same (s : State) (r : RegId) (v : Nat) :
    (s.regWrite r v).regRead r = v % 2 ^ r.cls.bits := by
  refine Nat.eq_of_testBit_eq fun i => ?_
  rw [Nat.testBit_mod_two_pow]
  by_cases hi : i < r.cls.bits
  · rw [testBit_regRead_regWrite s r.slot r.cls r.cls v hi, if_pos (by omega)]
    simp [hi]
  · simp [State.regRead, testBit_readField, hi]

theorem regRead_regWrite_other_slot (s : State) (r q : RegId) (v : Nat) (h : q.slot ≠ r.slot) :
    (s.regWrite r v).regRead q = s.regRead q := by
  rw [State.regRead, regWrite_get_other s r v q.slot h, State.regRead]

/-- Settles O21: a class reads as a quotient and a remainder of its slot. -/
theorem regReadNamesTheBits : Obligations.RegReadNamesTheBits := by
  intro s k
  have hr (c : RegClass) : s.regRead ⟨c, k⟩ = s.regs[k].toNat / 2 ^ classLow c % 2 ^ c.bits :=
    readField_eq_div_mod c s.regs[k]
  have hlow (c : RegClass) (hc : classLow c = 0) : s.regRead ⟨c, k⟩ = s.regs[k].toNat % 2 ^ c.bits := by
    rw [hr, hc, Nat.pow_zero, Nat.div_one]
  exact ⟨hlow .r8 rfl, hr .r8high, hlow .r16 rfl, hlow .r32 rfl, rfl⟩

/-- Settles O22: the written bits are those of the field, and the update touches no field but `regs`. -/
theorem regWriteReplacesExactlyTheClassBits : Obligations.RegWriteReplacesExactlyTheClassBits :=
  fun s r v => ⟨regWritten_regWrite s r v, rfl⟩

/-- Settles O23, each part from what a class reads after a write, bit by bit. -/
theorem overlayOfWidths : Obligations.OverlayOfWidths := by
  refine ⟨regRead_regWrite_same, fun s k v => ⟨?_, ?_⟩, ?_, regRead_regWrite_other_slot⟩
  · exact regRead_regWrite_of_disjoint s k .r8 .r8high v (by decide)
  · exact regRead_regWrite_of_disjoint s k .r8high .r8 v (by decide)
  · intro s k c d v j hc hc' hd hd'
    have hj : classLow d + (j - classLow d) = j := by omega
    rw [testBit_regRead_regWrite _ _ _ _ _ (by omega), hj, if_pos ⟨hc, hc'⟩]

/-! ## The operand stack -/

section StackByDirection

variable {s : State}

theorem State.stackFree_of_forward (hd : s.stackDir = .forward) (hin : StackInBounds s) :
    s.stackFree = s.last - s.sp := by
  obtain ⟨hlow, hhigh⟩ := hin
  simp only [State.stackFree, State.stackCapacity, State.stackSize, hd]
  omega

theorem State.stackFree_of_backward (hd : s.stackDir = .backward) (hin : StackInBounds s) :
    s.stackFree = s.sp - s.first := by
  obtain ⟨hlow, hhigh⟩ := hin
  simp only [State.stackFree, State.stackCapacity, State.stackSize, hd]
  omega

/-- A push with room moves `sp` by `dir * n` (R35, R71). -/
theorem State.pushSp_eq_add {n : Nat} (hin : StackInBounds s) (hn : n ≤ s.stackFree) :
    (s.pushSp n : Int) = s.sp + (if s.stackDir = .forward then (n : Int) else -n) := by
  cases hd : s.stackDir with
  | forward => simp [State.pushSp, hd]
  | backward =>
    rw [State.stackFree_of_backward hd hin] at hn
    simp only [State.pushSp, hd, reduceCtorEq, if_false]
    omega

/-- A pop with enough bytes moves `sp` back by `dir * n` (R35, R72). -/
theorem State.popSp_eq_sub {n : Nat} (hn : n ≤ s.stackSize) :
    (s.popSp n : Int) = s.sp - (if s.stackDir = .forward then (n : Int) else -n) := by
  cases hd : s.stackDir with
  | forward =>
    simp only [State.stackSize, hd] at hn
    simp only [State.popSp, hd, if_true]
    omega
  | backward => simp [State.popSp, hd]

theorem State.pushAddr_eq_ite (s : State) (n : Nat) :
    s.pushAddr n = if s.stackDir = .forward then s.sp else s.pushSp n := by
  cases hd : s.stackDir <;> simp [State.pushAddr, State.pushSp, hd]

theorem State.popAddr_eq_ite (s : State) (n : Nat) :
    s.popAddr n = if s.stackDir = .forward then s.popSp n else s.sp := by
  cases hd : s.stackDir <;> simp [State.popAddr, State.popSp, hd]

/-- The size is the distance of `sp` from its resting point, an exact difference in bounds (R36). -/
theorem State.stackSize_eq_sub (hin : StackInBounds s) :
    (s.stackSize : Int) = if s.stackDir = .forward then (s.sp : Int) - s.first else (s.last : Int) - s.sp := by
  obtain ⟨hlow, hhigh⟩ := hin
  cases hd : s.stackDir <;> simp only [State.stackSize, hd, reduceCtorEq, if_true, if_false] <;> omega

theorem State.stackFree_eq_sub (hin : StackInBounds s) :
    (s.stackFree : Int) = ((s.last : Int) - s.first) - s.stackSize := by
  obtain ⟨hlow, hhigh⟩ := hin
  have hsum := State.size_add_free hlow hhigh
  rw [State.stackCapacity] at hsum
  omega

theorem State.stackIsOverflow_iff_of_forward (hd : s.stackDir = .forward) :
    s.stackIsOverflow = true ↔ s.last ≤ s.sp := by
  simp [State.stackIsOverflow, hd]

theorem State.stackIsOverflow_iff_of_backward (hd : s.stackDir = .backward) :
    s.stackIsOverflow = true ↔ s.sp ≤ s.first := by
  simp [State.stackIsOverflow, hd]

theorem State.stackIsUnderflow_iff_of_forward (hd : s.stackDir = .forward) :
    s.stackIsUnderflow = true ↔ s.sp < s.first := by
  simp [State.stackIsUnderflow, hd]

theorem State.stackIsUnderflow_iff_of_backward (hd : s.stackDir = .backward) :
    s.stackIsUnderflow = true ↔ s.last < s.sp := by
  simp [State.stackIsUnderflow, hd]

/-- In bounds the overflow predicate says that the stack is full (R37). -/
theorem State.stackIsOverflow_iff_full (hin : StackInBounds s) : s.stackIsOverflow = true ↔ s.stackFree = 0 := by
  cases hd : s.stackDir with
  | forward =>
    rw [State.stackIsOverflow_iff_of_forward hd, State.stackFree_of_forward hd hin, Nat.sub_eq_zero_iff_le]
  | backward =>
    rw [State.stackIsOverflow_iff_of_backward hd, State.stackFree_of_backward hd hin, Nat.sub_eq_zero_iff_le]

/-- In bounds the underflow predicate is false (R38). -/
theorem State.stackIsUnderflow_eq_false (hin : StackInBounds s) : s.stackIsUnderflow = false := by
  obtain ⟨hlow, hhigh⟩ := hin
  rw [← Bool.not_eq_true]
  cases hd : s.stackDir with
  | forward => rw [State.stackIsUnderflow_iff_of_forward hd, Nat.not_lt]; exact hlow
  | backward => rw [State.stackIsUnderflow_iff_of_backward hd, Nat.not_lt]; exact hhigh

end StackByDirection

/-- Settles O27: each move read off the direction, and the bounds of the accesses as `Push` and `Pop` check them. -/
theorem stackMovesByDirection : Obligations.StackMovesByDirection := by
  intro s n hin
  refine ⟨fun hn => ?_, fun hn => ?_, State.stackSize_eq_sub hin, State.stackFree_eq_sub hin⟩
  · obtain ⟨hfirst, hlast⟩ := State.inStack_iff.1 (State.pushAddr_inStack hin.1 hin.2 hn).1
    exact ⟨State.pushSp_eq_add hin hn, State.pushAddr_eq_ite s n, hfirst, hlast⟩
  · obtain ⟨hfirst, hlast⟩ := State.inStack_iff.1 (State.popAddr_inStack hin.1 hin.2 hn).1
    exact ⟨State.popSp_eq_sub hn, State.popAddr_eq_ite s n, hfirst, hlast⟩

/-- Settles O33: the comparisons of R37, and in bounds what they say of the free bytes. -/
theorem stackPredicates : Obligations.StackPredicates := fun _ =>
  ⟨fun hd => ⟨State.stackIsOverflow_iff_of_forward hd, State.stackIsUnderflow_iff_of_forward hd⟩,
    fun hd => ⟨State.stackIsOverflow_iff_of_backward hd, State.stackIsUnderflow_iff_of_backward hd⟩,
    fun hin => ⟨State.stackIsOverflow_iff_full hin, State.stackIsUnderflow_eq_false hin⟩⟩

/-! ## The `CONFIG` word -/

theorem toNat_ofBool_beq {α : Type} [DecidableEq α] (a b : α) :
    (BitVec.ofBool (a == b)).toNat = if a = b then 1 else 0 := by
  by_cases h : a = b <;> simp [h]

/-- A bit above `n` others adds its weight. -/
theorem toNat_ofBool_beq_append {α : Type} [DecidableEq α] {n : Nat} (a b : α) (x : BitVec n) :
    (BitVec.ofBool (a == b) ++ x).toNat = (if a = b then 2 ^ n else 0) + x.toNat := by
  rw [BitVec.toNat_append, ← Nat.shiftLeft_add_eq_or_of_lt x.isLt, toNat_ofBool_beq, Nat.shiftLeft_eq]
  split <;> simp

/-- Settles O54: each bit adds its weight. -/
theorem configWordLayout : Obligations.ConfigWordLayout := by
  intro s
  rw [State.configWord, BitVec.toNat_append, BitVec.ofNat_eq_ofNat, BitVec.toNat_zero, Nat.zero_shiftLeft, Nat.zero_or,
    toNat_ofBool_beq_append, toNat_ofBool_beq_append, toNat_ofBool_beq]
  simp only [Nat.reduceAdd, Nat.reducePow]
  omega

/-! ## The cursor -/

section Cursor

variable {s : State}

@[simp] theorem State.cursorIsEnd_iff : s.cursorIsEnd = true ↔ s.pc = s.limit := by
  simp [State.cursorIsEnd]

@[simp] theorem State.cursorIsOverflow_iff : s.cursorIsOverflow = true ↔ s.limit ≤ s.pc := by
  simp [State.cursorIsOverflow]

@[simp] theorem State.cursorIsUnderflow_iff : s.cursorIsUnderflow = true ↔ s.pc < s.start := by
  simp [State.cursorIsUnderflow]

/-- At `LIMIT` a Running core's step is the end of the stream (R307). -/
theorem step_at_limit (hr : s.runState = .running) (h : s.pc = s.limit) : step s = .next (s.halt .endOfStream) :=
  step_ended (by simp [State.stepAction, hr, h])

/-- Below `START` a Running core faults (R307). -/
theorem step_below_start (hr : s.runState = .running) (hne : s.pc ≠ s.limit) (h : s.pc < s.start) :
    step s = .next (s.raiseFault .cursorUnderflow s.pc) :=
  step_trap (by simp [State.stepAction, hr, hne, h])

/-- Above `LIMIT` a Running core faults (R307). -/
theorem step_above_limit (hr : s.runState = .running) (hs : s.start ≤ s.pc) (h : s.limit < s.pc) :
    step s = .next (s.raiseFault .cursorOverflow s.pc) :=
  step_trap (by simp [State.stepAction, hr, h, Nat.ne_of_gt h, Nat.not_lt.2 hs])

end Cursor

/-- Settles O55: the predicates as comparisons, then the step on each side of `START` and `LIMIT`. -/
theorem cursorPredicates : Obligations.CursorPredicates := by
  intro s
  simp only [← Bool.not_eq_true, State.cursorIsEnd_iff, State.cursorIsOverflow_iff, State.cursorIsUnderflow_iff,
    Nat.not_lt, Nat.not_le, true_and]
  refine ⟨fun h => Nat.le_of_eq h.symm, fun hr h => ?_, fun hr hne h => ?_, fun hr hne hs h => ?_, fun hs h hr => ?_⟩
  · exact ⟨_, step_at_limit hr h, rfl, rfl⟩
  · exact ⟨_, step_below_start hr hne h, faultTaken_raiseFault _ _ _⟩
  · exact ⟨_, step_above_limit hr hs (by omega), faultTaken_raiseFault _ _ _⟩
  · exact ⟨hr, hs, h⟩

end Sys2Proof.Machine
end

section
/-! How much of the image decoding looks at (R117), what each field decoder answers on one byte (R115), and what an
opcode byte makes of the fields after it (R111, R112). -/

namespace Sys2Proof

open Sys2Proof.Machine

/-! ## Decoding looks at the longest instruction only -/

/-- Two answers of a decoder are the same up to the bytes that follow: the first keeps at least `k` of them. -/
inductive Decoded.SameUpTo {α : Type} (k : Nat) : Decoded α → Decoded α → Prop
  | ok (a : α) (o : Nat) (bs : List Byte) (m : Nat) (h : k ≤ m) : SameUpTo k (.ok a ⟨o, bs.take m⟩) (.ok a ⟨o, bs⟩)
  | error (e : DecodeError) : SameUpTo k (.error e) (.error e)

theorem Decoded.SameUpTo.mono {α : Type} {k k' : Nat} {r r' : Decoded α} (h : r.SameUpTo k r') (hk : k' ≤ k) :
    r.SameUpTo k' r' := by
  cases h with
  | ok a o bs m hm => exact .ok a o bs m (Nat.le_trans hk hm)
  | error e => exact .error e

/-- The decoder looks at no more than `n` bytes: those beyond are only handed on. -/
def LooksAt {α : Type} (n : Nat) (f : Cursor → Decoded α) : Prop :=
  ∀ (o : Nat) (bs : List Byte) (m : Nat), n ≤ m → (f ⟨o, bs.take m⟩).SameUpTo (m - n) (f ⟨o, bs⟩)

theorem LooksAt.mono {α : Type} {n n' : Nat} {f : Cursor → Decoded α} (h : LooksAt n f) (hn : n ≤ n') : LooksAt n' f :=
  fun o bs m hm => (h o bs m (Nat.le_trans hn hm)).mono (Nat.sub_le_sub_left hn m)

theorem looksAt_ok {α : Type} (a : α) : LooksAt 0 (Decoded.ok a) :=
  fun o bs m _ => .ok a o bs m (Nat.sub_le m 0)

theorem looksAt_error {α : Type} (e : DecodeError) : LooksAt 0 fun _ => (Decoded.error e : Decoded α) :=
  fun _ _ _ _ => .error e

/-- A sequence of fields looks at the bytes of each. -/
theorem LooksAt.andThen {α β : Type} {n n' : Nat} {f : Cursor → Decoded α} {g : α → Cursor → Decoded β}
    (hf : LooksAt n f) (hg : ∀ a, LooksAt n' (g a)) : LooksAt (n + n') fun c => (f c).andThen g := by
  intro o bs m hm
  have h := hf o bs m (by omega)
  show ((f ⟨o, bs.take m⟩).andThen g).SameUpTo _ ((f ⟨o, bs⟩).andThen g)
  generalize f ⟨o, bs.take m⟩ = r, f ⟨o, bs⟩ = r' at h
  cases h with
  | ok a o' bs' m' hm' => exact (hg a o' bs' m' (by omega)).mono (by omega)
  | error e => exact .error e

theorem looksAt_fetch (n : Nat) : LooksAt n (fetch n) := by
  intro o bs m hm
  by_cases hs : bs.length < n
  · rw [fetch_short (c := ⟨o, bs⟩) hs, fetch_short (by simp; omega)]
    exact .error _
  · have hs' : ¬ (bs.take m).length < n := by simp; omega
    simp only [fetch, hs, hs', if_false, List.take_take, Nat.min_eq_left hm, List.drop_take]
    exact .ok _ _ _ _ (Nat.le_refl _)

theorem looksAt_fetchTag {α : Type} (ofCode? : Nat → Option α) (unknown : Nat → DecodeError) :
    LooksAt 1 (fetchTag ofCode? unknown) := by
  refine (looksAt_fetch 1).andThen (n' := 0) fun b => ?_
  cases ofCode? b with
  | some a => exact looksAt_ok a
  | none => exact looksAt_error _

theorem looksAt_fetchReg : LooksAt 1 fetchReg := looksAt_fetchTag _ _
theorem looksAt_fetchSlot : LooksAt 1 fetchSlot := looksAt_fetchTag _ _
theorem looksAt_fetchDataType : LooksAt 1 fetchDataType := looksAt_fetchTag _ _
theorem looksAt_fetchCond : LooksAt 1 fetchCond := looksAt_fetchTag _ _

theorem looksAt_fetchJumpType (w : PtrWidth) : LooksAt 1 (fetchJumpType w) := by
  refine (looksAt_fetchTag _ _).andThen (n' := 0) fun jt => ?_
  cases jt.validIn w
  · exact looksAt_error _
  · exact looksAt_ok jt

theorem looksAt_fetchImm (n : Nat) : LooksAt n (fetchImm n) :=
  (looksAt_fetch n).andThen fun _ => looksAt_ok _

theorem looksAt_fetchTarget (jt : JumpType) : LooksAt jt.bytes (fetchTarget jt) :=
  (looksAt_fetch _).andThen fun _ => looksAt_ok _

theorem RegClass.bytes_le (c : RegClass) : c.bytes ≤ 8 := by
  cases c <;> decide

theorem DataType.bytes_le (w : PtrWidth) (dt : DataType) : dt.bytes w ≤ 8 := by
  cases w <;> cases dt <;> decide

theorem JumpType.bytes_le (jt : JumpType) : jt.bytes ≤ 8 := by
  cases jt <;> decide

theorem looksAt_decodeFR (mk : RegId → Instr) : LooksAt 1 (decodeFR mk) :=
  looksAt_fetchReg.andThen fun _ => looksAt_ok _

theorem looksAt_decodeFRR (mk : RegId → RegId → Instr) : LooksAt 2 (decodeFRR mk) :=
  looksAt_fetchReg.andThen fun _ => looksAt_fetchReg.andThen fun _ => looksAt_ok _

theorem looksAt_decodeFRROneWidth (mk : RegId → RegId → Instr) : LooksAt 2 (decodeFRROneWidth mk) := by
  refine looksAt_fetchReg.andThen fun rd => looksAt_fetchReg.andThen (n' := 0) fun rs => ?_
  by_cases h : rd.cls = rs.cls
  · simpa only [h, if_true] using looksAt_ok _
  · simpa only [h, if_false] using looksAt_error _

theorem looksAt_decodeFRI (mk : RegId → Word → Instr) : LooksAt 9 (decodeFRI mk) :=
  looksAt_fetchReg.andThen (n' := 8) fun rd =>
    ((looksAt_fetchImm _).andThen fun _ => looksAt_ok _).mono rd.cls.bytes_le

theorem looksAt_decodeFDI (w : PtrWidth) (mk : DataType → Word → Instr) : LooksAt 9 (decodeFDI w mk) :=
  looksAt_fetchDataType.andThen (n' := 8) fun dt =>
    ((looksAt_fetchImm _).andThen fun _ => looksAt_ok _).mono (dt.bytes_le w)

theorem looksAt_decodeFJ (bits : Nat) (mk : BitVec bits → Instr) : LooksAt (bits / 8) (decodeFJ bits mk) :=
  (looksAt_fetch _).andThen fun _ => looksAt_ok _

theorem looksAt_decodePtr64 (w : PtrWidth) (op : Nat) (mk : BitVec 64 → Instr) : LooksAt 8 (decodePtr64 w op mk) := by
  cases w with
  | w32 => exact (looksAt_error _).mono (by decide)
  | w64 => exact looksAt_decodeFJ 64 mk

theorem looksAt_decodeFCRR (w : PtrWidth) : LooksAt 13 (decodeFCRR w) :=
  looksAt_fetchCond.andThen fun _ => looksAt_fetchDataType.andThen fun _ =>
  (looksAt_fetchJumpType w).andThen fun jt => looksAt_fetchSlot.andThen fun _ =>
  looksAt_fetchSlot.andThen (n' := 8) fun _ =>
    ((looksAt_fetchTarget jt).andThen fun _ => looksAt_ok _).mono jt.bytes_le

theorem looksAt_decodeFCRI (w : PtrWidth) : LooksAt 20 (decodeFCRI w) :=
  looksAt_fetchCond.andThen fun _ => looksAt_fetchDataType.andThen fun dt =>
  (looksAt_fetchJumpType w).andThen fun jt => looksAt_fetchSlot.andThen (n' := 16) fun _ =>
    ((looksAt_fetchImm _).andThen fun _ => (looksAt_fetchTarget jt).andThen fun _ => looksAt_ok _).mono
      (Nat.add_le_add (dt.bytes_le w) jt.bytes_le)

/-- The longest operand fields are those of `JCC_RI` (R110, R117). -/
theorem looksAt_decodeFields (w : PtrWidth) (op : Nat) : LooksAt 20 (decodeFields w op) := by
  intro o bs m hm
  unfold decodeFields
  split
  case h_1 | h_2 | h_25 | h_28 | h_29 => exact (looksAt_ok _).mono (by decide) o bs m hm
  case h_3 => exact (looksAt_decodeFRR _).mono (by decide) o bs m hm
  case h_4 | h_8 | h_10 | h_12 => exact (looksAt_decodeFRI _).mono (by decide) o bs m hm
  case h_5 | h_6 | h_13 | h_14 => exact (looksAt_decodeFR _).mono (by decide) o bs m hm
  case h_7 | h_9 | h_11 => exact (looksAt_decodeFRROneWidth _).mono (by decide) o bs m hm
  case h_15 => exact (looksAt_decodeFDI w _).mono (by decide) o bs m hm
  case h_16 | h_17 | h_18 | h_19 | h_21 | h_22 | h_23 => exact (looksAt_decodeFJ _ _).mono (by decide) o bs m hm
  case h_20 | h_24 => exact (looksAt_decodePtr64 w _ _).mono (by decide) o bs m hm
  case h_26 => exact (looksAt_decodeFCRR w).mono (by decide) o bs m hm
  case h_27 => exact looksAt_decodeFCRI w o bs m hm
  case h_30 => exact .error _

/-- Bytes beyond the longest instruction do not change what decodes. -/
theorem decode_take (w : PtrWidth) (bytes : List Byte) {m : Nat} (hm : Config.maxLength ≤ m) :
    decode w (bytes.take m) = decode w bytes := by
  have h : ((fetch 1 ⟨0, bytes.take m⟩).andThen (decodeFields w)).SameUpTo (m - Config.maxLength)
      ((fetch 1 ⟨0, bytes⟩).andThen (decodeFields w)) :=
    (looksAt_fetch 1).andThen (looksAt_decodeFields w) 0 bytes m hm
  unfold decode
  generalize (fetch 1 ⟨0, bytes.take m⟩).andThen (decodeFields w) = r,
    (fetch 1 ⟨0, bytes⟩).andThen (decodeFields w) = r' at h ⊢
  cases h <;> rfl

/-! ## One field from its byte

The numbers that name a value are those below the number of values (R115). -/

theorem RegClass.ofCode?_eq_none_iff {n : Nat} : RegClass.ofCode? n = none ↔ 5 ≤ n := by
  fun_cases RegClass.ofCode? n <;> grind

theorem RegId.ofCode?_eq_none_iff {n : Nat} : RegId.ofCode? n = none ↔ 160 ≤ n := by
  rw [RegId.ofCode?_eq, Option.map_eq_none_iff, RegClass.ofCode?_eq_none_iff]
  omega

theorem Slot.ofCode?_eq_none_iff {n : Nat} : Slot.ofCode? n = none ↔ 32 ≤ n := by
  simp [Slot.ofCode?]

theorem DataType.ofCode?_eq_none_iff {n : Nat} : DataType.ofCode? n = none ↔ 9 ≤ n := by
  fun_cases DataType.ofCode? n <;> grind

theorem Cond.ofCode?_eq_none_iff {n : Nat} : Cond.ofCode? n = none ↔ 8 ≤ n := by
  fun_cases Cond.ofCode? n <;> grind

theorem JumpType.ofCode?_eq_none_iff {n : Nat} : JumpType.ofCode? n = none ↔ 5 ≤ n := by
  fun_cases JumpType.ofCode? n <;> grind

theorem RegId.code_div_32 (r : RegId) : r.code / 32 = r.cls.code := by
  have h := r.slot.val_lt
  rw [RegId.code_eq]
  omega

/-- A jump type is valid in both profiles, but for Ptr64 (R96). -/
theorem JumpType.validIn_of_code {w : PtrWidth} {jt : JumpType} (h : jt.code = 4 → w = .w64) : jt.validIn w = true := by
  cases jt with
  | ptr64 => simp [JumpType.validIn, h rfl]
  | near | short | long | ptr32 => rfl

section OneByte

variable {o : Nat} {b : Byte} {bs : List Byte}

theorem fetch_one : fetch 1 ⟨o, b :: bs⟩ = .ok b.toNat ⟨o + 1, bs⟩ := by
  simp [fetch, leNat]

theorem fetchTag_unknown {α : Type} {ofCode? : Nat → Option α} {unknown : Nat → DecodeError}
    (h : ofCode? b.toNat = none) : fetchTag ofCode? unknown ⟨o, b :: bs⟩ = .error (unknown b.toNat) := by
  simp [fetchTag, fetch_one, h]

theorem fetchTag_known {α : Type} {ofCode? : Nat → Option α} {unknown : Nat → DecodeError}
    (h : ofCode? b.toNat ≠ none) :
    ∃ a, ofCode? b.toNat = some a ∧ fetchTag ofCode? unknown ⟨o, b :: bs⟩ = .ok a ⟨o + 1, bs⟩ := by
  obtain ⟨a, ha⟩ := Option.ne_none_iff_exists'.1 h
  exact ⟨a, ha, by simp [fetchTag, fetch_one, ha]⟩

theorem fetchReg_unknown (h : 160 ≤ b.toNat) : fetchReg ⟨o, b :: bs⟩ = .error (.unknownRegister b.toNat) :=
  fetchTag_unknown (RegId.ofCode?_eq_none_iff.2 h)

theorem fetchReg_known (h : b.toNat < 160) :
    ∃ r : RegId, r.code = b.toNat ∧ fetchReg ⟨o, b :: bs⟩ = .ok r ⟨o + 1, bs⟩ := by
  obtain ⟨r, hr, hf⟩ := fetchTag_known (mt RegId.ofCode?_eq_none_iff.1 (Nat.not_le.2 h))
  exact ⟨r, RegId.code_of_ofCode? hr, hf⟩

theorem fetchSlot_unknown (h : 32 ≤ b.toNat) : fetchSlot ⟨o, b :: bs⟩ = .error (.unknownRegister b.toNat) :=
  fetchTag_unknown (Slot.ofCode?_eq_none_iff.2 h)

theorem fetchSlot_known (h : b.toNat < 32) : ∃ k, fetchSlot ⟨o, b :: bs⟩ = .ok k ⟨o + 1, bs⟩ := by
  obtain ⟨k, -, hf⟩ := fetchTag_known (mt Slot.ofCode?_eq_none_iff.1 (Nat.not_le.2 h))
  exact ⟨k, hf⟩

theorem fetchDataType_unknown (h : 9 ≤ b.toNat) :
    fetchDataType ⟨o, b :: bs⟩ = .error (.unknownDataType b.toNat) :=
  fetchTag_unknown (DataType.ofCode?_eq_none_iff.2 h)

theorem fetchDataType_known (h : b.toNat < 9) : ∃ dt, fetchDataType ⟨o, b :: bs⟩ = .ok dt ⟨o + 1, bs⟩ := by
  obtain ⟨dt, -, hf⟩ := fetchTag_known (mt DataType.ofCode?_eq_none_iff.1 (Nat.not_le.2 h))
  exact ⟨dt, hf⟩

theorem fetchCond_unknown (h : 8 ≤ b.toNat) : fetchCond ⟨o, b :: bs⟩ = .error (.unknownCondition b.toNat) :=
  fetchTag_unknown (Cond.ofCode?_eq_none_iff.2 h)

theorem fetchCond_known (h : b.toNat < 8) : ∃ cc, fetchCond ⟨o, b :: bs⟩ = .ok cc ⟨o + 1, bs⟩ := by
  obtain ⟨cc, -, hf⟩ := fetchTag_known (mt Cond.ofCode?_eq_none_iff.1 (Nat.not_le.2 h))
  exact ⟨cc, hf⟩

theorem fetchJumpType_unknown {w : PtrWidth} (h : 5 ≤ b.toNat) :
    fetchJumpType w ⟨o, b :: bs⟩ = .error (.unknownJumpType b.toNat) := by
  rw [fetchJumpType, fetchTag_unknown (JumpType.ofCode?_eq_none_iff.2 h), Decoded.andThen_error]

theorem fetchJumpType_known {w : PtrWidth} (h : b.toNat < 5) (hw : b.toNat = 4 → w = .w64) :
    ∃ jt, fetchJumpType w ⟨o, b :: bs⟩ = .ok jt ⟨o + 1, bs⟩ := by
  obtain ⟨jt, hjt, hf⟩ := fetchTag_known (mt JumpType.ofCode?_eq_none_iff.1 (Nat.not_le.2 h))
  have hv : jt.validIn w = true := JumpType.validIn_of_code (JumpType.code_of_ofCode? hjt ▸ hw)
  exact ⟨jt, by rw [fetchJumpType, hf, Decoded.andThen_ok, if_pos hv]⟩

theorem fetchJumpType_ptr64_in_profile32 : fetchJumpType .w32 ⟨o, 4 :: bs⟩ = .error (.profileInvalid 4) := by
  have hf : fetchTag JumpType.ofCode? .unknownJumpType ⟨o, 4 :: bs⟩ = .ok .ptr64 ⟨o + 1, bs⟩ :=
    fetchTag_leBytes _ _ o bs (b := 4) (by decide) rfl
  rw [fetchJumpType, hf]
  rfl

end OneByte

/-! ## The fields after an opcode byte -/

/-- R112: the opcode bytes that the map leaves out. -/
def ReservedOpcode (op : Nat) : Prop :=
  op = 0x00 ∨ (0x03 ≤ op ∧ op ≤ 0x0F) ∨ (0x12 ≤ op ∧ op ≤ 0x17) ∨ (0x1A ≤ op ∧ op ≤ 0x1F) ∨
    (0x26 ≤ op ∧ op ≤ 0x2F) ∨ (0x33 ≤ op ∧ op ≤ 0x3F) ∨ (0x45 ≤ op ∧ op ≤ 0x50) ∨ (0x55 ≤ op ∧ op ≤ 0x57) ∨
    (0x59 ≤ op ∧ op ≤ 0x5F) ∨ 0x64 ≤ op

theorem decodeFields_reserved {op : Nat} (h : ReservedOpcode op) (w : PtrWidth) (c : Cursor) :
    decodeFields w op c = .error (.unknownOpcode op) := by
  unfold ReservedOpcode at h
  unfold decodeFields
  split
  case h_30 => rfl
  all_goals omega

section FieldsOfAnOpcode

variable {op : Byte} (w : PtrWidth)

/-- Formats FR, FRR and FRI begin with a register identifier (R104 to R106). -/
theorem decodeFields_register
    (h : op ∈ [(0x10 : Byte), 0x11, 0x18, 0x19, 0x20, 0x21, 0x22, 0x23, 0x24, 0x25, 0x30, 0x31]) :
    ∃ k, ∀ c, decodeFields w op.toNat c = (fetchReg c).andThen k := by
  simp only [List.mem_cons, List.not_mem_nil, or_false] at h
  rcases h with rfl | rfl | rfl | rfl | rfl | rfl | rfl | rfl | rfl | rfl | rfl | rfl
  all_goals exact ⟨_, fun _ => rfl⟩

/-- Format FRR has a second one (R105). -/
theorem decodeFields_two_registers (h : op ∈ [(0x10 : Byte), 0x20, 0x22, 0x24]) :
    ∃ k : RegId → RegId → Cursor → Decoded Instr, ∀ c, decodeFields w op.toNat c =
      (fetchReg c).andThen fun rd c => (fetchReg c).andThen (k rd) := by
  simp only [List.mem_cons, List.not_mem_nil, or_false] at h
  rcases h with rfl | rfl | rfl | rfl
  all_goals exact ⟨_, fun _ => rfl⟩

/-- The two-register operations of one width (R130). -/
theorem decodeFields_one_width (h : op ∈ [(0x20 : Byte), 0x22, 0x24]) :
    ∃ mk, ∀ c, decodeFields w op.toNat c = decodeFRROneWidth mk c := by
  simp only [List.mem_cons, List.not_mem_nil, or_false] at h
  rcases h with rfl | rfl | rfl
  all_goals exact ⟨_, fun _ => rfl⟩

/-- Formats FCRR and FCRI share their fields up to `sa` (R109, R110). -/
theorem decodeFields_branch (h : op ∈ [(0x60 : Byte), 0x61]) :
    ∃ k : Cond → DataType → JumpType → Slot → Cursor → Decoded Instr, ∀ c, decodeFields w op.toNat c =
      (fetchCond c).andThen fun cc c => (fetchDataType c).andThen fun dt c =>
      (fetchJumpType w c).andThen fun jt c => (fetchSlot c).andThen (k cc dt jt) := by
  simp only [List.mem_cons, List.not_mem_nil, or_false] at h
  rcases h with rfl | rfl
  all_goals exact ⟨_, fun _ => rfl⟩

end FieldsOfAnOpcode

/-! ## Decoding from the opcode byte -/

section FromTheOpcode

variable {w : PtrWidth} {op : Byte} {bs : List Byte}

theorem decode_of_fields_error {e : DecodeError} (h : decodeFields w op.toNat ⟨1, bs⟩ = .error e) :
    decode w (op :: bs) = .error e := by
  simp [decode, fetch_one, h]

theorem decode_of_fields_ok {i : Instr} {c : Cursor} (h : decodeFields w op.toNat ⟨1, bs⟩ = .ok i c) :
    decode w (op :: bs) = .ok (i, c.off) := by
  simp [decode, fetch_one, h]

/-! ### Registers -/

section Registers

variable {rd rs : Byte}

theorem decode_unknown_register
    (hop : op ∈ [(0x10 : Byte), 0x11, 0x18, 0x19, 0x20, 0x21, 0x22, 0x23, 0x24, 0x25, 0x30, 0x31])
    (h : 160 ≤ rd.toNat) : decode w (op :: rd :: bs) = .error (.unknownRegister rd.toNat) := by
  obtain ⟨k, hk⟩ := decodeFields_register w hop
  exact decode_of_fields_error (by rw [hk, fetchReg_unknown h, Decoded.andThen_error])

theorem decode_unknown_source (hop : op ∈ [(0x10 : Byte), 0x20, 0x22, 0x24]) (hrd : rd.toNat < 160)
    (h : 160 ≤ rs.toNat) : decode w (op :: rd :: rs :: bs) = .error (.unknownRegister rs.toNat) := by
  obtain ⟨k, hk⟩ := decodeFields_two_registers w hop
  obtain ⟨r, -, hr⟩ := fetchReg_known hrd
  exact decode_of_fields_error
    (by rw [hk, hr, Decoded.andThen_ok, fetchReg_unknown h, Decoded.andThen_error])

theorem decode_width_mismatch (hop : op ∈ [(0x20 : Byte), 0x22, 0x24]) (hrd : rd.toNat < 160) (hrs : rs.toNat < 160)
    (h : rd.toNat / 32 ≠ rs.toNat / 32) :
    decode w (op :: rd :: rs :: bs) = .error (.widthMismatch rs.toNat) := by
  obtain ⟨mk, hmk⟩ := decodeFields_one_width w hop
  obtain ⟨r, hr, hfr⟩ := fetchReg_known hrd
  obtain ⟨q, hq, hfq⟩ := fetchReg_known hrs
  have hne : r.cls ≠ q.cls := by
    rw [← hr, ← hq, RegId.code_div_32, RegId.code_div_32] at h
    exact fun heq => h (congrArg RegClass.code heq)
  exact decode_of_fields_error
    (by rw [hmk, decodeFRROneWidth, hfr, Decoded.andThen_ok, hfq, Decoded.andThen_ok, if_neg hne, hq])

end Registers

theorem decode_pushI_unknown_dataType {dt : Byte} (h : 9 ≤ dt.toNat) :
    decode w (0x32 :: dt :: bs) = .error (.unknownDataType dt.toNat) := by
  refine decode_of_fields_error ?_
  show decodeFDI w .pushI ⟨1, dt :: bs⟩ = _
  rw [decodeFDI, fetchDataType_unknown h, Decoded.andThen_error]

/-! ### Branches -/

section Branches

variable {cc dt jt sa sb : Byte}

theorem decode_branch_unknown_cond (hop : op ∈ [(0x60 : Byte), 0x61]) (h : 8 ≤ cc.toNat) :
    decode w (op :: cc :: bs) = .error (.unknownCondition cc.toNat) := by
  obtain ⟨k, hk⟩ := decodeFields_branch w hop
  exact decode_of_fields_error (by rw [hk, fetchCond_unknown h, Decoded.andThen_error])

theorem decode_branch_unknown_dataType (hop : op ∈ [(0x60 : Byte), 0x61]) (hcc : cc.toNat < 8) (h : 9 ≤ dt.toNat) :
    decode w (op :: cc :: dt :: bs) = .error (.unknownDataType dt.toNat) := by
  obtain ⟨k, hk⟩ := decodeFields_branch w hop
  obtain ⟨c, hc⟩ := fetchCond_known hcc
  exact decode_of_fields_error
    (by rw [hk, hc, Decoded.andThen_ok, fetchDataType_unknown h, Decoded.andThen_error])

/-- A refused jump-type tag is the branch's error, once the tags before it are legal. -/
theorem decode_branch_of_jumpType_error (hop : op ∈ [(0x60 : Byte), 0x61]) (hcc : cc.toNat < 8) (hdt : dt.toNat < 9)
    {e : DecodeError} (h : fetchJumpType w ⟨3, bs⟩ = .error e) : decode w (op :: cc :: dt :: bs) = .error e := by
  obtain ⟨k, hk⟩ := decodeFields_branch w hop
  obtain ⟨c, hc⟩ := fetchCond_known hcc
  obtain ⟨d, hd⟩ := fetchDataType_known hdt
  exact decode_of_fields_error (by rw [hk, hc, Decoded.andThen_ok, hd, Decoded.andThen_ok, h, Decoded.andThen_error])

theorem decode_branch_unknown_slot (hop : op ∈ [(0x60 : Byte), 0x61]) (hcc : cc.toNat < 8) (hdt : dt.toNat < 9)
    (hjt : jt.toNat < 5) (hw : jt.toNat = 4 → w = .w64) (h : 32 ≤ sa.toNat) :
    decode w (op :: cc :: dt :: jt :: sa :: bs) = .error (.unknownRegister sa.toNat) := by
  obtain ⟨k, hk⟩ := decodeFields_branch w hop
  obtain ⟨c, hc⟩ := fetchCond_known hcc
  obtain ⟨d, hd⟩ := fetchDataType_known hdt
  obtain ⟨j, hj⟩ := fetchJumpType_known hjt hw
  exact decode_of_fields_error (by
    rw [hk, hc, Decoded.andThen_ok, hd, Decoded.andThen_ok, hj, Decoded.andThen_ok, fetchSlot_unknown h,
      Decoded.andThen_error])

theorem decode_jccRR_unknown_second_slot (hcc : cc.toNat < 8) (hdt : dt.toNat < 9) (hjt : jt.toNat < 5)
    (hw : jt.toNat = 4 → w = .w64) (hsa : sa.toNat < 32) (h : 32 ≤ sb.toNat) :
    decode w (0x60 :: cc :: dt :: jt :: sa :: sb :: bs) = .error (.unknownRegister sb.toNat) := by
  obtain ⟨c, hc⟩ := fetchCond_known hcc
  obtain ⟨d, hd⟩ := fetchDataType_known hdt
  obtain ⟨j, hj⟩ := fetchJumpType_known hjt hw
  obtain ⟨a, ha⟩ := fetchSlot_known hsa
  refine decode_of_fields_error ?_
  show decodeFCRR w ⟨1, cc :: dt :: jt :: sa :: sb :: bs⟩ = _
  rw [decodeFCRR, hc, Decoded.andThen_ok, hd, Decoded.andThen_ok, hj, Decoded.andThen_ok, ha, Decoded.andThen_ok,
    fetchSlot_unknown h, Decoded.andThen_error]

end Branches

end FromTheOpcode

/-! ## Lengths -/

theorem encode_length (w : PtrWidth) (i : Instr) : (encode w i).length = i.length w :=
  Laws.EncodedLength.of_cases i w

theorem Instr.length_pos (w : PtrWidth) (i : Instr) : 1 ≤ i.length w := by
  cases i <;> simp only [Instr.length] <;> omega

/-- The longest instruction is a `JCC_RI` with its two widest fields (R117). -/
theorem Instr.length_le (w : PtrWidth) (i : Instr) : i.length w ≤ 21 := by
  cases i
  case movRI rd _ | addRI rd _ | subRI rd _ | mulRI rd _ =>
    have := rd.cls.bytes_le
    simp only [Instr.length]
    omega
  case pushI dt _ =>
    have := dt.bytes_le w
    simp only [Instr.length]
    omega
  case jccRR tgt =>
    have := tgt.jumpType.bytes_le
    simp only [Instr.length]
    omega
  case jccRI dt _ _ tgt =>
    have := dt.bytes_le w
    have := tgt.jumpType.bytes_le
    simp only [Instr.length]
    omega
  all_goals simp [Instr.length]

end Sys2Proof
end

section
/-! The step on what the image bytes decode to (R307), and the statements about `30_encoding.md`. -/

namespace Sys2Proof.Machine

/-! ## The step of a fetching core -/

section FetchingCore

variable {s : State}

theorem fetchWindow_eq_take (s : State) : s.fetchWindow = (imageFromPc s).take Config.maxLength := by
  rw [State.fetchWindow, imageFromPc, Memory.readBytes_take]

/-- The window shows decoding all that it looks at (R92, R117). -/
theorem decode_fetchWindow (s : State) : decode s.ptrWidth s.fetchWindow = decode s.ptrWidth (imageFromPc s) := by
  rw [fetchWindow_eq_take, decode_take _ _ (Nat.le_refl _)]

/-- The opcode byte is inside the image. -/
theorem imageFromPc_eq_cons (hf : Fetching s) :
    imageFromPc s = s.mem.read s.pc :: s.mem.readBytes (s.pc + 1) (s.limit - s.pc - 1) := by
  obtain ⟨-, -, hlt⟩ := hf
  rw [imageFromPc, show s.limit - s.pc = s.limit - s.pc - 1 + 1 by omega]
  rfl

theorem step_of_decode_error (hf : Fetching s) {e : DecodeError}
    (hd : decode s.ptrWidth (imageFromPc s) = .error e) :
    step s = .next (s.raiseFault (decodeFault s.pc e).1 (decodeFault s.pc e).2) := by
  obtain ⟨hr, hs, hl⟩ := hf
  rw [← decode_fetchWindow] at hd
  exact step_trap (by simp [State.stepAction, hr, Nat.ne_of_lt hl, Nat.not_lt.2 hs, Nat.lt_asymm hl, hd])

theorem step_of_decode_ok (hf : Fetching s) {i : Instr} {n : Nat}
    (hd : decode s.ptrWidth (imageFromPc s) = .ok (i, n)) : step s = exec i s := by
  obtain ⟨hr, hs, hl⟩ := hf
  rw [← decode_fetchWindow] at hd
  exact step_run (by simp [State.stepAction, hr, Nat.ne_of_lt hl, Nat.not_lt.2 hs, Nat.lt_asymm hl, hd])

section OpcodeByte

variable {op : Nat} (hf : Fetching s) (hop : (s.mem.read s.pc).toNat = op)
include hf hop

/-- An opcode byte refused whatever follows it faults the step. -/
theorem step_of_opcode_error {e : DecodeError} (h : ∀ c, decodeFields s.ptrWidth op c = .error e) :
    step s = .next (s.raiseFault (decodeFault s.pc e).1 (decodeFault s.pc e).2) := by
  refine step_of_decode_error hf ?_
  rw [imageFromPc_eq_cons hf]
  exact decode_of_fields_error (hop ▸ h _)

/-- An opcode byte that is the whole instruction is executed whatever follows it. -/
theorem step_of_opcode_ok {i : Instr} (h : ∀ c, decodeFields s.ptrWidth op c = .ok i c) : step s = exec i s := by
  refine step_of_decode_ok hf (n := 1) ?_
  rw [imageFromPc_eq_cons hf]
  exact decode_of_fields_ok (c := ⟨1, _⟩) (hop ▸ h _)

end OpcodeByte

end FetchingCore

/-! ## Branches with a tag the profile does not have -/

/-- A Ptr64 tag in the 32-bit profile faults with the tag, taken or not (R102). -/
theorem branch_ptr64_in_profile32 {s : State} (hw : s.ptrWidth = .w32) (cond : Bool) (a : BitVec 64) (n : Nat) :
    branch cond (.ptr64 a) n s = .next (s.raiseFault .profileInvalid 4) := by
  simp [branch, Target.jumpType, JumpType.validIn, JumpType.code, hw]

theorem execJmpPtr64_in_profile32 {s : State} (hw : s.ptrWidth = .w32) (a : BitVec 64) :
    execJmpPtr64 a s = .next (s.raiseFault .profileInvalid 0x44) := by
  simp [execJmpPtr64, hw]

theorem execCallPtr64_in_profile32 {s : State} (hw : s.ptrWidth = .w32) (a : BitVec 64) :
    execCallPtr64 a s = .next (s.raiseFault .profileInvalid 0x54) := by
  simp [execCallPtr64, hw]

/-! ## Targets -/

/-- A relative target is the non-negative remainder of the exact sum (R100). -/
theorem relTarget_eq_emod (w : PtrWidth) (base : Nat) (offset : Int) :
    (relTarget w base offset : Int) = ((base : Int) + offset) % 2 ^ w.bits := by
  have hcast : ((2 ^ w.bits : Nat) : Int) = 2 ^ w.bits := Int.natCast_pow 2 w.bits
  have hpos : ((2 ^ w.bits : Nat) : Int) ≠ 0 := Int.natCast_ne_zero.2 (Nat.ne_of_gt (Nat.two_pow_pos _))
  rw [relTarget, truncTo, Int.toNat_of_nonneg (Int.emod_nonneg _ hpos), hcast]

/-! ## The obligations -/

/-- Settles O4, from the length of every encoding, one instruction of a list after another. -/
theorem instructionLengths : Obligations.InstructionLengths := by
  simp only [Obligations.InstructionLengths, encode_length]
  refine ⟨?_, ?_, ?_, ?_, ?_, ?_, fun _ _ _ _ _ _ => rfl, fun _ _ _ _ _ _ => rfl,
    fun w i => ⟨Instr.length_pos w i, Instr.length_le w i⟩, ?_, ?_⟩
  · intro w
    simp [Instr.length]
  · intro w r
    simp [Instr.length]
  · intro w rd rs
    simp [Instr.length]
  · intro w s imm c n h
    cases c <;> simp_all [Instr.length, RegClass.bytes]
  · intro w imm dt n h
    cases dt <;> simp_all [Instr.length, DataType.bytes]
    cases w <;> rfl
  · intro w a b c d
    simp [Instr.length]
  · intro jt n h
    cases jt <;> simp_all [JumpType.bytes]
  · exact ⟨.jccRI .je .uint64 1 0 (.ptr64 0x20), rfl, rfl⟩

/-- Settles O6: the opcode map has no entry for a reserved byte. -/
theorem unknownOpcodesFault : Obligations.UnknownOpcodesFault := fun s _ hf hop hres =>
  ⟨_, step_of_opcode_error hf hop (decodeFields_reserved hres s.ptrWidth), faultTaken_raiseFault _ _ _⟩

/-- Settles O7: the decoder of each format, field by field, then the step's fault for each error. -/
theorem illegalFieldsFault : Obligations.IllegalFieldsFault := by
  refine ⟨fun _ _ _ _ => decode_unknown_register, fun _ _ _ _ _ => decode_unknown_source,
    fun _ _ _ _ _ => decode_width_mismatch, fun _ _ _ => decode_pushI_unknown_dataType,
    fun _ _ _ _ => decode_branch_unknown_cond, fun _ _ _ _ _ => decode_branch_unknown_dataType,
    fun _ _ _ _ _ _ hop hcc hdt h => decode_branch_of_jumpType_error hop hcc hdt (fetchJumpType_unknown h),
    fun _ _ _ _ hop hcc hdt => decode_branch_of_jumpType_error hop hcc hdt fetchJumpType_ptr64_in_profile32,
    fun _ _ _ _ _ _ _ => decode_branch_unknown_slot, fun _ _ _ _ _ _ _ => decode_jccRR_unknown_second_slot, ?_⟩
  intro s byte e code hf h hd
  have hstep := step_of_decode_error hf hd
  simp only [List.mem_cons, Prod.mk.injEq, List.not_mem_nil, or_false] at h
  rcases h with ⟨rfl, rfl⟩ | ⟨rfl, rfl⟩ | ⟨rfl, rfl⟩ | ⟨rfl, rfl⟩ | ⟨rfl, rfl⟩ | ⟨rfl, rfl⟩
  all_goals exact ⟨_, hstep, faultTaken_raiseFault _ _ _⟩

/-- Settles O8: the profile check of each Ptr64 form, at the step, in execution and in decoding. -/
theorem profileValidity : Obligations.ProfileValidity := by
  refine ⟨fun s op hf hw hop h => ?_, fun s a hw => ?_, fun s cc dt sa sb imm a hw => ?_,
    fun _ _ _ _ hop hcc hdt => decode_branch_of_jumpType_error hop hcc hdt fetchJumpType_ptr64_in_profile32,
    rfl, rfl, fun _ jt => ⟨rfl, rfl, JumpType.validIn_of_code fun _ => rfl⟩⟩
  · have hfields : ∀ c, decodeFields s.ptrWidth op c = .error (.profileInvalid op) := by
      rw [hw]
      rcases h with rfl | rfl
      all_goals exact fun _ => rfl
    exact ⟨_, step_of_opcode_error hf hop hfields, faultTaken_raiseFault _ _ _⟩
  · exact ⟨⟨_, execJmpPtr64_in_profile32 hw a, faultTaken_raiseFault _ _ _⟩,
      ⟨_, execCallPtr64_in_profile32 hw a, faultTaken_raiseFault _ _ _⟩⟩
  · exact ⟨⟨_, branch_ptr64_in_profile32 hw _ a _, faultTaken_raiseFault _ _ _⟩,
      ⟨_, branch_ptr64_in_profile32 hw _ a _, faultTaken_raiseFault _ _ _⟩⟩

/-- Settles O35: each target by its kind. -/
theorem targetAddresses : Obligations.TargetAddresses := fun w base =>
  ⟨fun rel => relTarget_eq_emod w base rel.toInt, fun rel => relTarget_eq_emod w base rel.toInt,
    fun rel => relTarget_eq_emod w base rel.toInt, fun a => ⟨rfl, a.isLt⟩, fun _ => rfl⟩

/-- Settles O49: the opcode byte is the whole instruction, and executing it takes the fault. -/
theorem unimplementedComparesFault : Obligations.UnimplementedComparesFault := by
  have hexec (s : State) : exec .jccRM s = .next (s.raiseFault .unsupported 0x62) ∧
      exec .jccMM s = .next (s.raiseFault .unsupported 0x63) := ⟨rfl, rfl⟩
  refine ⟨fun s => ⟨⟨_, (hexec s).1, faultTaken_raiseFault _ _ _⟩, ⟨_, (hexec s).2, faultTaken_raiseFault _ _ _⟩⟩,
    fun s op hf hop h => ?_⟩
  rcases h with rfl | rfl
  · exact ⟨_, (step_of_opcode_ok hf hop fun _ => rfl).trans (hexec s).1, faultTaken_raiseFault _ _ _⟩
  · exact ⟨_, (step_of_opcode_ok hf hop fun _ => rfl).trans (hexec s).2, faultTaken_raiseFault _ _ _⟩

end Sys2Proof.Machine
end

section
/-! The register arithmetic (R131) and the class check of its two-register forms (R130). -/

namespace Sys2Proof

open Sys2Proof.Machine

/-! ## The class check in decoding -/

/-- `MOV_RR` compares no classes (R130, R132). -/
theorem decode_movRR (w : PtrWidth) (rd rs : RegId) (rest : List Byte) :
    decode w (encode w (.movRR rd rs) ++ rest) = .ok (.movRR rd rs, 3) := by
  refine decode_of_fields_ok (c := ⟨3, rest⟩) ?_
  show decodeFRR .movRR ⟨1, leBytes 1 rd.code ++ (leBytes 1 rs.code ++ rest)⟩ = _
  rw [decodeFRR, fetchReg_leBytes, Decoded.andThen_ok, fetchReg_leBytes, Decoded.andThen_ok]

section TwoClasses

variable {rd rs : RegId} (h : rd.cls ≠ rs.cls)
include h

/-- The mismatch is found once both identifiers are decoded (R130). -/
theorem decodeFRROneWidth_of_cls_ne (mk : RegId → RegId → Instr) (o : Nat) (rest : List Byte) :
    decodeFRROneWidth mk ⟨o, leBytes 1 rd.code ++ (leBytes 1 rs.code ++ rest)⟩ = .error (.widthMismatch rs.code) := by
  rw [decodeFRROneWidth, fetchReg_leBytes, Decoded.andThen_ok, fetchReg_leBytes, Decoded.andThen_ok, if_neg h]

theorem decode_one_width_of_cls_ne {i : Instr} (hi : i ∈ [Instr.addRR rd rs, .subRR rd rs, .mulRR rd rs])
    (w : PtrWidth) (rest : List Byte) : decode w (encode w i ++ rest) = .error (.widthMismatch rs.code) := by
  simp only [List.mem_cons, List.not_mem_nil, or_false] at hi
  rcases hi with rfl | rfl | rfl
  all_goals exact decode_of_fields_error (decodeFRROneWidth_of_cls_ne h _ 1 rest)

end TwoClasses

end Sys2Proof

namespace Sys2Proof.Machine

/-! ## Modular results -/

/-- The arithmetic of a class as the integer remainder of R131. -/
theorem arith_eq_emod (c : RegClass) (x : Int) : arith c x = (x % 2 ^ c.bits).toNat := by
  have hcast : ((2 ^ c.bits : Nat) : Int) = 2 ^ c.bits := Int.natCast_pow 2 c.bits
  rw [arith, truncTo, hcast]

/-- The two's-complement reading of a value differs from it by a multiple of `2^bits` (R11). -/
theorem sext_emod (bits v : Nat) : sext bits v % 2 ^ bits = v % 2 ^ bits := by
  have hcast : ((2 ^ bits : Nat) : Int) = 2 ^ bits := Int.natCast_pow 2 bits
  rw [sext, BitVec.toInt_ofNat', ← hcast, Int.bmod_emod]

/-! ## What a register instruction answers -/

theorem registerEffect_regWrite_advance (s : State) (r : RegId) (v n : Nat) :
    RegisterEffect s ((s.regWrite r v).advance n) r v n :=
  ⟨regWritten_regWrite s r v, rfl, rfl, fun _ => rfl, rfl, rfl, ⟨rfl, rfl, rfl, rfl⟩,
    ⟨rfl, rfl, rfl, rfl, rfl, rfl, rfl, rfl, rfl⟩⟩

/-- An exact result ends in the destination modulo `2^W` (R131). -/
theorem writeAndAdvance_arith (s : State) (r : RegId) (x : Int) (n : Nat) :
    ∃ t, writeAndAdvance s r (arith r.cls x) n = .next t ∧ RegisterEffect s t r (x % 2 ^ r.cls.bits).toNat n :=
  ⟨_, rfl, arith_eq_emod r.cls x ▸ registerEffect_regWrite_advance s r _ n⟩

section TwoRegisters

variable {rd rs : RegId} (op : Int → Int → Int) (s : State)

/-- With one class a two-register operation writes its result (R130, R131). -/
theorem binaryRR_of_cls_eq (h : rd.cls = rs.cls) :
    ∃ t, binaryRR op rd rs s = .next t ∧
      RegisterEffect s t rd (op (s.regRead rd) (s.regRead rs) % 2 ^ rd.cls.bits).toNat 3 := by
  rw [binaryRR, if_pos h]
  exact writeAndAdvance_arith s rd _ 3

/-- With two classes it takes the fault, on the byte of `rs` (R130). -/
theorem binaryRR_of_cls_ne (h : rd.cls ≠ rs.cls) :
    binaryRR op rd rs s = .next (s.raiseFault .widthMismatch rs.code) := by
  rw [binaryRR, if_neg h]

theorem exec_one_width_of_cls_ne {i : Instr} (h : rd.cls ≠ rs.cls)
    (hi : i ∈ [Instr.addRR rd rs, .subRR rd rs, .mulRR rd rs]) :
    exec i s = .next (s.raiseFault .widthMismatch rs.code) := by
  simp only [List.mem_cons, List.not_mem_nil, or_false] at hi
  rcases hi with rfl | rfl | rfl
  all_goals exact binaryRR_of_cls_ne _ s h

end TwoRegisters

/-- Settles O25: each instruction writes an exact result reduced by its class, and reduction does not see the
multiples of `2^W` by which the two's-complement readings differ. -/
theorem arithmeticIsModular : Obligations.ArithmeticIsModular := by
  refine ⟨fun s rd rs h => ⟨?_, ?_, ?_⟩, fun s rd imm => ⟨?_, ?_, ?_⟩, fun s r => ⟨?_, ?_⟩, fun c a b => ?_⟩
  · exact binaryRR_of_cls_eq (· + ·) s h
  · exact binaryRR_of_cls_eq (· - ·) s h
  · exact binaryRR_of_cls_eq (· * ·) s h
  · exact writeAndAdvance_arith s rd (s.regRead rd + imm.toNat) _
  · exact writeAndAdvance_arith s rd (s.regRead rd - imm.toNat) _
  · exact writeAndAdvance_arith s rd (s.regRead rd * imm.toNat) _
  · exact writeAndAdvance_arith s r (s.regRead r + 1) 2
  · exact writeAndAdvance_arith s r (s.regRead r - 1) 2
  · have ha := sext_emod c.bits a
    have hb := sext_emod c.bits b
    refine ⟨?_, ?_, ?_⟩
    · rw [Int.add_emod, ha, hb, ← Int.add_emod]
    · rw [Int.sub_emod, ha, hb, ← Int.sub_emod]
    · rw [Int.mul_emod, ha, hb, ← Int.mul_emod]

/-- Settles O26: execution, decoding and the step check the classes, each of the three on its own. -/
theorem widthMismatchFaults : Obligations.WidthMismatchFaults := by
  refine ⟨fun s rd rs h i hi => ⟨?_, ?_, fun rest hf himage => ?_⟩, decode_movRR⟩
  · exact ⟨_, exec_one_width_of_cls_ne s h hi, faultTaken_raiseFault _ _ _⟩
  · exact decode_one_width_of_cls_ne h hi s.ptrWidth
  · have hd := decode_one_width_of_cls_ne h hi s.ptrWidth rest
    exact ⟨_, step_of_decode_error hf (himage ▸ hd), faultTaken_raiseFault _ _ _⟩

end Sys2Proof.Machine
end

section
/-! Jumps, calls, taken branches and returns as transfers (`41_control_transfer.md`), and the alignment check of R162. -/

namespace Sys2Proof.Machine

/-! ## Which transfer an instruction is -/

section Transfers

variable {s : State} {i : Instr} {target : Nat}

/-- A jump is `CheckTarget` and the move of the cursor (R165 to R169). -/
theorem exec_of_jumpTarget? (h : jumpTarget? s.ptrWidth s.pc i = some target) : exec i s = jumpTo s target := by
  cases i
  case jmpNear | jmpShort | jmpLong | jmpPtr32 => exact congrArg (jumpTo s) (Option.some.inj h)
  case jmpPtr64 a =>
    obtain ⟨hw, rfl⟩ := Option.ite_some_none_eq_some.1 h
    show execJmpPtr64 a s = jumpTo s a.toNat
    simp only [execJmpPtr64, hw]
  all_goals cases h

/-- A call is `callTo` with its own length (R170 to R173). -/
theorem exec_of_callTarget? (h : callTarget? s.ptrWidth s.pc i = some target) :
    exec i s = callTo s target (i.length s.ptrWidth) := by
  cases i
  case callShort | callLong | callPtr32 => exact congrArg (callTo s · _) (Option.some.inj h)
  case callPtr64 a =>
    obtain ⟨hw, rfl⟩ := Option.ite_some_none_eq_some.1 h
    show execCallPtr64 a s = callTo s a.toNat 9
    simp only [execCallPtr64, hw]
  all_goals cases h

/-- A taken branch of a form the profile has is a jump (R206). -/
theorem branch_taken {cond : Bool} {tgt : Target} (n : Nat) (hv : tgt.jumpType.validIn s.ptrWidth = true)
    (hc : cond = true) : branch cond tgt n s = jumpTo s (targetAddr s.ptrWidth s.pc tgt) := by
  rw [branch, if_pos hv, if_pos hc]

/-- A return goes to the address it pops (R174). -/
theorem exec_ret_of_popReturn {v : Nat} {u : State} (h : popReturn s = .ok v u) :
    exec .ret s = .next (u.withPc v) := by
  show (popReturn s).settle s _ = _
  rw [h, OpResult.settle_ok]

end Transfers

/-- Settles O37: jumps and taken branches end in `jumpTo` and calls in `callTo`, which check the target first; a return
moves the cursor to the address it pops. -/
theorem misalignedTargetsFault : Obligations.MisalignedTargetsFault := by
  refine ⟨fun s i target h ha => ?jump, fun s i target h ha => ?call, fun s cc dt sa sb tgt hv hc ha => ?jccRR,
    fun s cc dt sa imm tgt hv hc ha => ?jccRI, fun s v u h => ?ret⟩
  case jump => exact ⟨_, (exec_of_jumpTarget? h).trans (jumpTo_misaligned ha), faultTaken_raiseFault _ _ _⟩
  case call => exact ⟨_, (exec_of_callTarget? h).trans (callTo_misaligned _ ha), faultTaken_raiseFault _ _ _⟩
  case jccRR => exact ⟨_, (branch_taken _ hv hc).trans (jumpTo_misaligned ha), faultTaken_raiseFault _ _ _⟩
  case jccRI => exact ⟨_, (branch_taken _ hv hc).trans (jumpTo_misaligned ha), faultTaken_raiseFault _ _ _⟩
  case ret => exact ⟨_, exec_ret_of_popReturn h, State.withPc_pc u v⟩

end Sys2Proof.Machine
end

section
/-! The condition evaluator (R200) and its two zero tests (R202). -/

namespace Sys2Proof.Machine

/-! ## The zero tests, which ask of both operands (R202) -/

@[simp] theorem condEval_jz_iff (a b : Int) : condEval .jz a b = true ↔ a = 0 ∧ b = 0 :=
  Bool.and_eq_true_iff.trans (and_congr beq_iff_eq beq_iff_eq)

@[simp] theorem condEval_jnz_iff (a b : Int) : condEval .jnz a b = true ↔ a ≠ 0 ∧ b ≠ 0 :=
  Bool.and_eq_true_iff.trans (and_congr bne_iff_ne bne_iff_ne)

/-- Settles O44: the zero tests by their lemmas; each other code is one decided comparison. -/
theorem conditionTable : Obligations.ConditionTable := by
  refine fun a b => ⟨condEval_jz_iff a b, condEval_jnz_iff a b, ?je, ?jne, ?jl, ?jle, ?jg, ?jge⟩
  case je => exact beq_iff_eq
  case jne => exact bne_iff_ne
  case jl | jle | jg | jge => exact decide_eq_true_iff

/-- Settles O45: `jz` would make both operands 0 and `jnz` neither, and exactly one is. -/
theorem zeroTestsAreBinary : Obligations.ZeroTestsAreBinary := by
  refine fun a b hone => ⟨?jz, ?jnz⟩
  case jz => exact Bool.eq_false_iff.2 (mt (condEval_jz_iff a b).1 fun ⟨ha, hb⟩ => hone.1 ha hb)
  case jnz => exact Bool.eq_false_iff.2 (mt (condEval_jnz_iff a b).1 fun ⟨ha, hb⟩ => ha (hone.2 hb))

end Sys2Proof.Machine
end

section
/-! The operand-stack family (`43_stack_ops.md`): a pop undoes a push of the same number of bytes (R71, R72, R233). -/

namespace Sys2Proof.Machine

/-! ## The bytes a value was stored as -/

/-- Bytes that hold `v` read back as `v`'s own little-endian bytes (R62). -/
theorem readBytes_of_bytesHold {t : State} {a n v : Nat} (h : BytesHold t a n v) :
    t.mem.readBytes a n = leBytes n v := by
  refine List.ext_getElem (by simp) fun k hk _ => BitVec.eq_of_toNat_eq ?_
  rw [Memory.readBytes_getElem, leBytes_getElem]
  exact h k (by simpa using hk)

theorem leNat_readBytes_of_bytesHold {t : State} {a n v : Nat} (h : BytesHold t a n v) :
    leNat (t.mem.readBytes a n) = v % 256 ^ n := by
  rw [readBytes_of_bytesHold h, leNat_leBytes]

/-! ## Where a pop stands after a push of as many bytes -/

/-- Of the stack's bounds and direction a store changes nothing, and `sp` is where it says. -/
theorem StoreEffect.sp_and_stack_config {s t : State} {a n v sp p : Nat} (h : StoreEffect s t a n v sp p) :
    t.sp = sp ∧ t.first = s.first ∧ t.last = s.last ∧ t.stackDir = s.stackDir := by
  obtain ⟨-, -, hsp, -, -, -, -, -, -, -, -, hfirst, hlast, -, hdir, -⟩ := h
  exact ⟨hsp, hfirst, hlast, hdir⟩

section AfterPush

variable {s t : State} {n v p : Nat} (hin : StackInBounds s) (hn : n ≤ s.stackFree)
  (h : StoreEffect s t (s.pushAddr n) n v (s.pushSp n) p)
include hin hn h

theorem StoreEffect.stackInBounds_of_push : StackInBounds t := by
  obtain ⟨hsp, hfirst, hlast, -⟩ := h.sp_and_stack_config
  rw [StackInBounds, hfirst, hlast, hsp]
  exact (State.pushAddr_inStack hin.1 hin.2 hn).2

/-- The stack has grown by the bytes pushed (R36). -/
theorem StoreEffect.stackSize_of_push : t.stackSize = s.stackSize + n := by
  have hsize := State.stackSize_eq_sub hin
  have hsize' := State.stackSize_eq_sub (h.stackInBounds_of_push hin hn)
  have hmove := State.pushSp_eq_add hin hn
  obtain ⟨hsp, hfirst, hlast, hdir⟩ := h.sp_and_stack_config
  rw [hdir, hfirst, hlast, hsp] at hsize'
  split at hmove
  · next hforward => rw [if_pos hforward] at hsize hsize'; omega
  · next hbackward => rw [if_neg hbackward] at hsize hsize'; omega

/-- A pop of as many bytes moves `sp` back to where the push began (R35). -/
theorem StoreEffect.popSp_of_push : t.popSp n = s.sp := by
  have hback := State.popSp_eq_sub (s := t) (n := n) (h.stackSize_of_push hin hn ▸ Nat.le_add_left ..)
  have hmove := State.pushSp_eq_add hin hn
  obtain ⟨hsp, -, -, hdir⟩ := h.sp_and_stack_config
  rw [hdir, hsp, hmove] at hback
  omega

/-- It reads where the push stored (R71, R72). -/
theorem StoreEffect.popAddr_of_push : t.popAddr n = s.pushAddr n := by
  have hpop := h.popSp_of_push hin hn
  obtain ⟨hsp, -, -, hdir⟩ := h.sp_and_stack_config
  rw [State.popAddr_eq_ite, State.pushAddr_eq_ite, hdir, hsp, hpop]

/-- So it gives the value back, as far as its bytes hold it, and restores `sp`. -/
theorem StoreEffect.pop_of_push : pop t n = .ok (v % 256 ^ n) (t.withStack t.mem s.sp) := by
  obtain ⟨hfirst, hlast⟩ := h.stackInBounds_of_push hin hn
  have hbytes : BytesHold t (s.pushAddr n) n v := h.1
  rw [pop_ok hfirst hlast (h.stackSize_of_push hin hn ▸ Nat.le_add_left ..), h.popAddr_of_push hin hn,
    h.popSp_of_push hin hn, leNat_readBytes_of_bytesHold hbytes]

end AfterPush

/-! ## The instructions -/

/-- `PUSH_I` with room (R232). -/
theorem exec_pushI_of_room {s : State} (dt : DataType) (imm : Word) (hin : StackInBounds s)
    (hn : dt.bytes s.ptrWidth ≤ s.stackFree) :
    ∃ t, exec (.pushI dt imm) s = .next t ∧
      StoreEffect s t (s.pushAddr (dt.bytes s.ptrWidth)) (dt.bytes s.ptrWidth) imm.toNat
        (s.pushSp (dt.bytes s.ptrWidth)) (s.pc + (2 + dt.bytes s.ptrWidth)) := by
  refine ⟨_, ?_, storeEffect_withStack s _ _ _ _ _⟩
  rw [exec, execPushI, push_ok _ hin.1 hin.2 hn]
  rfl

/-- `POP_R` of a value that `Pop` gives (R231). -/
theorem exec_popR_of_pop {s t : State} {r : RegId} {v : Nat} (h : pop s r.cls.bytes = .ok v t) :
    exec (.popR r) s = .next ((t.regWrite r v).advance 2) := by
  rw [exec, execPopR, h, OpResult.settle_ok]

/-- Settles O31: the pop gives the value modulo `256^n = 2^(8n)`, all of which the register's `8n` bits keep. -/
theorem pushThenPopGivesTheValueBack : Obligations.PushThenPopGivesTheValueBack := by
  intro s dt r v _ hwidth hin hn
  obtain ⟨t, hpush, heffect⟩ := exec_pushI_of_room dt v hin hn
  have hpop := exec_popR_of_pop (hwidth ▸ heffect.pop_of_push hin hn)
  refine ⟨t, _, hpush, hpop, ?_, rfl⟩
  have hvalues : 2 ^ r.cls.bits = 256 ^ r.cls.bytes := Nat.pow_mul 2 8 r.cls.bytes
  calc ((t.withStack t.mem s.sp).regWrite r (v.toNat % 256 ^ r.cls.bytes)).regRead r
      = v.toNat % 256 ^ r.cls.bytes % 2 ^ r.cls.bits := regRead_regWrite_same ..
    _ = v.toNat % 2 ^ r.cls.bits := by rw [← hvalues, Nat.mod_mod]
    _ = v.toNat % 2 ^ (8 * dt.bytes s.ptrWidth) := by rw [RegClass.bits, hwidth]

end Sys2Proof.Machine
end

section
/-! Faults (`60_exceptions.md`): a step that ends in `Faulted` took a fault from its own start state (R271), and the core
stays there (R273). -/

namespace Sys2Proof.Machine

/-! ## What an instruction does to the run state -/

/-- An instruction faults from the state it began in, exits, or leaves the run state alone (R269, R271). -/
theorem Effect.raiseFault_or_exit_or_same_runState {s t : State} {i : Instr} (h : Effect s i t) :
    (∃ c n, t = s.raiseFault c n) ∨ (i = .exit ∧ t.runState = .exited) ∨ t.runState = s.runState := by
  cases h with
  | fault _ c n => exact .inl ⟨c, n, rfl⟩
  | exit => exact .inr (.inl ⟨rfl, rfl⟩)
  | write | move | push | pop | callStack | callLedger | retStack | retLedger => exact .inr (.inr rfl)

section RunningCore

variable {s t : State} (hr : s.runState = .running) (hf : t.runState = .faulted)
include hr hf

/-- An instruction of a Running core that ends in `Faulted` wrote the fault record and nothing of its own. -/
theorem exec_eq_raiseFault_of_faulted {i : Instr} (h : exec i s = .next t) : ∃ c n, t = s.raiseFault c n := by
  obtain hfault | ⟨-, hexited⟩ | hsame := (exec_effect i s t h).raiseFault_or_exit_or_same_runState
  · exact hfault
  · rw [hf] at hexited
    cases hexited
  · rw [hf, hr] at hsame
    cases hsame

/-- A step of a Running core that ends in `Faulted` did the same: the cursor tests and decoding raise their faults before
anything is written (R270, R307). -/
theorem step_eq_raiseFault_of_faulted (h : step s = .next t) : ∃ c n, t = s.raiseFault c n := by
  have trapped {c : FaultCode} {n : Nat} (ha : s.stepAction = .trap c n) : ∃ c n, t = s.raiseFault c n :=
    ⟨c, n, Host.Outcome.next.inj (h.symm.trans (step_trap ha))⟩
  obtain ⟨hne, -⟩ | ⟨-, -, hended⟩ | ⟨-, -, -, hbelow⟩ | ⟨-, -, -, habove⟩ | ⟨-, -, -, e, -, herror⟩ |
    ⟨-, -, -, i, -, -, hrun⟩ := step_cases s
  · exact absurd hr hne
  · rw [step_ended hended] at h
    cases h
    cases hf
  · exact trapped hbelow
  · exact trapped habove
  · exact trapped herror
  · exact exec_eq_raiseFault_of_faulted hr hf (step_run hrun ▸ h)

end RunningCore

/-- Settles O18: the step's end is `raiseFault` of its start, which has the frame, and a core not Running idles. -/
theorem faultsArePrecise : Obligations.FaultsArePrecise := by
  intro s t hr hstep hf
  obtain ⟨code, info, rfl⟩ := step_eq_raiseFault_of_faulted hr hf hstep
  exact ⟨⟨code, info, faultTaken_raiseFault s code info⟩, step_stopped (by simp)⟩

end Sys2Proof.Machine
end

section
/-! Launches whose preconditions hold (`70_reset_and_hazards.md`): the state they leave, byte by byte and field by field
(R301), and the entry check (R302). -/

namespace Sys2Proof.Machine

/-! ## Parts of a launch, whatever its parameters -/

/-- The comparisons of check 3 say that no address lies in both ranges, an empty range holding none (R303, log 17). -/
theorem rangesDisjoint_iff {a n b m : Nat} :
    rangesDisjoint a n b m = true ↔ ∀ x, a ≤ x → x < a + n → ¬ (b ≤ x ∧ x < b + m) := by
  simp only [rangesDisjoint, Bool.or_eq_true, decide_eq_true_eq, beq_iff_eq]
  constructor
  · intro _ _ _ _
    omega
  · intro hapart
    -- The greater of the two bases is the least address that could lie in both.
    have hmax := hapart (max a b)
    omega

/-- The resting point of R34. -/
theorem restingPoint_eq_ite (dir : StackDir) (first last : Nat) :
    restingPoint dir first last = if dir = .forward then first else last := by
  cases dir <;> rfl

theorem Launch.profile_eq_w64_iff (p : Launch) : p.profile = .w64 ↔ p.ptrWidth = 64 := by
  simp [Launch.profile]

/-- Stack bytes given within the capacity are loaded. -/
theorem Launch.read_memory_stack (p : Launch) (k : Nat) (hk : k < p.stackInit.length) (hcap : k < p.stackCapacity) :
    p.memory.read (p.stackBase + k) = p.stackInit[k] := by
  have htake : k < (p.stackInit.take p.stackCapacity).length := by
    rw [List.length_take]
    omega
  rw [Launch.memory, Memory.read_writeBytes_inside _ _ _ _ htake, List.getElem_take]

section Preconditions

variable {p : Launch} (hp : p.Preconditions)
include hp

/-! ## The checks of reset -/

/-- No check of R303 refuses the launch. -/
theorem Launch.Preconditions.failedCheck_eq_none : p.failedCheck = none := by
  obtain ⟨hbase, ⟨himage, hentry, hstack⟩, hdisjoint, hwidth, hcapacity, hledger⟩ := hp
  have haligned : p.baseAligned = true := by simpa [Launch.baseAligned] using hbase
  have hrepr : p.representable = true := by simp [Launch.representable, himage, hentry, hstack]
  have hapart : p.disjoint = true := rangesDisjoint_iff.2 hdisjoint
  have hrange : p.inRange = true := by
    cases hk : p.ledgerCapacity with
    | none => simp [Launch.inRange, hwidth, hcapacity, hk]
    | some k => simp [Launch.inRange, hwidth, hcapacity, hk, hledger k hk]
  simp [Launch.failedCheck, haligned, hrepr, hapart, hrange]

/-- The entry point fits the 64 bits of `FAULT_INFO` in either profile. -/
theorem Launch.Preconditions.entry_lt : p.entry < 2 ^ 64 := by
  obtain ⟨-, ⟨-, hentry, -⟩, -, hwidth, -⟩ := hp
  have hle : p.ptrWidth ≤ 64 := by omega
  exact Nat.lt_of_lt_of_le hentry (Nat.pow_le_pow_right (by decide) hle)

/-! ## The memory a launch loads -/

/-- The stack bytes are loaded after the image and, disjoint from it, cover none of its bytes. -/
theorem Launch.Preconditions.read_memory_image (k : Nat) (hk : k < p.image.length) :
    p.memory.read (p.imageBase + k) = p.image[k] := by
  have houtside : p.imageBase + k < p.stackBase ∨
      p.stackBase + (p.stackInit.take p.stackCapacity).length ≤ p.imageBase + k := by
    have hapart := hp.disjoint (p.imageBase + k) (by omega) (by omega)
    rw [List.length_take]
    omega
  rw [Launch.memory, Memory.read_writeBytes_outside _ _ _ _ houtside, Memory.read_writeBytes_inside _ _ _ _ hk]

/-! ## The launched state -/

variable (u : State)

/-- An aligned entry point leaves the reset values as they are (R301). -/
theorem Launch.Preconditions.launch_of_aligned (ha : p.entry % 16 = 0) : State.launch p u = p.accepted u := by
  simp [State.launch, hp.failedCheck_eq_none, ha]

/-- A misaligned entry point faults the core on the reset values (R302). -/
theorem Launch.Preconditions.launch_of_misaligned (ha : p.entry % 16 ≠ 0) :
    State.launch p u = (p.accepted u).raiseFault .alignment p.entry := by
  simp [State.launch, hp.failedCheck_eq_none, ha]

/-- Whatever the entry point, only the status and the fault record may differ from the reset values. -/
theorem Launch.Preconditions.launch_eq_accepted_except_status : ∃ r c a i, State.launch p u =
    { p.accepted u with runState := r, faultCode := c, faultPc := a, faultInfo := i } := by
  by_cases ha : p.entry % 16 = 0
  · exact ⟨_, _, _, _, hp.launch_of_aligned u ha⟩
  · exact ⟨_, _, _, _, hp.launch_of_misaligned u ha⟩

end Preconditions

/-! ## The obligations -/

/-- Settles O51: the launched state is `Launch.accepted` apart from the status and the fault record, which an aligned
entry point leaves alone too. -/
theorem resetValues : Obligations.ResetValues := by
  intro p u hp s
  have hstatus (ha : p.entry % 16 = 0) :
      s.runState = .running ∧ s.faultCode = none ∧ s.faultPc = 0 ∧ s.faultInfo = 0 := by
    rw [show s = p.accepted u from hp.launch_of_aligned u ha]
    exact ⟨rfl, rfl, rfl, rfl⟩
  obtain ⟨r, c, a, i, hs : s = _⟩ := hp.launch_eq_accepted_except_status u
  clear_value s
  subst hs
  exact ⟨rfl, rfl, rfl, rfl, rfl, hp.read_memory_image, p.read_memory_stack, rfl, rfl, restingPoint_eq_ite .., rfl,
    rfl, p.profile_eq_w64_iff, rfl, rfl, hstatus⟩

/-- Settles O52: a misaligned entry point is a fault of the reset values, and with an aligned one the first step makes
the cursor tests at `pc = ENTRY`. -/
theorem entryChecks : Obligations.EntryChecks := by
  intro p u hp
  refine ⟨fun hmis => ?_, ?_, fun ha hend => ?_, fun ha hpast => ?_⟩
  · rw [hp.launch_of_misaligned u hmis]
    exact ⟨rfl, rfl, rfl, Nat.mod_eq_of_lt hp.entry_lt, step_stopped (by simp)⟩
  · have hbase := hp.base_aligned
    omega
  · rw [hp.launch_of_aligned u ha]
    exact ⟨_, step_at_limit rfl (congrArg (p.imageBase + ·) hend), rfl⟩
  · rw [hp.launch_of_aligned u ha]
    have habove : (p.accepted u).limit < (p.accepted u).pc := Nat.add_lt_add_left hpast p.imageBase
    exact ⟨_, step_above_limit rfl (Nat.le_add_right ..) habove, faultTaken_raiseFault ..⟩

end Sys2Proof.Machine
end

section
/-! Decoding against encoding: a decoder reads an instruction's fields from their bytes, faults at the first field that is
cut short (R92), and accepts no other bytes (R118, R119). -/

namespace Sys2Proof

open Sys2Proof.Machine

/-! ## The first field that is cut -/

section CutFields

variable {k : Nat} (ms : List Nat)

theorem cutFieldOffset_of_lt {off : Nat} (h : k < off) : cutFieldOffset k off ms = off := by
  cases ms with
  | nil => rfl
  | cons n ms => rw [cutFieldOffset, if_neg (by omega)]

/-- A cut inside the first fields is found among them. -/
theorem cutFieldOffset_append_of_lt (ns : List Nat) {off : Nat} (h : k < off + ns.sum) :
    cutFieldOffset k off (ns ++ ms) = cutFieldOffset k off ns := by
  induction ns generalizing off with
  | nil => exact cutFieldOffset_of_lt ms h
  | cons n ns ih =>
    rw [List.sum_cons, ← Nat.add_assoc] at h
    simp only [List.cons_append, cutFieldOffset, ih h]

/-- A cut behind the first fields is looked for in the others. -/
theorem cutFieldOffset_append_of_le (ns : List Nat) {off : Nat} (h : off + ns.sum ≤ k) :
    cutFieldOffset k off (ns ++ ms) = cutFieldOffset k (off + ns.sum) ms := by
  induction ns generalizing off with
  | nil => rfl
  | cons n ns ih =>
    rw [List.sum_cons, ← Nat.add_assoc] at h ⊢
    rw [List.cons_append, cutFieldOffset, if_pos (by omega), ih h]

end CutFields

/-! ## A decoder on the bytes of its fields -/

/-- The decoder `f` has fields of lengths `ns`, and `bs` are their bytes for the value `a`: it reads `a` from them and
looks no further, and when they are cut it stops at the first field that is not all there. -/
structure Reads {α : Type} (f : Cursor → Decoded α) (ns : List Nat) (bs : List Byte) (a : α) : Prop where
  length : bs.length = ns.sum
  whole (o : Nat) (rest : List Byte) : f ⟨o, bs ++ rest⟩ = .ok a ⟨o + ns.sum, rest⟩
  cut (o k : Nat) (hk : k < ns.sum) : f ⟨o, bs.take k⟩ = .error (.overrun (cutFieldOffset (o + k) o ns))

/-- An opcode byte with no field after it. -/
theorem reads_nothing {α : Type} (a : α) : Reads (Decoded.ok a) [] [] a where
  length := rfl
  whole _ _ := rfl
  cut _ _ hk := absurd hk (Nat.not_lt_zero _)

/-- One field, refused when its bytes are not all there. -/
theorem reads_field {α : Type} {f : Cursor → Decoded α} {n : Nat} {bs : List Byte} {a : α} (hl : bs.length = n)
    (hwhole : ∀ o rest, f ⟨o, bs ++ rest⟩ = .ok a ⟨o + n, rest⟩)
    (hshort : ∀ c : Cursor, c.rest.length < n → f c = .error (.overrun c.off)) : Reads f [n] bs a where
  length := by simpa using hl
  whole := by simpa using hwhole
  cut o k hk := by
    rw [List.sum_singleton] at hk
    rw [hshort _ (by rw [List.length_take]; omega), cutFieldOffset, if_neg (by omega)]

/-- A field followed by others. -/
theorem Reads.andThen {α β : Type} {f : Cursor → Decoded α} {g : α → Cursor → Decoded β} {ns ms : List Nat}
    {bs cs : List Byte} {a : α} {b : β} (hf : Reads f ns bs a) (hg : Reads (g a) ms cs b) :
    Reads (fun c => (f c).andThen g) (ns ++ ms) (bs ++ cs) b where
  length := by rw [List.length_append, List.sum_append, hf.length, hg.length]
  whole o rest := by
    rw [List.append_assoc, hf.whole, Decoded.andThen_ok, hg.whole, List.sum_append, Nat.add_assoc]
  cut o k hk := by
    rw [List.sum_append] at hk
    by_cases hcut : k < ns.sum
    · rw [List.take_append_of_le_length (by rw [hf.length]; omega), hf.cut o k hcut, Decoded.andThen_error,
        cutFieldOffset_append_of_lt ms ns (by omega)]
    · have hle : ns.sum ≤ k := Nat.le_of_not_lt hcut
      rw [List.take_append, List.take_of_length_le (by rw [hf.length]; exact hle), hf.whole, Decoded.andThen_ok,
        hf.length, hg.cut _ _ (by omega), cutFieldOffset_append_of_le ms ns (by omega),
        show o + ns.sum + (k - ns.sum) = o + k by omega]

/-- The end of a format: the instruction is made of what was read. -/
theorem Reads.andThen_ok {α β : Type} {f : Cursor → Decoded α} {g : α → Cursor → Decoded β} {ns : List Nat}
    {bs : List Byte} {a : α} {b : β} (hf : Reads f ns bs a) (hg : g a = .ok b) :
    Reads (fun c => (f c).andThen g) ns bs b where
  length := hf.length
  whole o rest := by rw [hf.whole, Decoded.andThen_ok, hg]
  cut o k hk := by rw [hf.cut o k hk, Decoded.andThen_error]

/-! ## Each field -/

section Fields

variable {w : PtrWidth}

theorem fetchTag_short {α : Type} {ofCode? : Nat → Option α} {unknown : Nat → DecodeError} {c : Cursor}
    (h : c.rest.length < 1) : fetchTag ofCode? unknown c = .error (.overrun c.off) := by
  rw [fetchTag, fetch_short h, Decoded.andThen_error]

theorem reads_fetchReg (r : RegId) : Reads fetchReg [1] (leBytes 1 r.code) r :=
  reads_field rfl (fetchReg_leBytes r) fun _ => fetchTag_short

theorem reads_fetchSlot (k : Slot) : Reads fetchSlot [1] (leBytes 1 k.val) k :=
  reads_field rfl (fetchSlot_leBytes k) fun _ => fetchTag_short

theorem reads_fetchDataType (dt : DataType) : Reads fetchDataType [1] (leBytes 1 dt.code) dt :=
  reads_field rfl (fetchDataType_leBytes dt) fun _ => fetchTag_short

theorem reads_fetchCond (cc : Cond) : Reads fetchCond [1] (leBytes 1 cc.code) cc :=
  reads_field rfl (fetchCond_leBytes cc) fun _ => fetchTag_short

theorem reads_fetchJumpType {jt : JumpType} (h : jt.validIn w = true) :
    Reads (fetchJumpType w) [1] (leBytes 1 jt.code) jt :=
  reads_field rfl (fun o rest => fetchJumpType_leBytes o rest h) fun _ hc => by
    rw [fetchJumpType, fetchTag_short hc, Decoded.andThen_error]

theorem reads_fetchImm {n : Nat} {imm : Word} (h : immFits n imm = true) :
    Reads (fetchImm n) [n] (leBytes n imm.toNat) imm :=
  reads_field (leBytes_length ..) (fun o rest => fetchImm_leBytes o rest h) fun _ hc => by
    rw [fetchImm, fetch_short hc, Decoded.andThen_error]

theorem reads_fetchTarget (t : Target) :
    Reads (fetchTarget t.jumpType) [t.jumpType.bytes] (leBytes t.jumpType.bytes t.field) t :=
  reads_field (leBytes_length ..) (fetchTarget_leBytes t) fun _ hc => by
    rw [fetchTarget, fetch_short hc, Decoded.andThen_error]

/-- The target field of an unconditional transfer is its whole format (R108). -/
theorem reads_decodeFJ {bits : Nat} (mk : BitVec bits → Instr) (v : BitVec bits) (hb : bits = 8 * (bits / 8)) :
    Reads (decodeFJ bits mk) [bits / 8] (leBytes (bits / 8) v.toNat) (mk v) :=
  reads_field (leBytes_length ..) (decodeFJ_leBytes mk v hb) fun _ hc => by
    rw [decodeFJ, fetch_short hc, Decoded.andThen_error]

end Fields

/-! ## Each format -/

section Formats

variable {w : PtrWidth} {imm : Word}

theorem reads_decodeFR (mk : RegId → Instr) (r : RegId) : Reads (decodeFR mk) [1] (leBytes 1 r.code) (mk r) :=
  (reads_fetchReg r).andThen_ok rfl

theorem reads_decodeFRR (mk : RegId → RegId → Instr) (rd rs : RegId) :
    Reads (decodeFRR mk) [1, 1] (leBytes 1 rd.code ++ leBytes 1 rs.code) (mk rd rs) :=
  (reads_fetchReg rd).andThen ((reads_fetchReg rs).andThen_ok rfl)

theorem reads_decodeFRROneWidth (mk : RegId → RegId → Instr) {rd rs : RegId} (h : rd.cls = rs.cls) :
    Reads (decodeFRROneWidth mk) [1, 1] (leBytes 1 rd.code ++ leBytes 1 rs.code) (mk rd rs) :=
  (reads_fetchReg rd).andThen ((reads_fetchReg rs).andThen_ok (funext fun _ => if_pos h))

theorem reads_decodeFRI (mk : RegId → Word → Instr) (rd : RegId) (h : immFits rd.cls.bytes imm = true) :
    Reads (decodeFRI mk) [1, rd.cls.bytes] (leBytes 1 rd.code ++ leBytes rd.cls.bytes imm.toNat) (mk rd imm) :=
  (reads_fetchReg rd).andThen ((reads_fetchImm h).andThen_ok rfl)

theorem reads_decodeFDI (mk : DataType → Word → Instr) (dt : DataType) (h : immFits (dt.bytes w) imm = true) :
    Reads (decodeFDI w mk) [1, dt.bytes w] (leBytes 1 dt.code ++ leBytes (dt.bytes w) imm.toNat) (mk dt imm) :=
  (reads_fetchDataType dt).andThen ((reads_fetchImm h).andThen_ok rfl)

theorem reads_decodePtr64 (op : Nat) (mk : BitVec 64 → Instr) (a : BitVec 64) (h : (w == .w64) = true) :
    Reads (decodePtr64 w op mk) [8] (leBytes 8 a.toNat) (mk a) := by
  obtain rfl := eq_of_beq h
  exact reads_decodeFJ mk a rfl

section Branches

variable {tgt : Target} (hv : tgt.jumpType.validIn w = true) (cc : Cond) (dt : DataType)
include hv

theorem reads_decodeFCRR (sa sb : Slot) :
    Reads (decodeFCRR w) [1, 1, 1, 1, 1, tgt.jumpType.bytes]
      ((Instr.jccRR cc dt sa sb tgt).fieldBytes w) (.jccRR cc dt sa sb tgt) := by
  simp only [Instr.fieldBytes, List.append_assoc]
  exact (reads_fetchCond cc).andThen <| (reads_fetchDataType dt).andThen <| (reads_fetchJumpType hv).andThen <|
    (reads_fetchSlot sa).andThen <| (reads_fetchSlot sb).andThen <| (reads_fetchTarget tgt).andThen_ok rfl

theorem reads_decodeFCRI (sa : Slot) (h : immFits (dt.bytes w) imm = true) :
    Reads (decodeFCRI w) [1, 1, 1, 1, dt.bytes w, tgt.jumpType.bytes]
      ((Instr.jccRI cc dt sa imm tgt).fieldBytes w) (.jccRI cc dt sa imm tgt) := by
  simp only [Instr.fieldBytes, List.append_assoc]
  exact (reads_fetchCond cc).andThen <| (reads_fetchDataType dt).andThen <| (reads_fetchJumpType hv).andThen <|
    (reads_fetchSlot sa).andThen <| (reads_fetchImm h).andThen <| (reads_fetchTarget tgt).andThen_ok rfl

end Branches

end Formats

/-! ## The whole instruction -/

theorem Instr.opcode_lt (i : Instr) : i.opcode < 256 := by
  cases i <;> simp [Instr.opcode]

section WholeInstruction

variable {w : PtrWidth} {i : Instr} (hwf : i.wellFormed w = true)
include hwf

/-- The fields after the opcode byte, by the format of the opcode map (R103 to R111). -/
theorem reads_decodeFields :
    Reads (decodeFields w i.opcode) (fieldLengths w i).tail (i.fieldBytes w) i := by
  cases i with
  | nop | exit | ret | jccRM | jccMM => exact reads_nothing _
  | movRR rd rs => exact reads_decodeFRR .movRR rd rs
  | movRI rd _ => exact reads_decodeFRI .movRI rd hwf
  | inc r => exact reads_decodeFR .inc r
  | dec r => exact reads_decodeFR .dec r
  | addRR _ _ => exact reads_decodeFRROneWidth .addRR (eq_of_beq hwf)
  | addRI rd _ => exact reads_decodeFRI .addRI rd hwf
  | subRR _ _ => exact reads_decodeFRROneWidth .subRR (eq_of_beq hwf)
  | subRI rd _ => exact reads_decodeFRI .subRI rd hwf
  | mulRR _ _ => exact reads_decodeFRROneWidth .mulRR (eq_of_beq hwf)
  | mulRI rd _ => exact reads_decodeFRI .mulRI rd hwf
  | pushR r => exact reads_decodeFR .pushR r
  | popR r => exact reads_decodeFR .popR r
  | pushI dt _ => exact reads_decodeFDI .pushI dt hwf
  | jmpNear v => exact reads_decodeFJ .jmpNear v rfl
  | jmpShort v => exact reads_decodeFJ .jmpShort v rfl
  | jmpLong v => exact reads_decodeFJ .jmpLong v rfl
  | jmpPtr32 v => exact reads_decodeFJ .jmpPtr32 v rfl
  | jmpPtr64 a => exact reads_decodePtr64 _ .jmpPtr64 a hwf
  | callShort v => exact reads_decodeFJ .callShort v rfl
  | callLong v => exact reads_decodeFJ .callLong v rfl
  | callPtr32 v => exact reads_decodeFJ .callPtr32 v rfl
  | callPtr64 a => exact reads_decodePtr64 _ .callPtr64 a hwf
  | jccRR cc dt sa sb _ => exact reads_decodeFCRR hwf cc dt sa sb
  | jccRI cc dt sa _ _ =>
    obtain ⟨hv, himm⟩ := Bool.and_eq_true_iff.1 hwf
    exact reads_decodeFCRI hv cc dt sa himm

/-- The opcode byte, then its fields (R118). -/
theorem reads_decode : Reads (fun c => (fetch 1 c).andThen (decodeFields w)) (fieldLengths w i) (encode w i) i := by
  have hop : Reads (fetch 1) [1] (leBytes 1 i.opcode) i.opcode :=
    reads_field rfl (fun o rest => by
      rw [fetch_leBytes, Nat.pow_one, Nat.mod_eq_of_lt i.opcode_lt]) fun _ => fetch_short
  have hns : fieldLengths w i = [1] ++ (fieldLengths w i).tail := by cases i <;> rfl
  rw [hns]
  exact hop.andThen (reads_decodeFields hwf)

theorem decode_encode_append (rest : List Byte) :
    decode w (encode w i ++ rest) = .ok (i, (encode w i).length) := by
  simp only [decode, (reads_decode hwf).whole, (reads_decode hwf).length, Nat.zero_add]

theorem decode_encode_take {k : Nat} (hk : k < (encode w i).length) :
    decode w ((encode w i).take k) = .error (.overrun (cutFieldOffset k 0 (fieldLengths w i))) := by
  rw [(reads_decode hwf).length] at hk
  simp only [decode, (reads_decode hwf).cut _ _ hk, Nat.zero_add]

end WholeInstruction

/-! ## What a decoder accepts -/

/-- Whatever the decoder `f` answers, it read bytes that stand in the relation `R` to the answer, moved past them and
left the others. -/
def Accepts {α : Type} (f : Cursor → Decoded α) (R : α → List Byte → Prop) : Prop :=
  ∀ c a c', f c = .ok a c' → ∃ bs, R a bs ∧ c.rest = bs ++ c'.rest ∧ c'.off = c.off + bs.length

theorem accepts_ok {α : Type} {R : α → List Byte → Prop} {a : α} (h : R a []) : Accepts (Decoded.ok a) R := by
  rintro c _ _ ⟨⟩
  exact ⟨[], h, rfl, rfl⟩

theorem accepts_error {α : Type} {R : α → List Byte → Prop} (e : DecodeError) :
    Accepts (fun _ => Decoded.error e) R := by
  rintro _ _ _ ⟨⟩

theorem Accepts.mono {α : Type} {f : Cursor → Decoded α} {Q R : α → List Byte → Prop} (hf : Accepts f Q)
    (h : ∀ a bs, Q a bs → R a bs) : Accepts f R := by
  intro c a c' hc
  obtain ⟨bs, hQ, hbytes⟩ := hf c a c' hc
  exact ⟨bs, h a bs hQ, hbytes⟩

/-- A field followed by others: the bytes of all stand one after another. -/
theorem Accepts.andThen {α β : Type} {f : Cursor → Decoded α} {g : α → Cursor → Decoded β} {Q : α → List Byte → Prop}
    {R : β → List Byte → Prop} (hf : Accepts f Q)
    (hg : ∀ a bs, Q a bs → Accepts (g a) fun b cs => R b (bs ++ cs)) : Accepts (fun c => (f c).andThen g) R := by
  intro c b c' h
  obtain ⟨a, d, ha, hb⟩ := Decoded.andThen_eq_ok.1 h
  obtain ⟨bs, hQ, hrest, hoff⟩ := hf c a d ha
  obtain ⟨cs, hR, hrest', hoff'⟩ := hg a bs hQ d b c' hb
  refine ⟨bs ++ cs, hR, ?_, ?_⟩
  · rw [hrest, hrest', List.append_assoc]
  · rw [hoff', hoff, List.length_append, Nat.add_assoc]

/-- The last field: the instruction is made of what was read. -/
theorem Accepts.andThen_ok {α β : Type} {f : Cursor → Decoded α} {mk : α → β} {Q : α → List Byte → Prop}
    {R : β → List Byte → Prop} (hf : Accepts f Q) (hR : ∀ a bs, Q a bs → R (mk a) bs) :
    Accepts (fun c => (f c).andThen fun a c => .ok (mk a) c) R :=
  hf.andThen fun a bs hQ => accepts_ok (by rw [List.append_nil]; exact hR a bs hQ)

section AcceptedFields

variable {w : PtrWidth}

theorem accepts_fetchReg : Accepts fetchReg fun r bs => bs = leBytes 1 r.code :=
  fun _ _ _ h => ⟨_, rfl, fetchReg_bytes h⟩

theorem accepts_fetchSlot : Accepts fetchSlot fun k bs => bs = leBytes 1 k.val :=
  fun _ _ _ h => ⟨_, rfl, fetchSlot_bytes h⟩

theorem accepts_fetchDataType : Accepts fetchDataType fun dt bs => bs = leBytes 1 dt.code :=
  fun _ _ _ h => ⟨_, rfl, fetchDataType_bytes h⟩

theorem accepts_fetchCond : Accepts fetchCond fun cc bs => bs = leBytes 1 cc.code :=
  fun _ _ _ h => ⟨_, rfl, fetchCond_bytes h⟩

theorem accepts_fetchJumpType :
    Accepts (fetchJumpType w) fun jt bs => jt.validIn w = true ∧ bs = leBytes 1 jt.code := by
  intro _ _ _ h
  obtain ⟨hv, hbytes⟩ := fetchJumpType_bytes h
  exact ⟨_, ⟨hv, rfl⟩, hbytes⟩

theorem accepts_fetchImm {n : Nat} (hn : n ≤ 8) :
    Accepts (fetchImm n) fun imm bs => immFits n imm = true ∧ bs = leBytes n imm.toNat := by
  intro _ _ _ h
  obtain ⟨hfits, hbytes⟩ := fetchImm_bytes hn h
  exact ⟨_, ⟨hfits, rfl⟩, by rwa [leBytes_length]⟩

theorem accepts_fetchTarget {jt : JumpType} :
    Accepts (fetchTarget jt) fun t bs => t.jumpType = jt ∧ bs = leBytes jt.bytes t.field := by
  intro _ _ _ h
  obtain ⟨hjt, hbytes⟩ := fetchTarget_bytes h
  exact ⟨_, ⟨hjt, rfl⟩, by rwa [leBytes_length]⟩

end AcceptedFields

section AcceptedFormats

variable {w : PtrWidth} {R : Instr → List Byte → Prop}

theorem accepts_decodeFR {mk : RegId → Instr} (h : ∀ r, R (mk r) (leBytes 1 r.code)) : Accepts (decodeFR mk) R :=
  accepts_fetchReg.andThen_ok fun r _ hr => hr ▸ h r

theorem accepts_decodeFRR {mk : RegId → RegId → Instr}
    (h : ∀ rd rs, R (mk rd rs) (leBytes 1 rd.code ++ leBytes 1 rs.code)) : Accepts (decodeFRR mk) R :=
  accepts_fetchReg.andThen fun rd _ hrd => accepts_fetchReg.andThen_ok fun rs _ hrs => hrd ▸ hrs ▸ h rd rs

theorem accepts_decodeFRROneWidth {mk : RegId → RegId → Instr}
    (h : ∀ rd rs, rd.cls = rs.cls → R (mk rd rs) (leBytes 1 rd.code ++ leBytes 1 rs.code)) :
    Accepts (decodeFRROneWidth mk) R := by
  refine accepts_fetchReg.andThen fun rd bs hrd => accepts_fetchReg.andThen fun rs cs hrs => ?_
  by_cases hcls : rd.cls = rs.cls
  · simp only [hcls, if_true]
    exact accepts_ok (by rw [List.append_nil, hrd, hrs]; exact h rd rs hcls)
  · simp only [hcls, if_false]
    exact accepts_error _

theorem accepts_decodeFRI {mk : RegId → Word → Instr}
    (h : ∀ rd imm, immFits rd.cls.bytes imm = true →
      R (mk rd imm) (leBytes 1 rd.code ++ leBytes rd.cls.bytes imm.toNat)) : Accepts (decodeFRI mk) R :=
  accepts_fetchReg.andThen fun rd _ hrd =>
    (accepts_fetchImm rd.cls.bytes_le).andThen_ok fun imm _ ⟨hfits, himm⟩ => hrd ▸ himm ▸ h rd imm hfits

theorem accepts_decodeFDI {mk : DataType → Word → Instr}
    (h : ∀ dt imm, immFits (dt.bytes w) imm = true →
      R (mk dt imm) (leBytes 1 dt.code ++ leBytes (dt.bytes w) imm.toNat)) : Accepts (decodeFDI w mk) R :=
  accepts_fetchDataType.andThen fun dt _ hdt =>
    (accepts_fetchImm (dt.bytes_le w)).andThen_ok fun imm _ ⟨hfits, himm⟩ => hdt ▸ himm ▸ h dt imm hfits

theorem accepts_decodeFJ {bits : Nat} {mk : BitVec bits → Instr} (hb : bits = 8 * (bits / 8))
    (h : ∀ v, R (mk v) (leBytes (bits / 8) v.toNat)) : Accepts (decodeFJ bits mk) R := by
  intro _ _ _ hdec
  obtain ⟨v, rfl, hbytes⟩ := decodeFJ_bytes hb hdec
  exact ⟨_, h v, by rwa [leBytes_length]⟩

theorem accepts_decodePtr64 {op : Nat} {mk : BitVec 64 → Instr}
    (h : ∀ a : BitVec 64, (w == .w64) = true → R (mk a) (leBytes 8 a.toNat)) : Accepts (decodePtr64 w op mk) R := by
  cases w with
  | w32 => exact accepts_error _
  | w64 => exact accepts_decodeFJ rfl fun a => h a rfl

theorem accepts_decodeFCRR
    (h : ∀ cc dt sa sb tgt, tgt.jumpType.validIn w = true →
      R (.jccRR cc dt sa sb tgt) ((Instr.jccRR cc dt sa sb tgt).fieldBytes w)) : Accepts (decodeFCRR w) R := by
  refine accepts_fetchCond.andThen fun cc _ hcc => accepts_fetchDataType.andThen fun dt _ hdt =>
    accepts_fetchJumpType.andThen fun jt _ ⟨hv, hjt⟩ => accepts_fetchSlot.andThen fun sa _ hsa =>
    accepts_fetchSlot.andThen fun sb _ hsb => accepts_fetchTarget.andThen_ok fun tgt _ ⟨htype, htgt⟩ => ?_
  subst hcc hdt hjt hsa hsb htgt htype
  simpa only [Instr.fieldBytes, List.append_assoc] using h cc dt sa sb tgt hv

theorem accepts_decodeFCRI
    (h : ∀ cc dt sa imm tgt, tgt.jumpType.validIn w = true → immFits (dt.bytes w) imm = true →
      R (.jccRI cc dt sa imm tgt) ((Instr.jccRI cc dt sa imm tgt).fieldBytes w)) : Accepts (decodeFCRI w) R := by
  refine accepts_fetchCond.andThen fun cc _ hcc => accepts_fetchDataType.andThen fun dt _ hdt =>
    accepts_fetchJumpType.andThen fun jt _ ⟨hv, hjt⟩ => accepts_fetchSlot.andThen fun sa _ hsa =>
    (accepts_fetchImm (dt.bytes_le w)).andThen fun imm _ ⟨hfits, himm⟩ =>
    accepts_fetchTarget.andThen_ok fun tgt _ ⟨htype, htgt⟩ => ?_
  subst hcc hdt hjt hsa himm htgt htype
  simpa only [Instr.fieldBytes, List.append_assoc] using h cc dt sa imm tgt hv hfits

end AcceptedFormats

/-- The instruction is one of profile `w` with this opcode byte, and the bytes are its other fields. -/
def IsFieldBytesOf (w : PtrWidth) (op : Nat) (i : Instr) (bs : List Byte) : Prop :=
  i.opcode = op ∧ i.wellFormed w = true ∧ bs = i.fieldBytes w

/-- The opcode map gives each byte the one instruction that has it (R111, R118). -/
theorem accepts_decodeFields (w : PtrWidth) (op : Nat) : Accepts (decodeFields w op) (IsFieldBytesOf w op) := by
  intro c i c' h
  unfold decodeFields at h
  split at h
  case h_1 | h_2 | h_25 | h_28 | h_29 => exact accepts_ok ⟨rfl, rfl, rfl⟩ c i c' h
  case h_3 => exact accepts_decodeFRR (fun _ _ => ⟨rfl, rfl, rfl⟩) c i c' h
  case h_4 | h_8 | h_10 | h_12 => exact accepts_decodeFRI (fun _ _ hfits => ⟨rfl, hfits, rfl⟩) c i c' h
  case h_5 | h_6 | h_13 | h_14 => exact accepts_decodeFR (fun _ => ⟨rfl, rfl, rfl⟩) c i c' h
  case h_7 | h_9 | h_11 =>
    exact accepts_decodeFRROneWidth (fun _ _ hcls => ⟨rfl, beq_iff_eq.2 hcls, rfl⟩) c i c' h
  case h_15 => exact accepts_decodeFDI (fun _ _ hfits => ⟨rfl, hfits, rfl⟩) c i c' h
  case h_16 | h_17 | h_18 | h_19 | h_21 | h_22 | h_23 =>
    exact accepts_decodeFJ rfl (fun _ => ⟨rfl, rfl, rfl⟩) c i c' h
  case h_20 | h_24 => exact accepts_decodePtr64 (fun _ hw => ⟨rfl, hw, rfl⟩) c i c' h
  case h_26 => exact accepts_decodeFCRR (fun _ _ _ _ _ hv => ⟨rfl, hv, rfl⟩) c i c' h
  case h_27 =>
    exact accepts_decodeFCRI (fun _ _ _ _ _ hv hfits => ⟨rfl, Bool.and_eq_true_iff.2 ⟨hv, hfits⟩, rfl⟩) c i c' h
  case h_30 => cases h

/-- The opcode byte of an instruction, then its other fields (R118). -/
theorem accepts_decode (w : PtrWidth) : Accepts (fun c => (fetch 1 c).andThen (decodeFields w))
    fun i bs => i.wellFormed w = true ∧ bs = encode w i := by
  have hop : Accepts (fetch 1) fun v bs => bs = leBytes 1 v := fun _ _ _ hf => ⟨_, rfl, (fetch_bytes hf).2⟩
  refine hop.andThen fun op bs hbs => (accepts_decodeFields w op).mono fun i cs ⟨hopcode, hwf, hcs⟩ => ⟨hwf, ?_⟩
  rw [hbs, hcs, encode, hopcode]

/-- What decodes is well-formed, and it was read from its own encoding. -/
theorem bytes_of_decode {w : PtrWidth} {bytes : List Byte} {i : Instr} {n : Nat} (h : decode w bytes = .ok (i, n)) :
    i.wellFormed w = true ∧ n = (encode w i).length ∧ ∃ rest, bytes = encode w i ++ rest := by
  unfold decode at h
  split at h
  case h_1 i' c' hd =>
    obtain ⟨_, ⟨hwf, rfl⟩, hrest, hoff⟩ := accepts_decode w ⟨0, bytes⟩ i' c' hd
    cases h
    exact ⟨hwf, hoff.trans (Nat.zero_add _), c'.rest, hrest⟩
  case h_2 => cases h

/-- The bytes decoded are there, as many as the instruction is long. -/
theorem length_le_of_decode {w : PtrWidth} {bytes : List Byte} {i : Instr} {n : Nat}
    (h : decode w bytes = .ok (i, n)) : i.length w ≤ bytes.length := by
  obtain ⟨-, -, rest, rfl⟩ := bytes_of_decode h
  rw [List.length_append, encode_length]
  exact Nat.le_add_right ..

/-! ## The obligations -/

/-- Settles O2: `Reads` puts the fields of each format together. -/
theorem decodeOfEncodeIsIdentity : Obligations.DecodeOfEncodeIsIdentity :=
  fun _ _ rest hwf => decode_encode_append hwf rest

/-- Settles O3: `Accepts` takes the fields of each format apart. -/
theorem encodeOfDecodeIsIdentity : Obligations.EncodeOfDecodeIsIdentity := by
  intro w bytes i n h
  obtain ⟨hwf, rfl, rest, rfl⟩ := bytes_of_decode h
  refine ⟨hwf, ?_, List.take_left.symm⟩
  rw [List.length_append]
  exact Nat.le_add_right ..

/-- Settles O5: the longest instruction has 21 bytes. -/
theorem decodingLooksAt21Bytes : Obligations.DecodingLooksAt21Bytes :=
  fun w bytes => decode_take w bytes (Nat.le_refl _)

/-- Settles O1: the decoder computes on bytes written out. -/
theorem wordsOfTheSpecDecode : Obligations.WordsOfTheSpecDecode :=
  ⟨rfl, rfl, rfl, rfl, rfl, rfl, rfl⟩

/-- Settles O9: decoding stops at the field that the cut reaches, and the step takes its fault. -/
theorem truncatedInstructionsFault : Obligations.TruncatedInstructionsFault := by
  intro s i k hf hwf hk himage
  exact ⟨_, step_of_decode_error hf (himage ▸ decode_encode_take hwf hk), faultTaken_raiseFault _ _ _⟩

/-- Settles O10: the bytes of the image decode to the instruction, for an encoded one as O2 says. -/
theorem stepExecutesTheDecodedInstruction : Obligations.StepExecutesTheDecodedInstruction :=
  ⟨fun _ _ _ hf hd => step_of_decode_ok hf hd,
    fun _ _ rest hf hwf himage => step_of_decode_ok hf (himage ▸ decode_encode_append hwf rest)⟩

end Sys2Proof
end

section
/-! The invariant of a launched core: what each state update keeps of it, and so each instruction, step and launch
(`10_state.md`, `70_reset_and_hazards.md`). -/

namespace Sys2Proof.Machine

/-! ## What an instruction leaves unchanged -/

theorem sameConfig_refl (s : State) : SameConfig s s :=
  ⟨rfl, rfl, rfl, rfl, rfl, rfl, rfl, rfl, rfl⟩

namespace Effect

variable {s t : State} {i : Instr} (h : Effect s i t)
include h

theorem sameConfig : SameConfig s t := by
  cases h with
  | fault | write | move | exit | push | pop | callStack | callLedger | retStack | retLedger =>
    exact ⟨rfl, rfl, rfl, rfl, rfl, rfl, rfl, rfl, rfl⟩

/-- The status changes on entry to `Faulted` and `Exited` only (R269, R271). -/
theorem fault_or_exit_or_sameStatus :
    (∃ c n, t = s.raiseFault c n) ∨ (i = .exit ∧ t.runState = .exited ∧ t.faultCode = s.faultCode) ∨
      SameStatus s t := by
  cases h with
  | fault _ c n => exact .inl ⟨c, n, rfl⟩
  | exit => exact .inr (.inl ⟨rfl, rfl, rfl⟩)
  | write | move | push | pop | callStack | callLedger | retStack | retLedger =>
    exact .inr (.inr ⟨rfl, rfl, rfl, rfl⟩)

theorem mayWriteRegs_of_regs_ne (hne : t.regs ≠ s.regs) : mayWriteRegs i = true := by
  cases h with
  | write _ _ _ _ hw => exact hw
  | pop => rfl
  | fault | move | exit | push | callStack | callLedger | retStack | retLedger => exact absurd rfl hne

theorem stack_instr_of_stack_ne (hne : t.sp ≠ s.sp ∨ t.mem ≠ s.mem) :
    isStackOp i = true ∨ (isCallOrRet i = true ∧ s.callConv = .stack) := by
  cases h with
  | push _ _ _ _ ho => exact .inl ho
  | pop => exact .inl rfl
  | callStack _ _ _ _ ho hc => exact .inr ⟨ho, hc⟩
  | retStack _ hc => exact .inr ⟨rfl, hc⟩
  | fault | write | move | exit | callLedger | retLedger => exact hne.elim (absurd rfl) (absurd rfl)

theorem ledger_instr_of_ledger_ne (hne : t.ledger ≠ s.ledger) : isCallOrRet i = true ∧ s.callConv = .ledger := by
  cases h with
  | callLedger _ _ _ _ ho hc => exact ⟨ho, hc⟩
  | retLedger _ _ hc => exact ⟨rfl, hc⟩
  | fault | write | move | exit | push | pop | callStack | retStack => exact absurd rfl hne

theorem eq_exit_of_retDesc_ne (hne : t.retDesc ≠ s.retDesc) : i = .exit := by
  cases h with
  | exit => rfl
  | fault | write | move | push | pop | callStack | callLedger | retStack | retLedger => exact absurd rfl hne

/-- Memory is written inside the stack region or not at all (R61, R64). -/
theorem mem_eq_or_written_in_stack :
    t.mem = s.mem ∨ ∃ a n v, s.inStack a n = true ∧ t.mem = s.mem.writeBytes a (leBytes n v) := by
  cases h with
  | push _ _ _ _ _ _ hs => exact .inr ⟨_, _, _, hs, rfl⟩
  | callStack _ _ _ _ _ _ _ _ hs => exact .inr ⟨_, _, _, hs, rfl⟩
  | fault | write | move | exit | pop | callLedger | retStack | retLedger => exact .inl rfl

/-- So a byte outside the stack reads as before. -/
theorem read_outside_stack {a : Nat} (ha : ¬ (s.first ≤ a ∧ a < s.last)) : t.mem.read a = s.mem.read a := by
  obtain hmem | ⟨b, n, v, hin, hmem⟩ := h.mem_eq_or_written_in_stack
  · rw [hmem]
  · obtain ⟨hlow, hhigh⟩ := State.inStack_iff.1 hin
    rw [hmem, Memory.read_writeBytes_outside _ _ _ _ (by rw [leBytes_length]; omega)]

end Effect

/-! ## What a state update keeps of the invariant -/

namespace State.Inv

variable {s : State} (h : s.Inv)
include h

theorem stackInBounds : StackInBounds s := ⟨h.sp_low, h.sp_high⟩

/-- A cursor that is not past `LIMIT` is an address or rests there (R32). -/
theorem pc_repr_of_le_limit {p : Nat} (hp : p ≤ s.limit) : p < 2 ^ s.ptrWidth.bits ∨ p = s.limit := by
  have hlimit := h.limit_repr
  omega

theorem pc_lt_of_ne_limit (hne : s.pc ≠ s.limit) : s.pc < 2 ^ s.ptrWidth.bits :=
  h.pc_repr.resolve_right hne

theorem faultCode_eq_none_of_running (hr : s.runState = .running) : s.faultCode = none :=
  h.fault_recorded.2 (by simp [hr])

theorem withPc {p : Nat} (hp : p < 2 ^ s.ptrWidth.bits ∨ p = s.limit) : (s.withPc p).Inv :=
  { h with pc_repr := hp }

theorem regWrite (r : RegId) (v : Nat) : (s.regWrite r v).Inv :=
  { h with }

theorem withRetDesc (d : RetDesc) : (s.withRetDesc d).Inv :=
  { h with }

theorem withStack {m : Memory} {p : Nat} (hm : m.wf = true) (hp : s.first ≤ p ∧ p ≤ s.last) : (s.withStack m p).Inv :=
  { h with mem_wf := hm, sp_low := hp.1, sp_high := hp.2 }

theorem withLedger {l : List LedgerEntry} (hstack : s.callConv = .stack → l = [])
    (hbound : ∀ k, s.ledgerCapacity = some k → l.length ≤ k)
    (hrepr : ∀ e ∈ l, e.callSite < 2 ^ s.ptrWidth.bits ∧ e.returnSite < 2 ^ s.ptrWidth.bits) : (s.withLedger l).Inv :=
  { h with ledger_unused := hstack, ledger_bound := hbound, ledger_repr := hrepr }

/-- A launch that ends without a fault records none (R269). -/
theorem halt {r : RunState} (hr : s.runState = .running) (hend : r ≠ .faulted ∧ r ≠ .refused) : (s.halt r).Inv :=
  { h with fault_recorded := iff_of_true (h.faultCode_eq_none_of_running hr) hend }

theorem raiseFault (hpc : s.pc < 2 ^ s.ptrWidth.bits) (c : FaultCode) (n : Nat) : (s.raiseFault c n).Inv :=
  { h with faultPc_repr := hpc, fault_recorded := by simp }

/-- A push with room writes stack bytes and keeps `sp` in bounds (R38, R71). -/
theorem withStack_push {n : Nat} (v : Nat) (hn : n ≤ s.stackFree) :
    (s.withStack (s.mem.writeBytes (s.pushAddr n) (leBytes n v)) (s.pushSp n)).Inv :=
  h.withStack (Memory.wf_writeBytes _ _ h.mem_wf) (State.pushAddr_inStack h.sp_low h.sp_high hn).2

theorem withStack_pop {n : Nat} (hn : n ≤ s.stackSize) : (s.withStack s.mem (s.popSp n)).Inv :=
  h.withStack h.mem_wf (State.popAddr_inStack h.sp_low h.sp_high hn).2

/-- A ledger that is not full takes one more entry (R39, R41). -/
theorem withLedger_push (hc : s.callConv = .ledger) (hl : s.ledgerCapacity ≠ some s.ledger.length) (site ret : Nat) :
    (s.withLedger (s.ledger ++ [⟨site % 2 ^ s.ptrWidth.bits, ret % 2 ^ s.ptrWidth.bits⟩])).Inv := by
  refine h.withLedger (fun hs => ?_) (fun k hk => ?_) fun e he => ?_
  · rw [hc] at hs
    cases hs
  · have hle := h.ledger_bound k hk
    have hne : s.ledger.length ≠ k := fun heq => hl (heq ▸ hk)
    rw [List.length_append, List.length_singleton]
    omega
  · rcases List.mem_append.1 he with hold | hnew
    · exact h.ledger_repr e hold
    · obtain rfl := List.mem_singleton.1 hnew
      exact ⟨Nat.mod_lt _ (Nat.two_pow_pos _), Nat.mod_lt _ (Nat.two_pow_pos _)⟩

theorem withLedger_pop {l : List LedgerEntry} {e : LedgerEntry} (hc : s.callConv = .ledger) (hl : s.ledger = l ++ [e]) :
    (s.withLedger l).Inv ∧ e.returnSite < 2 ^ s.ptrWidth.bits := by
  refine ⟨h.withLedger (fun hs => ?_) (fun k hk => ?_) fun e' he' => ?_, ?_⟩
  · rw [hc] at hs
    cases hs
  · have hle := h.ledger_bound k hk
    rw [hl, List.length_append] at hle
    exact Nat.le_of_add_right_le hle
  · exact h.ledger_repr e' (by simp [hl, he'])
  · exact (h.ledger_repr e (by simp [hl])).2

end State.Inv

/-! ## Instructions, steps and launches keep it -/

/-- An instruction that lies in the image of a Running core. -/
theorem Effect.inv {s t : State} {i : Instr} (h : Effect s i t) (hinv : s.Inv) (hr : s.runState = .running)
    (hpc : s.pc < s.limit) (hlen : s.pc + i.length s.ptrWidth ≤ s.limit) : t.Inv := by
  have hnext := hinv.pc_repr_of_le_limit hlen
  cases h with
  | fault _ c n => exact hinv.raiseFault (hinv.pc_lt_of_ne_limit (Nat.ne_of_lt hpc)) c n
  | write _ r v => exact (hinv.regWrite r v).withPc hnext
  | move _ p _ hp => exact hinv.withPc (hp.elim .inl fun heq => heq ▸ hnext)
  | exit => exact ((hinv.withRetDesc (exitDesc s)).withPc hnext).halt (r := .exited) hr (by decide)
  | push _ _ v _ _ hn => exact (hinv.withStack_push v hn).withPc hnext
  | pop r v _ hn => exact ((hinv.withStack_pop hn).regWrite r v).withPc hnext
  | callStack _ v _ _ _ _ hp hn => exact (hinv.withStack_push v hn).withPc (.inl hp)
  | callLedger _ v _ _ _ hc hp hl => exact (hinv.withLedger_push hc hl s.pc v).withPc (.inl hp)
  | retStack _ _ hp hn => exact (hinv.withStack_pop hn).withPc (.inl hp)
  | retLedger _ _ hc hl =>
    obtain ⟨hledger, hret⟩ := hinv.withLedger_pop hc hl
    exact hledger.withPc (.inl hret)

/-- The next states a step can answer from `s` (R307). -/
inductive StepEffect (s : State) : State → Prop
  /-- The core is not Running. -/
  | idle (hr : s.runState ≠ .running) : StepEffect s s
  /-- End of stream. -/
  | ended (hr : s.runState = .running) (hpc : s.pc = s.limit) : StepEffect s (s.halt .endOfStream)
  /-- A fault of the cursor or of decoding. -/
  | trap (c n) (hr : s.runState = .running) (hpc : s.pc ≠ s.limit) : StepEffect s (s.raiseFault c n)
  /-- The instruction at `pc`. -/
  | run (i n t) (hf : Fetching s) (hd : decode s.ptrWidth (imageFromPc s) = .ok (i, n)) (he : Effect s i t) :
      StepEffect s t

theorem step_effect {s t : State} (h : step s = .next t) : StepEffect s t := by
  obtain ⟨hr, ha⟩ | ⟨hr, hpc, ha⟩ | ⟨hr, hpc, -, ha⟩ | ⟨hr, -, hpc, ha⟩ | ⟨hr, -, hpc, e, -, ha⟩ |
    ⟨hr, hstart, hpc, i, n, hd, ha⟩ := step_cases s
  · cases h.symm.trans (step_idle ha)
    exact .idle hr
  · cases h.symm.trans (step_ended ha)
    exact .ended hr hpc
  · cases h.symm.trans (step_trap ha)
    exact .trap _ _ hr hpc
  · cases h.symm.trans (step_trap ha)
    exact .trap _ _ hr (Nat.ne_of_gt hpc)
  · cases h.symm.trans (step_trap ha)
    exact .trap _ _ hr (Nat.ne_of_lt hpc)
  · have hexec : exec i s = .next t := (step_run ha).symm.trans h
    exact .run i n t ⟨hr, hstart, hpc⟩ (decode_fetchWindow s ▸ hd) (exec_effect i s t hexec)

/-- What decodes at `pc` lies inside the image (R92). -/
theorem pc_add_length_le_limit {s : State} {i : Instr} {n : Nat} (hf : Fetching s)
    (hd : decode s.ptrWidth (imageFromPc s) = .ok (i, n)) : s.pc + i.length s.ptrWidth ≤ s.limit := by
  have hlen := length_le_of_decode hd
  obtain ⟨-, -, hpc⟩ := hf
  rw [imageFromPc, Memory.readBytes_length] at hlen
  omega

/-! ## No instruction stops the model on a stack in bounds -/

section Answers

variable {s : State}

theorem push_full {n : Nat} (v : Nat) (h : s.stackFree < n) : push s n v = .trap .stackOverflow s.sp := by
  rw [push, if_pos h]

theorem pop_short {n : Nat} (h : s.stackSize < n) : pop s n = .trap .stackUnderflow s.sp := by
  rw [pop, if_pos h]

/-- A shared operation that does not stop lets its instruction answer a next state. -/
theorem OpResult.settle_answers {α : Type} {r : OpResult α} (h : ∀ f, r ≠ .stop f) (base : State)
    (k : α → State → State) : ∃ t, r.settle base k = .next t := by
  cases r with
  | ok a t => exact ⟨_, rfl⟩
  | trap c n => exact ⟨_, rfl⟩
  | stop f => exact absurd rfl (h f)

section InBounds

variable (hin : StackInBounds s)
include hin

theorem push_ne_stop (n v : Nat) (f : Fault) : push s n v ≠ .stop f := by
  rcases Nat.lt_or_ge s.stackFree n with hfull | hroom
  · rw [push_full v hfull]
    nofun
  · rw [push_ok v hin.1 hin.2 hroom]
    nofun

theorem pop_ne_stop (n : Nat) (f : Fault) : pop s n ≠ .stop f := by
  rcases Nat.lt_or_ge s.stackSize n with hshort | henough
  · rw [pop_short hshort]
    nofun
  · rw [pop_ok hin.1 hin.2 henough]
    nofun

theorem pushReturn_ne_stop (site ret : Nat) (f : Fault) : pushReturn s site ret ≠ .stop f := by
  cases hc : s.callConv with
  | stack => exact pushReturn_stack hc site ret ▸ push_ne_stop hin _ _ f
  | ledger =>
    rw [pushReturn_ledger hc]
    rcases ledgerPush_cases s site ret with ⟨_, e⟩ | ⟨_, e⟩ <;> rw [e] <;> nofun

theorem popReturn_ne_stop (f : Fault) : popReturn s ≠ .stop f := by
  cases hc : s.callConv with
  | stack =>
    rw [popReturn_stack hc]
    split
    · nofun
    · exact pop_ne_stop hin _ f
  | ledger =>
    rw [popReturn_ledger hc]
    rcases ledgerPop_cases s with ⟨_, e⟩ | ⟨_, _, _, e⟩ <;> rw [e] <;> nofun

end InBounds

theorem jumpTo_answers (s : State) (p : Nat) : ∃ t, jumpTo s p = .next t := by
  by_cases ha : p % 16 = 0
  · exact ⟨_, jumpTo_aligned ha⟩
  · exact ⟨_, jumpTo_misaligned ha⟩

theorem callTo_answers (hin : StackInBounds s) (p n : Nat) : ∃ t, callTo s p n = .next t := by
  by_cases ha : p % 16 = 0
  · rw [callTo_aligned n ha]
    exact OpResult.settle_answers (pushReturn_ne_stop hin _ _) _ _
  · exact ⟨_, callTo_misaligned n ha⟩

theorem branch_answers (s : State) (c : Bool) (tgt : Target) (n : Nat) : ∃ t, branch c tgt n s = .next t := by
  unfold branch
  split
  · split
    · exact jumpTo_answers _ _
    · exact ⟨_, rfl⟩
  · exact ⟨_, rfl⟩

theorem binaryRR_answers (op : Int → Int → Int) (rd rs : RegId) (s : State) : ∃ t, binaryRR op rd rs s = .next t := by
  by_cases h : rd.cls = rs.cls
  · exact (binaryRR_of_cls_eq op s h).imp fun _ ht => ht.1
  · exact ⟨_, binaryRR_of_cls_ne op s h⟩

theorem execJmpPtr64_answers (s : State) (a : BitVec 64) : ∃ t, execJmpPtr64 a s = .next t := by
  cases hw : s.ptrWidth with
  | w32 => exact ⟨_, execJmpPtr64_in_profile32 hw a⟩
  | w64 =>
    simp only [execJmpPtr64, hw]
    exact jumpTo_answers s _

theorem execCallPtr64_answers (hin : StackInBounds s) (a : BitVec 64) : ∃ t, execCallPtr64 a s = .next t := by
  cases hw : s.ptrWidth with
  | w32 => exact ⟨_, execCallPtr64_in_profile32 hw a⟩
  | w64 =>
    simp only [execCallPtr64, hw]
    exact callTo_answers hin _ _

/-- An instruction can stop the model only by an access outside the stack (R64, log 8). -/
theorem exec_answers (hin : StackInBounds s) (i : Instr) : ∃ t, exec i s = .next t := by
  cases i with
  | nop | exit | movRR | movRI | inc | dec | addRI | subRI | mulRI | jccRM | jccMM => exact ⟨_, rfl⟩
  | addRR | subRR | mulRR => exact binaryRR_answers _ _ _ s
  | pushR | pushI => exact OpResult.settle_answers (push_ne_stop hin _ _) _ _
  | popR => exact OpResult.settle_answers (pop_ne_stop hin _) _ _
  | ret => exact OpResult.settle_answers (popReturn_ne_stop hin) _ _
  | jmpNear | jmpShort | jmpLong | jmpPtr32 => exact jumpTo_answers s _
  | jmpPtr64 a => exact execJmpPtr64_answers s a
  | callShort | callLong | callPtr32 => exact callTo_answers hin _ _
  | callPtr64 a => exact execCallPtr64_answers hin a
  | jccRR | jccRI => exact branch_answers s _ _ _

end Answers

/-! ## The obligations about the step -/

/-- Settles O13: the instruction lies in the image and every other step is a fault, an end or nothing. -/
theorem stepKeepsTheInvariant : Obligations.StepKeepsTheInvariant := by
  intro s t hinv hstep
  cases step_effect hstep with
  | idle => exact hinv
  | ended hr => exact hinv.halt hr (by decide)
  | trap c n _ hpc => exact hinv.raiseFault (hinv.pc_lt_of_ne_limit hpc) c n
  | run i n _ hf hd he =>
    obtain ⟨hr, -, hpc⟩ := id hf
    exact he.inv hinv hr hpc (pc_add_length_le_limit hf hd)

/-- Settles O17: only an instruction writes memory, inside the stack, which shares no address with the image. -/
theorem stepNeverWritesTheImage : Obligations.StepNeverWritesTheImage := by
  intro s t hinv hstep
  cases step_effect hstep with
  | idle | ended | trap => exact ⟨sameConfig_refl s, fun _ _ _ => rfl⟩
  | run i n _ _ _ he =>
    exact ⟨he.sameConfig, fun a hlow hhigh => he.read_outside_stack (hinv.regions_disjoint a hlow hhigh)⟩

/-- Settles O14: every step but an instruction is a next state, and an instruction stops the model only out of the
stack's bounds. -/
theorem stepAlwaysAnswersANextState : Obligations.StepAlwaysAnswersANextState := by
  intro s hinv
  unfold step
  cases s.stepAction with
  | idle | ended | trap => exact ⟨_, rfl⟩
  | run i => exact exec_answers hinv.stackInBounds i

/-- Settles O19: each way a step can go, and of an instruction what it does to the status. -/
theorem endsOfALaunch : Obligations.EndsOfALaunch := by
  intro s t hr hstep
  cases step_effect hstep with
  | idle hne => exact absurd hr hne
  | ended _ hpc => exact .inr (.inr (.inl ⟨rfl, rfl, hpc⟩))
  | trap => exact .inr (.inr (.inr ⟨rfl, nofun⟩))
  | run i n _ _ hd he =>
    obtain ⟨c, k, rfl⟩ | ⟨rfl, hexited, hcode⟩ | ⟨hsame, hcode, -⟩ := he.fault_or_exit_or_sameStatus
    · exact .inr (.inr (.inr ⟨rfl, nofun⟩))
    · exact .inr (.inl ⟨hexited, hcode, n, hd⟩)
    · exact .inl ⟨hsame.trans hr, hcode⟩

/-- Settles O20, one piece of state after another. -/
theorem onlyTheNamedInstructionsWrite : Obligations.OnlyTheNamedInstructionsWrite := by
  intro i s t hexec
  have he := exec_effect i s t hexec
  refine ⟨he.mayWriteRegs_of_regs_ne, he.stack_instr_of_stack_ne, he.ledger_instr_of_ledger_ne,
    he.eq_exit_of_retDesc_ne, fun hstatus => ?_, he.sameConfig⟩
  obtain ⟨c, n, rfl⟩ | ⟨-, hexited, -⟩ | hsame := he.fault_or_exit_or_sameStatus
  · exact .inr rfl
  · exact .inl hexited
  · exact absurd hsame hstatus

/-- Settles O11, one test after another. -/
theorem cursorBoundsAtTheStartOfAStep : Obligations.CursorBoundsAtTheStartOfAStep := by
  refine fun s hr => ⟨fun hpc => ?_, fun hne hpc => ?_, fun hstart hpc => ?_⟩
  · exact ⟨_, step_at_limit hr hpc, rfl, rfl, cursorEffect_withPc s s.pc⟩
  · exact ⟨_, step_below_start hr hne hpc, faultTaken_raiseFault _ _ _⟩
  · exact ⟨_, step_above_limit hr hstart hpc, faultTaken_raiseFault _ _ _⟩

/-- Settles O12: the first test of a step. -/
theorem onlyARunningCoreSteps : Obligations.OnlyARunningCoreSteps :=
  fun _ hr => step_stopped hr

/-! ## The obligations about launches -/

/-- A legal `PTR_WIDTH` is that of the profile it selects. -/
theorem Launch.Preconditions.profile_bits {p : Launch} (hp : p.Preconditions) : p.profile.bits = p.ptrWidth := by
  obtain h | h := hp.in_range.1
  · simp [Launch.profile, PtrWidth.bits, h]
  · simp [Launch.profile, PtrWidth.bits, h]

/-- The reset values meet the invariant (R301). -/
theorem Launch.Preconditions.accepted_inv {p : Launch} (hp : p.Preconditions) (u : State) : (p.accepted u).Inv := by
  obtain ⟨himage, hentry, hstack⟩ := hp.representable
  have hcapacity := hp.in_range.2.1
  rw [← hp.profile_bits] at himage hentry hstack
  have hsp : p.stackBase ≤ (p.accepted u).sp ∧ (p.accepted u).sp ≤ p.stackBase + p.stackCapacity := by
    show p.stackBase ≤ restingPoint .. ∧ restingPoint .. ≤ _
    rw [restingPoint_eq_ite]
    split <;> omega
  exact {
    mem_wf := Memory.wf_writeBytes _ _ (Memory.wf_writeBytes _ _ Memory.wf_nil)
    base_aligned := hp.base_aligned
    image_order := Nat.le_add_right ..
    limit_repr := himage
    entry_repr := hentry
    pc_repr := .inl hentry
    stack_order := Nat.lt_add_of_pos_right hcapacity
    last_repr := hstack
    sp_low := hsp.1
    sp_high := hsp.2
    regions_disjoint := hp.disjoint
    ledger_unused := fun _ => rfl
    ledger_bound := fun _ _ => Nat.zero_le _
    ledger_repr := nofun
    faultPc_repr := Nat.two_pow_pos _
    fault_recorded := by simp [Launch.accepted] }

/-- Settles O16: the reset values meet it, and a misaligned entry point only faults on them. -/
theorem acceptedLaunchMeetsTheInvariant : Obligations.AcceptedLaunchMeetsTheInvariant := by
  intro p u hp
  by_cases ha : p.entry % 16 = 0
  · exact hp.launch_of_aligned u ha ▸ hp.accepted_inv u
  · have hinv := hp.accepted_inv u
    exact hp.launch_of_misaligned u ha ▸ hinv.raiseFault hinv.entry_repr _ _

theorem preconditions_standard_empty : (Launch.standard []).Preconditions where
  base_aligned := rfl
  representable := by decide
  disjoint a hlow hhigh := absurd hhigh (Nat.not_lt.2 hlow)
  in_range := ⟨.inr rfl, by decide, nofun⟩

/-- Settles O15: the state after reset is the standard launch of an empty image. -/
theorem resetMeetsTheInvariant : Obligations.ResetMeetsTheInvariant := by
  have h := acceptedLaunchMeetsTheInvariant (Launch.standard []) State.reset preconditions_standard_empty
  rwa [launch_standard_empty] at h

end Sys2Proof.Machine
end

section
/-! The moves (`40_register_ops.md`) and the operand stack (`43_stack_ops.md`): what each instruction does with room or
bytes enough and where it faults, and pops of several pushes (R73). -/

namespace Sys2Proof.Machine

/-! ## The moves -/

/-- A move writes its value and reads back as much of it as the class holds (R24, R26). -/
theorem writeAndAdvance_effect (s : State) (rd : RegId) (v n : Nat) :
    ∃ t, writeAndAdvance s rd v n = .next t ∧ RegisterEffect s t rd v n ∧ t.regRead rd = v % 2 ^ rd.cls.bits :=
  ⟨_, rfl, registerEffect_regWrite_advance s rd v n, regRead_regWrite_same s rd v⟩

/-- Settles O24: a fitting immediate is smaller than `2^W`. -/
theorem movesWriteTheirDestination : Obligations.MovesWriteTheirDestination := by
  refine ⟨fun s rd rs => writeAndAdvance_effect s rd (s.regRead rs) 3, fun s rd imm hwf => ?_⟩
  have hfits : imm.toNat < 2 ^ rd.cls.bits := of_decide_eq_true hwf
  obtain ⟨t, hexec, heffect, hread⟩ := writeAndAdvance_effect s rd imm.toNat (2 + rd.cls.bytes)
  exact ⟨t, hexec, heffect, hread.trans (Nat.mod_eq_of_lt hfits)⟩

/-! ## One push or pop -/

/-- Settles O28: `Push` with room stores at the top. -/
theorem pushesStoreAtTheTop : Obligations.PushesStoreAtTheTop := by
  refine ⟨fun s r hin hn => ⟨_, ?_, storeEffect_withStack s _ _ _ _ _⟩, fun _ => exec_pushI_of_room⟩
  rw [exec, execPushR, push_ok _ hin.1 hin.2 hn]
  rfl

/-- What a read of memory gives fits its bytes. -/
theorem leNat_readBytes_lt (m : Memory) (a n : Nat) : leNat (m.readBytes a n) < 256 ^ n := by
  have h := leNat_lt (m.readBytes a n)
  rwa [Memory.readBytes_length] at h

/-- Settles O29: `Pop` with enough bytes reads them at the top. -/
theorem popLoadsFromTheTop : Obligations.PopLoadsFromTheTop := by
  intro s r hin hn
  refine ⟨_, _, exec_popR_of_pop (pop_ok hin.1 hin.2 hn), leNat_readBytes_lt .., bytesHold_readBytes s _ _, ?_⟩
  exact ⟨regWritten_regWrite _ _ _, rfl, rfl, fun _ => rfl, rfl, rfl, ⟨rfl, rfl, rfl, rfl⟩, sameConfig_refl s⟩

/-- Settles O30: `Push` and `Pop` trap before anything moves. -/
theorem stackBoundsFault : Obligations.StackBoundsFault := by
  refine ⟨fun s r h => ⟨_, ?_, faultTaken_raiseFault _ _ _⟩, fun s dt imm h => ⟨_, ?_, faultTaken_raiseFault _ _ _⟩,
    fun s r h => ⟨_, ?_, faultTaken_raiseFault _ _ _⟩⟩
  · rw [exec, execPushR, push_full _ h, OpResult.settle_trap]
  · rw [exec, execPushI, push_full _ h, OpResult.settle_trap]
  · rw [exec, execPopR, pop_short h, OpResult.settle_trap]

/-! ## A pop of two pushes -/

/-- Bytes outside of a store hold what they held. -/
theorem BytesHold.of_sameBytesOutside {t u : State} {a n v b m : Nat} (h : BytesHold t a n v)
    (hout : SameBytesOutside t u b m) (hdisjoint : a + n ≤ b ∨ b + m ≤ a) : BytesHold u a n v := by
  intro k hk
  rw [hout (a + k) (by omega)]
  exact h k hk

/-- Two fields that lie one after the other read as one number, the first the low part (R62). -/
theorem leNat_readBytes_of_two_bytesHold {u : State} {a n v m w : Nat} (hlow : BytesHold u a n v)
    (hhigh : BytesHold u (a + n) m w) :
    leNat (u.mem.readBytes a (n + m)) = v % 256 ^ n + 256 ^ n * (w % 256 ^ m) := by
  rw [Memory.readBytes_add, leNat_append, Memory.readBytes_length, leNat_readBytes_of_bytesHold hlow,
    leNat_readBytes_of_bytesHold hhigh]

section TwoPushes

variable {s t u : State} {n v p m w q : Nat} (hin : StackInBounds s) (hn : n + m ≤ s.stackFree)
  (h : StoreEffect s t (s.pushAddr n) n v (s.pushSp n) p)
include hin hn h

theorem StoreEffect.stackFree_of_push : m ≤ t.stackFree := by
  have hin' := h.stackInBounds_of_push hin (by omega)
  have hsize := h.stackSize_of_push hin (by omega)
  have hsum := State.size_add_free hin.1 hin.2
  have hsum' := State.size_add_free hin'.1 hin'.2
  obtain ⟨-, hfirst, hlast, -⟩ := h.sp_and_stack_config
  simp only [State.stackCapacity, hfirst, hlast] at hsum hsum'
  omega

/-- The value pushed first is the low part forward and the high part backward (R73). -/
theorem StoreEffect.pop_of_two_pushes (h' : StoreEffect t u (t.pushAddr m) m w (t.pushSp m) q) :
    pop u (n + m) = .ok (if s.stackDir = .forward then v % 256 ^ n + 256 ^ n * (w % 256 ^ m)
      else w % 256 ^ m + 256 ^ m * (v % 256 ^ n)) (u.withStack u.mem s.sp) := by
  have hin_t := h.stackInBounds_of_push hin (by omega)
  have hn_t := h.stackFree_of_push hin hn
  have hin_u := h'.stackInBounds_of_push hin_t hn_t
  have hsize : u.stackSize = s.stackSize + (n + m) := by
    rw [h'.stackSize_of_push hin_t hn_t, h.stackSize_of_push hin (by omega), Nat.add_assoc]
  obtain ⟨hsp, hfirst, -, hdir⟩ := h.sp_and_stack_config
  obtain ⟨hsp', -, -, hdir'⟩ := h'.sp_and_stack_config
  obtain ⟨hw, hout, -⟩ := h'
  have hv : BytesHold t (s.pushAddr n) n v := h.1
  rw [pop_ok hin_u.1 hin_u.2 (by omega)]
  cases hd : s.stackDir with
  | forward =>
    have hstored : s.pushAddr n = s.sp := by simp [State.pushAddr, hd]
    have hstored' : t.pushAddr m = s.sp + n := by simp [State.pushAddr, State.pushSp, hdir, hd, hsp]
    have hpop : u.popAddr (n + m) = s.sp ∧ u.popSp (n + m) = s.sp := by
      simp only [State.popAddr, State.popSp, State.pushSp, hdir', hdir, hd, hsp', hsp]
      omega
    rw [hstored] at hv
    rw [hstored'] at hw hout
    rw [hpop.1, hpop.2, if_pos rfl,
      leNat_readBytes_of_two_bytesHold (hv.of_sameBytesOutside hout (.inl (Nat.le_refl _))) hw]
  | backward =>
    have hroom : n + m ≤ s.sp := by
      rw [State.stackFree_of_backward hd hin] at hn
      omega
    have hstored : s.pushAddr n = s.sp - n := by simp [State.pushAddr, hd]
    have hstored' : t.pushAddr m = s.sp - n - m := by simp [State.pushAddr, State.pushSp, hdir, hd, hsp]
    have hpop : u.popAddr (n + m) = s.sp - n - m ∧ u.popSp (n + m) = s.sp := by
      simp only [State.popAddr, State.popSp, State.pushSp, hdir', hdir, hd, hsp', hsp, Nat.sub_sub,
        Nat.sub_add_cancel hroom, and_self]
    have hnext : s.sp - n = s.sp - n - m + m := by omega
    rw [hstored, hnext] at hv
    rw [hstored'] at hw hout
    rw [hpop.1, hpop.2, if_neg (by decide), Nat.add_comm n m,
      leNat_readBytes_of_two_bytesHold hw (hv.of_sameBytesOutside hout (.inr (Nat.le_refl _)))]

end TwoPushes

/-- `PUSH_I` of a 32-bit value (R73). -/
theorem exec_pushI_uint32 {s : State} (a : BitVec 32) (hin : StackInBounds s) (hn : 4 ≤ s.stackFree) :
    ∃ t, exec (.pushI .uint32 (a.zeroExtend 64)) s = .next t ∧
      StoreEffect s t (s.pushAddr 4) 4 a.toNat (s.pushSp 4) (s.pc + 6) := by
  have hvalue : (a.zeroExtend 64).toNat = a.toNat := by simp; omega
  exact hvalue ▸ exec_pushI_of_room .uint32 (a.zeroExtend 64) hin hn

/-- Two 32-bit halves make a value of a 64-bit slot. -/
theorem lt_two_pow_64_of_halves (a b : BitVec 32) : a.toNat + 2 ^ 32 * b.toNat < 2 ^ 64 := by
  have ha := a.isLt
  have hb := b.isLt
  omega

/-- Settles O32: two pushes of 4 bytes, and the 8 bytes popped are those of both. -/
theorem mixedWidthPop : Obligations.MixedWidthPop := by
  intro s k a b hin hn
  obtain ⟨t, hexec, h⟩ := exec_pushI_uint32 a hin (by omega)
  obtain ⟨u, hexec', h'⟩ := exec_pushI_uint32 b (h.stackInBounds_of_push hin (by omega)) (h.stackFree_of_push hin hn)
  have hpop := h.pop_of_two_pushes hin hn h'
  have ha : a.toNat % 256 ^ 4 = a.toNat := Nat.mod_eq_of_lt a.isLt
  have hb : b.toNat % 256 ^ 4 = b.toNat := Nat.mod_eq_of_lt b.isLt
  rw [ha, hb] at hpop
  refine ⟨t, u, _, hexec, hexec', exec_popR_of_pop (r := ⟨.r64, k⟩) hpop, rfl, fun hd => ?_, fun hd => ?_⟩
  · rw [if_pos hd]
    exact (regRead_regWrite_same _ ⟨.r64, k⟩ _).trans (Nat.mod_eq_of_lt (lt_two_pow_64_of_halves a b))
  · rw [if_neg (by simp [hd])]
    exact (regRead_regWrite_same _ ⟨.r64, k⟩ _).trans (Nat.mod_eq_of_lt (lt_two_pow_64_of_halves b a))

end Sys2Proof.Machine
end

section
/-! Control transfer (`41_control_transfer.md`, `42_conditional_branch.md`): jumps, calls, returns and branches by their
effects, and nested calls with their returns (R175). -/

namespace Sys2Proof.Machine

/-! ## Jumps and branches -/

/-- Settles O34: `NOP` is a move of the cursor and `EXIT` a record update. -/
theorem nopAndExit : Obligations.NopAndExit :=
  ⟨fun s => ⟨_, rfl, cursorEffect_withPc s _⟩, fun s =>
    ⟨_, rfl, rfl, rfl, rfl, rfl, rfl, rfl, rfl, rfl, rfl, rfl, fun _ => rfl, rfl, sameConfig_refl s⟩⟩

/-- Settles O36: an aligned jump is a move of the cursor. -/
theorem jumpsReachTheirTargets : Obligations.JumpsReachTheirTargets := fun s _ target htarget ha =>
  ⟨_, (exec_of_jumpTarget? htarget).trans (jumpTo_aligned ha), cursorEffect_withPc s target⟩

/-- A branch that is not taken moves past all its fields, its target unchecked (R206). -/
theorem branch_not_taken {s : State} {cond : Bool} {tgt : Target} (n : Nat)
    (hv : tgt.jumpType.validIn s.ptrWidth = true) (hc : cond = false) :
    branch cond tgt n s = .next (s.advance n) := by
  rw [branch, if_pos hv, if_neg (by simp [hc])]

/-- Both ways of a branch of a form the profile has. -/
theorem branch_effect {s : State} {tgt : Target} (cond : Bool) (n : Nat)
    (hv : tgt.jumpType.validIn s.ptrWidth = true) :
    (cond = true → targetAddr s.ptrWidth s.pc tgt % 16 = 0 →
      ∃ t, branch cond tgt n s = .next t ∧ CursorEffect s t (targetAddr s.ptrWidth s.pc tgt)) ∧
    (cond = false → ∃ t, branch cond tgt n s = .next t ∧ CursorEffect s t (s.pc + n)) :=
  ⟨fun hc ha => ⟨_, (branch_taken n hv hc).trans (jumpTo_aligned ha), cursorEffect_withPc s _⟩,
    fun hc => ⟨_, branch_not_taken n hv hc, cursorEffect_withPc s _⟩⟩

/-- Settles O48: both instructions are a branch on their condition. -/
theorem conditionalBranches : Obligations.ConditionalBranches :=
  ⟨fun _ _ _ _ _ _ hv => branch_effect _ _ hv, fun _ _ _ _ _ _ hv => branch_effect _ _ hv⟩

/-! ## Calls -/

theorem ledgerEffect_withLedger (s : State) (p : Nat) (l : List LedgerEntry) :
    LedgerEffect s ((s.withLedger l).withPc p) p l :=
  ⟨rfl, rfl, rfl, rfl, fun _ => rfl, rfl, ⟨rfl, rfl, rfl, rfl⟩, sameConfig_refl s⟩

theorem returnEffect_withStack (s : State) (p sp : Nat) : ReturnEffect s ((s.withStack s.mem sp).withPc p) p sp :=
  ⟨rfl, rfl, rfl, fun _ => rfl, rfl, rfl, ⟨rfl, rfl, rfl, rfl⟩, sameConfig_refl s⟩

section Calls

variable {s : State} {i : Instr} {target : Nat}

theorem ledgerPush_ok (site ret : Nat) (hl : s.ledgerCapacity ≠ some s.ledger.length) :
    ledgerPush s site ret = .ok () (s.withLedger
      (s.ledger ++ [⟨site % 2 ^ s.ptrWidth.bits, ret % 2 ^ s.ptrWidth.bits⟩])) := by
  obtain ⟨hfull, -⟩ | ⟨-, hok⟩ := ledgerPush_cases s site ret
  · exact absurd hfull hl
  · exact hok

theorem ledgerPush_full (site ret : Nat) (hl : s.ledgerCapacity = some s.ledger.length) :
    ledgerPush s site ret = .trap .ledgerOverflow site := by
  rw [ledgerPush, if_pos hl]

theorem ledgerPop_concat {l : List LedgerEntry} {e : LedgerEntry} (hl : s.ledger = l ++ [e]) :
    ledgerPop s = .ok e.returnSite (s.withLedger l) := by
  simp [ledgerPop, hl]

theorem ledgerPop_empty (hl : s.ledger = []) : ledgerPop s = .trap .emptyCallStack 0 := by
  simp [ledgerPop, hl]

section AlignedCall

variable (htarget : callTarget? s.ptrWidth s.pc i = some target) (ha : target % 16 = 0)
include htarget ha

/-- A call to an aligned target is `PushReturn` and the move of the cursor (R170 to R173). -/
theorem exec_call_of_aligned : exec i s =
    (pushReturn s s.pc (s.pc + i.length s.ptrWidth)).settle s fun _ t => t.withPc target :=
  (exec_of_callTarget? htarget).trans (callTo_aligned _ ha)

theorem exec_call_stack (hc : s.callConv = .stack) (hin : StackInBounds s) (hn : s.ptrWidth.bytes ≤ s.stackFree) :
    ∃ t, exec i s = .next t ∧ StoreEffect s t (s.pushAddr s.ptrWidth.bytes) s.ptrWidth.bytes
      (s.pc + i.length s.ptrWidth) (s.pushSp s.ptrWidth.bytes) target := by
  refine ⟨_, ?_, storeEffect_withStack s _ _ _ _ _⟩
  rw [exec_call_of_aligned htarget ha, pushReturn_stack hc, push_ok _ hin.1 hin.2 hn, OpResult.settle_ok]

theorem exec_call_ledger (hc : s.callConv = .ledger) (hl : s.ledgerCapacity ≠ some s.ledger.length) :
    ∃ t, exec i s = .next t ∧ LedgerEffect s t target (s.ledger ++
      [⟨s.pc % 2 ^ s.ptrWidth.bits, (s.pc + i.length s.ptrWidth) % 2 ^ s.ptrWidth.bits⟩]) := by
  refine ⟨_, ?_, ledgerEffect_withLedger s _ _⟩
  rw [exec_call_of_aligned htarget ha, pushReturn_ledger hc, ledgerPush_ok _ _ hl, OpResult.settle_ok]

end AlignedCall

/-! ## Returns -/

theorem exec_ret_stack (hc : s.callConv = .stack) (hin : StackInBounds s) (hn : s.ptrWidth.bytes ≤ s.stackSize) :
    ∃ t, exec .ret s = .next t ∧
      ReturnEffect s t (leNat (s.mem.readBytes (s.popAddr s.ptrWidth.bytes) s.ptrWidth.bytes))
        (s.popSp s.ptrWidth.bytes) := by
  have hpop := (popReturn_stack hc).trans ((if_neg (Nat.not_lt.2 hn)).trans (pop_ok hin.1 hin.2 hn))
  exact ⟨_, exec_ret_of_popReturn hpop, returnEffect_withStack s _ _⟩

theorem exec_ret_ledger {l : List LedgerEntry} {e : LedgerEntry} (hc : s.callConv = .ledger)
    (hl : s.ledger = l ++ [e]) : ∃ t, exec .ret s = .next t ∧ LedgerEffect s t e.returnSite l :=
  ⟨_, exec_ret_of_popReturn ((popReturn_ledger hc).trans (ledgerPop_concat hl)), ledgerEffect_withLedger s _ _⟩

end Calls

/-- Settles O38: `PushReturn` is a push of the address after the call. -/
theorem callsPushTheReturnAddress : Obligations.CallsPushTheReturnAddress :=
  fun _ _ _ htarget ha hc hin hn => exec_call_stack htarget ha hc hin hn

/-- Settles O39: `PushReturn` is a new entry of the ledger. -/
theorem callsAppendToTheLedger : Obligations.CallsAppendToTheLedger :=
  fun _ _ _ htarget ha hc hl => exec_call_ledger htarget ha hc hl

/-- Settles O40: the fault is that of `Push` or of `LedgerPush`. -/
theorem callsWithoutRoomFault : Obligations.CallsWithoutRoomFault := by
  refine fun s i target htarget ha => ⟨fun hc hn => ⟨_, ?_, faultTaken_raiseFault _ _ _⟩,
    fun hc hl => ⟨_, ?_, faultTaken_raiseFault _ _ _⟩⟩
  · rw [exec_call_of_aligned htarget ha, pushReturn_stack hc, push_full _ hn, OpResult.settle_trap]
  · rw [exec_call_of_aligned htarget ha, pushReturn_ledger hc, ledgerPush_full _ _ hl, OpResult.settle_trap]

/-- Settles O41: the address is what the bytes at the top hold, or the last entry's. -/
theorem returnTakesTheMostRecentAddress : Obligations.ReturnTakesTheMostRecentAddress := by
  refine ⟨fun s hc hin hn => ?_, fun _ _ _ hc hl => exec_ret_ledger hc hl⟩
  obtain ⟨t, hexec, heffect⟩ := exec_ret_stack hc hin hn
  exact ⟨t, _, hexec, leNat_readBytes_lt .., bytesHold_readBytes s _ _, heffect⟩

/-- Settles O42: the emptiness check comes before `Pop`'s own (R161). -/
theorem emptyReturnFaults : Obligations.EmptyReturnFaults := by
  refine ⟨fun s hc hn => ⟨_, ?_, faultTaken_raiseFault _ _ _⟩, fun s hc hl => ⟨_, ?_, faultTaken_raiseFault _ _ _⟩⟩
  · rw [exec, execRet, popReturn_stack hc, if_pos hn, OpResult.settle_trap]
  · rw [exec, execRet, popReturn_ledger hc, ledgerPop_empty hl, OpResult.settle_trap]

/-! ## Nested calls -/

/-- The byte at `a` is one of the stack's free bytes, which a push may write. -/
def State.FreeByte (s : State) (a : Nat) : Prop :=
  match s.stackDir with
  | .forward => s.sp ≤ a ∧ a < s.last
  | .backward => s.first ≤ a ∧ a < s.sp

/-- The free bytes before a push are those it writes and those that stay free. -/
theorem StoreEffect.freeByte_iff_of_push {s t : State} {n v p : Nat} (hin : StackInBounds s) (hn : n ≤ s.stackFree)
    (h : StoreEffect s t (s.pushAddr n) n v (s.pushSp n) p) (a : Nat) :
    (s.FreeByte a ↔ t.FreeByte a ∨ (s.pushAddr n ≤ a ∧ a < s.pushAddr n + n)) ∧
      ¬ (t.FreeByte a ∧ s.pushAddr n ≤ a ∧ a < s.pushAddr n + n) := by
  obtain ⟨hsp, hfirst, hlast, hdir⟩ := h.sp_and_stack_config
  cases hd : s.stackDir with
  | forward =>
    rw [State.stackFree_of_forward hd hin] at hn
    simp only [State.FreeByte, State.pushAddr, State.pushSp, hdir, hd, hsp, hlast]
    omega
  | backward =>
    rw [State.stackFree_of_backward hd hin] at hn
    simp only [State.FreeByte, State.pushAddr, State.pushSp, hdir, hd, hsp, hfirst]
    omega

/-- `u` is `s` again but for the cursor, the free bytes of the stack and the record of how the launch goes. -/
structure Returned (s u : State) : Prop where
  sp     : u.sp = s.sp
  ledger : u.ledger = s.ledger
  regs   : u.regs = s.regs
  config : SameConfig s u
  held   : ∀ a, ¬ s.FreeByte a → u.mem.read a = s.mem.read a

theorem returned_refl (s : State) : Returned s s where
  sp := rfl
  ledger := rfl
  regs := rfl
  config := sameConfig_refl s
  held _ _ := rfl

theorem SameConfig.trans {s t u : State} (h : SameConfig s t) (h' : SameConfig t u) : SameConfig s u := by
  simp_all [SameConfig]

namespace Returned

variable {t u : State} (h : Returned t u)
include h

theorem stackInBounds (hin : StackInBounds t) : StackInBounds u := by
  obtain ⟨-, -, -, hfirst, hlast, -⟩ := h.config
  rwa [StackInBounds, hfirst, hlast, h.sp]

theorem stackSize_eq : u.stackSize = t.stackSize := by
  obtain ⟨-, -, -, hfirst, hlast, -, hdir, -⟩ := h.config
  rw [State.stackSize, State.stackSize, hdir, hfirst, hlast, h.sp]

theorem popAddr_eq (n : Nat) : u.popAddr n = t.popAddr n := by
  obtain ⟨-, -, -, -, -, -, hdir, -⟩ := h.config
  rw [State.popAddr, State.popAddr, hdir, h.sp]

theorem popSp_eq (n : Nat) : u.popSp n = t.popSp n := by
  obtain ⟨-, -, -, -, -, -, hdir, -⟩ := h.config
  rw [State.popSp, State.popSp, hdir, h.sp]

end Returned

/-- `PTR_BYTES` bytes hold `PTR_WIDTH` bits (R8). -/
theorem ptrWidth_pow_bytes (w : PtrWidth) : 256 ^ w.bytes = 2 ^ w.bits := by
  cases w <;> rfl

section OneCall

variable {s t : State} {i : Instr} {target : Nat}

/-- After a call under `CALL_CONV = Stack`, a return from any state that is the called one again is a return to the
address after the call. -/
theorem StoreEffect.ret_of_call {ret : Nat} (hc : s.callConv = .stack) (hin : StackInBounds s)
    (hn : s.ptrWidth.bytes ≤ s.stackFree)
    (h : StoreEffect s t (s.pushAddr s.ptrWidth.bytes) s.ptrWidth.bytes ret (s.pushSp s.ptrWidth.bytes) target)
    {u : State} (hu : Returned t u) :
    ∃ v, exec .ret u = .next v ∧ Returned s v ∧ v.pc = ret % 2 ^ s.ptrWidth.bits := by
  have hin' := h.stackInBounds_of_push hin hn
  have hsize := h.stackSize_of_push hin hn
  have hpopAddr := h.popAddr_of_push hin hn
  have hpopSp := h.popSp_of_push hin hn
  have hfree := h.freeByte_iff_of_push hin hn
  obtain ⟨hbytes, hout, -, -, hregs, hledger, -, -, hconfig⟩ := h
  have hconfig' := hconfig.trans hu.config
  obtain ⟨-, -, -, -, -, hwidth, -, hconv, -⟩ := id hconfig'
  rw [← hwidth] at hn hsize hpopAddr hpopSp hfree hbytes hout ⊢
  obtain ⟨v, hexec, hpc, hsp, hregs', hmem, hledger', -, -, hconfig''⟩ :=
    exec_ret_stack (hconv.trans hc) (hu.stackInBounds hin') (by rw [hu.stackSize_eq, hsize]; exact Nat.le_add_left ..)
  have hheld : BytesHold u (s.pushAddr u.ptrWidth.bytes) u.ptrWidth.bytes ret := by
    intro k hk
    rw [hu.held _ fun hfreeByte => (hfree _).2 ⟨hfreeByte, by omega⟩]
    exact hbytes k hk
  refine ⟨v, hexec, ⟨?_, ?_, ?_, ?_, ?_⟩, ?_⟩
  · rw [hsp, hu.popSp_eq, hpopSp]
  · rw [hledger', hu.ledger, hledger]
  · rw [hregs', hu.regs, hregs]
  · exact hconfig'.trans hconfig''
  · intro a ha
    rw [(hfree a).1] at ha
    rw [hmem a, hu.held a fun hfreeByte => ha (.inl hfreeByte), hout a (by omega)]
  · rw [hpc, hu.popAddr_eq, hpopAddr, leNat_readBytes_of_bytesHold hheld, ptrWidth_pow_bytes]

/-- The same under `CALL_CONV = Ledger`. -/
theorem LedgerEffect.ret_of_call {e : LedgerEntry} (hc : s.callConv = .ledger)
    (h : LedgerEffect s t target (s.ledger ++ [e])) {u : State} (hu : Returned t u) :
    ∃ v, exec .ret u = .next v ∧ Returned s v ∧ v.pc = e.returnSite := by
  obtain ⟨-, hledger, hregs, hsp, hmem, -, -, hconfig⟩ := h
  have hconfig' := hconfig.trans hu.config
  obtain ⟨-, -, -, hfirst, hlast, -, hdir, hconv, -⟩ := id hconfig
  obtain ⟨-, -, -, -, -, -, -, hconv', -⟩ := id hu.config
  have hfree (a : Nat) : t.FreeByte a ↔ s.FreeByte a := by
    simp only [State.FreeByte, hdir, hsp, hfirst, hlast]
  obtain ⟨v, hexec, hpc, hledger', hregs', hsp', hmem', -, -, hconfig''⟩ :=
    exec_ret_ledger (hconv'.trans (hconv.trans hc)) (hu.ledger.trans hledger)
  refine ⟨v, hexec, ⟨?_, hledger', ?_, ?_, ?_⟩, hpc⟩
  · rw [hsp', hu.sp, hsp]
  · rw [hregs', hu.regs, hregs]
  · exact hconfig'.trans hconfig''
  · intro a ha
    rw [hmem' a, hu.held a (mt (hfree a).1 ha), hmem a]

end OneCall

/-- The first of nested calls: the rest nests in the state after it, and the return from there goes to the address
after it (R175). -/
theorem CallsNest.head {s : State} {c : Instr} {cs : List Instr} (h : CallsNest (c :: cs) s) (hin : StackInBounds s) :
    ∃ t, exec c s = .next t ∧ CallsNest cs t ∧ StackInBounds t ∧ ∀ u, Returned t u →
      ∃ v, exec .ret u = .next v ∧ Returned s v ∧ v.pc = (s.pc + c.length s.ptrWidth) % 2 ^ s.ptrWidth.bits := by
  obtain ⟨target, t, htarget, ha, hroom, hcapacity, hexec, hrest⟩ := h
  refine ⟨t, hexec, hrest, ?_⟩
  cases hc : s.callConv with
  | stack =>
    obtain ⟨t', hexec', heffect⟩ := exec_call_stack htarget ha hc hin (hroom hc)
    obtain rfl := Host.Outcome.next.inj (hexec.symm.trans hexec')
    exact ⟨heffect.stackInBounds_of_push hin (hroom hc), fun u hu => heffect.ret_of_call hc hin (hroom hc) hu⟩
  | ledger =>
    obtain ⟨t', hexec', heffect⟩ := exec_call_ledger htarget ha hc (hcapacity hc)
    obtain rfl := Host.Outcome.next.inj (hexec.symm.trans hexec')
    refine ⟨?_, fun u hu => heffect.ret_of_call hc hu⟩
    obtain ⟨-, -, -, hsp, -, -, -, -, -, -, hfirst, hlast, -⟩ := heffect
    rwa [StackInBounds, hfirst, hlast, hsp]

theorem execAll_cons_eq_next {i : Instr} {is : List Instr} {s t : State} :
    execAll (i :: is) s = .next t ↔ ∃ u, exec i s = .next u ∧ execAll is u = .next t := by
  rw [execAll]
  cases exec i s <;> simp

theorem execAll_append_of_next {is : List Instr} (js : List Instr) {s t : State} (h : execAll is s = .next t) :
    execAll (is ++ js) s = execAll js t := by
  induction is generalizing s with
  | nil =>
    cases h
    rfl
  | cons i is ih =>
    obtain ⟨u, hi, his⟩ := execAll_cons_eq_next.1 h
    rw [List.cons_append, execAll, hi]
    exact ih his

/-- The instructions `is`, then as many returns, lead from `s` to `u`. -/
def Unwinds (is : List Instr) (s u : State) : Prop :=
  ∃ t, execAll is s = .next t ∧ execAll (List.replicate is.length .ret) t = .next u

/-- Around calls that unwind, a call and a return. -/
theorem Unwinds.cons {c : Instr} {cs : List Instr} {s t u v : State} (hc : exec c s = .next t) (h : Unwinds cs t u)
    (hret : exec .ret u = .next v) : Unwinds (c :: cs) s v := by
  obtain ⟨w, hcalls, hrets⟩ := h
  refine ⟨w, execAll_cons_eq_next.2 ⟨t, hc, hcalls⟩, ?_⟩
  rw [List.length_cons, List.replicate_succ', execAll_append_of_next _ hrets]
  exact execAll_cons_eq_next.2 ⟨v, hret, rfl⟩

/-- However deep calls nest, as many returns lead back. -/
theorem CallsNest.unwinds {is : List Instr} {s : State} (h : CallsNest is s) (hin : StackInBounds s) :
    ∃ u, Unwinds is s u ∧ Returned s u := by
  induction is generalizing s with
  | nil => exact ⟨s, ⟨s, rfl, rfl⟩, returned_refl s⟩
  | cons c cs ih =>
    obtain ⟨t, hexec, hrest, hin', hret⟩ := h.head hin
    obtain ⟨u, hunwinds, hreturned⟩ := ih hrest hin'
    obtain ⟨v, hexec', hback, -⟩ := hret u hreturned
    exact ⟨v, hunwinds.cons hexec hexec', hback⟩

/-- Settles O43: the calls after the first unwind to its target, and the last return is its own. -/
theorem nestedCallsReturnToTheOutermostCallSite : Obligations.NestedCallsReturnToTheOutermostCallSite := by
  intro s c cs hinv hfits hnest
  obtain ⟨t, hexec, hrest, hin, hret⟩ := hnest.head hinv.stackInBounds
  obtain ⟨u, hunwinds, hreturned⟩ := hrest.unwinds hin
  obtain ⟨v, hexec', hback, hpc⟩ := hret u hreturned
  obtain ⟨w, hcalls, hrets⟩ := hunwinds.cons hexec hexec'
  exact ⟨w, v, hcalls, hrets, hpc.trans (Nat.mod_eq_of_lt hfits), hback.sp, hback.ledger, hback.regs⟩

end Sys2Proof.Machine
end

section
/-! Typed operands (R201) and what the signedness of a tag does to a comparison (R203). -/

namespace Sys2Proof

theorem DataType.bits_pos (w : PtrWidth) (dt : DataType) : 0 < dt.bits w := by
  cases w <;> cases dt <;> decide

theorem DataType.signed_of_mem {dt : DataType} (h : dt ∈ [DataType.int8, .int16, .int32, .int64]) : dt.signed = true := by
  cases dt <;> simp_all [DataType.signed]

theorem DataType.unsigned_of_mem {dt : DataType}
    (h : dt ∈ [DataType.uint8, .uint16, .uint32, .uint64, .pointer]) :
    dt.signed = false := by
  cases dt <;> simp_all [DataType.signed]

end Sys2Proof

namespace Sys2Proof.Machine

/-! ## Readings of a pattern -/

/-- Two's complement by its sign bit (R11). -/
theorem sext_eq_ite {bits : Nat} (hb : 0 < bits) (v : Nat) :
    sext bits v = if v % 2 ^ bits < 2 ^ (bits - 1) then ((v % 2 ^ bits : Nat) : Int)
      else ((v % 2 ^ bits : Nat) : Int) - 2 ^ bits := by
  have hhalf : 2 * 2 ^ (bits - 1) = 2 ^ bits := by rw [← Nat.pow_succ', Nat.succ_eq_add_one, Nat.sub_add_cancel hb]
  have hcast : ((2 ^ bits : Nat) : Int) = 2 ^ bits := Int.natCast_pow 2 bits
  have hsign : 2 * (v % 2 ^ bits) < 2 ^ bits ↔ v % 2 ^ bits < 2 ^ (bits - 1) := by omega
  simp only [sext, BitVec.toInt_eq_toNat_cond, BitVec.toNat_ofNat, hcast, hsign]

theorem sext_mod (bits v : Nat) : sext bits (v % 2 ^ bits) = sext bits v := by
  rw [sext, sext]
  congr 1
  exact BitVec.eq_of_toNat_eq (by simp)

section Readings

variable {dt : DataType} (w : PtrWidth)

theorem readTyped_signed (h : dt.signed = true) (v : Nat) : readTyped w dt v = sext (dt.bits w) v := by
  rw [readTyped, if_pos h]

theorem readTyped_unsigned (h : dt.signed = false) (v : Nat) :
    readTyped w dt v = ((v % 2 ^ dt.bits w : Nat) : Int) := by
  rw [readTyped, if_neg (by simp [h]), truncTo_natCast]

/-- A slot operand's bytes above the tag's width are ignored (R201). -/
theorem slotTyped_eq_readTyped (s : State) (dt : DataType) (k : Slot) :
    s.slotTyped dt k = readTyped s.ptrWidth dt s.regs[k].toNat := by
  rw [State.slotTyped, truncTo_natCast]
  cases h : dt.signed with
  | true => rw [readTyped_signed _ h, readTyped_signed _ h, sext_mod]
  | false => rw [readTyped_unsigned _ h, readTyped_unsigned _ h, Nat.mod_mod]

end Readings

/-- Settles O46: each kind of tag by its reading. -/
theorem typedOperandReading : Obligations.TypedOperandReading := by
  refine fun s dt k => ⟨fun hmem v => ?_, fun hmem v => ?_, slotTyped_eq_readTyped s dt k, rfl⟩
  · rw [readTyped_signed _ (DataType.signed_of_mem hmem), sext_eq_ite (dt.bits_pos _)]
  · exact readTyped_unsigned _ (DataType.unsigned_of_mem hmem) v

/-! ## Comparisons that do not see the signedness -/

/-- Both readings say which patterns are equal. -/
theorem sext_eq_sext_iff (bits x y : Nat) : sext bits x = sext bits y ↔ x % 2 ^ bits = y % 2 ^ bits := by
  constructor
  · intro h
    have hmod : (x : Int) % 2 ^ bits = y % 2 ^ bits := by rw [← sext_emod, h, sext_emod]
    exact_mod_cast hmod
  · intro h
    rw [← sext_mod, h, sext_mod]

theorem sext_eq_zero_iff (bits x : Nat) : sext bits x = 0 ↔ x % 2 ^ bits = 0 := by
  have h := sext_eq_sext_iff bits x 0
  rwa [Nat.zero_mod, show sext bits 0 = 0 by simp [sext]] at h

/-- Equality and the zero tests ask only which operands are equal or 0. -/
theorem condEval_congr {cc : Cond} (hcc : cc ∈ [Cond.je, .jne, .jz, .jnz]) {a b a' b' : Int} (hab : a = b ↔ a' = b')
    (ha : a = 0 ↔ a' = 0) (hb : b = 0 ↔ b' = 0) : condEval cc a b = condEval cc a' b' := by
  rw [Bool.eq_iff_iff]
  simp only [List.mem_cons, List.not_mem_nil, or_false] at hcc
  rcases hcc with rfl | rfl | rfl | rfl
  all_goals simp only [condEval, beq_iff_eq, bne_iff_ne, Bool.and_eq_true, ne_eq, hab, ha, hb]

/-- A signed tag and an unsigned one of its width read slots apart and from 0 alike (R203). -/
theorem condEval_slotTyped_of_bits_eq {s : State} {a b : Slot} {cc : Cond} {d e : DataType}
    (hcc : cc ∈ [Cond.je, .jne, .jz, .jnz]) (hd : d.signed = true) (he : e.signed = false)
    (hbits : d.bits s.ptrWidth = e.bits s.ptrWidth) :
    condEval cc (s.slotTyped d a) (s.slotTyped d b) = condEval cc (s.slotTyped e a) (s.slotTyped e b) := by
  simp only [slotTyped_eq_readTyped, readTyped_signed _ hd, readTyped_unsigned _ he, hbits]
  exact condEval_congr hcc ((sext_eq_sext_iff ..).trans Int.ofNat_inj.symm)
    ((sext_eq_zero_iff ..).trans Int.natCast_eq_zero.symm) ((sext_eq_zero_iff ..).trans Int.natCast_eq_zero.symm)

/-- Settles O47: the four codes by `condEval_congr`; a low byte of 0xFF reads as -1 at `Int8` and as 255 at `UInt8`. -/
theorem signednessOfComparisons : Obligations.SignednessOfComparisons := by
  refine ⟨fun s a b cc d e hcc hde => ?_, fun s k hlow => ⟨?_, ?_⟩⟩
  · simp only [List.mem_cons, Prod.mk.injEq, List.not_mem_nil, or_false] at hde
    rcases hde with ⟨rfl, rfl⟩ | ⟨rfl, rfl⟩ | ⟨rfl, rfl⟩ | ⟨rfl, rfl⟩
    all_goals exact condEval_slotTyped_of_bits_eq hcc rfl rfl rfl
  · have hread : s.slotTyped .int8 k = -1 := by
      rw [slotTyped_eq_readTyped, readTyped_signed _ rfl, ← sext_mod]
      show sext 8 (s.regs[k].toNat % 256) = -1
      rw [hlow]
      rfl
    rw [hread]
    rfl
  · have hread : s.slotTyped .uint8 k = 255 := by
      rw [slotTyped_eq_readTyped, readTyped_unsigned _ rfl]
      exact congrArg Nat.cast hlow
    rw [hread]
    rfl

end Sys2Proof.Machine
end

section
/-! `Run()` (R307, R308): one end at most, the invariant along the way, and a jump to itself that never ends. -/

namespace Sys2Proof.Machine

section Run

variable {s t u : State}

/-- The runs of a Running core that answer a next state begin with a step that does. -/
theorem runFor_succ_eq_next {n : Nat} (hr : s.runState = .running) :
    runFor (n + 1) s = .next t ↔ ∃ u, step s = .next u ∧ runFor n u = .next t := by
  rw [runFor, if_pos hr]
  cases step s <;> simp

/-- Where `Run()` has ended, more steps change nothing. -/
theorem runFor_add_of_stopped {n : Nat} (m : Nat) (h : runFor n s = .next t) (ht : t.runState ≠ .running) :
    runFor (n + m) s = .next t := by
  induction n generalizing s with
  | zero =>
    obtain rfl := Host.Outcome.next.inj h
    exact runFor_stopped _ ht
  | succ n ih =>
    by_cases hr : s.runState = .running
    · obtain ⟨u, hstep, hrun⟩ := (runFor_succ_eq_next hr).1 h
      rw [Nat.add_right_comm, runFor_succ _ hr hstep]
      exact ih hrun
    · rw [runFor_stopped _ hr] at h ⊢
      exact h

/-- A core that is not Running is where its run ends. -/
theorem runsTo_iff_of_stopped (hr : s.runState ≠ .running) : RunsTo s t ↔ t = s := by
  constructor
  · rintro ⟨-, n, hn⟩
    rw [runFor_stopped n hr] at hn
    exact (Host.Outcome.next.inj hn).symm
  · rintro rfl
    exact ⟨hr, 0, rfl⟩

/-- A Running core runs as the state after its next step does. -/
theorem runsTo_iff_of_step (hr : s.runState = .running) (hstep : step s = .next t) : RunsTo s u ↔ RunsTo t u := by
  constructor
  · rintro ⟨hu, n, hn⟩
    cases n with
    | zero =>
      obtain rfl := Host.Outcome.next.inj hn
      exact absurd hr hu
    | succ n => exact ⟨hu, n, (runFor_succ n hr hstep).symm.trans hn⟩
  · rintro ⟨hu, n, hn⟩
    exact ⟨hu, n + 1, (runFor_succ n hr hstep).trans hn⟩

/-- The run's end is unique: with the steps of both runs, both ends are reached. -/
theorem runsTo_unique (h : RunsTo s t) (h' : RunsTo s u) : t = u := by
  obtain ⟨ht, n, hn⟩ := h
  obtain ⟨hu, m, hm⟩ := h'
  have hn' := runFor_add_of_stopped m hn ht
  have hm' := runFor_add_of_stopped n hm hu
  rw [Nat.add_comm m n] at hm'
  exact Host.Outcome.next.inj (hn'.symm.trans hm')

/-- The run state of a launch that was not refused and has begun (R48). -/
def Launched (r : RunState) : Prop :=
  r = .running ∨ r = .exited ∨ r = .endOfStream ∨ r = .faulted

theorem launched_of_step (hr : s.runState = .running) (hstep : step s = .next t) : Launched t.runState := by
  obtain ⟨h, -⟩ | ⟨h, -⟩ | ⟨h, -⟩ | ⟨h, -⟩ := endsOfALaunch s t hr hstep
  · exact .inl h
  · exact .inr (.inl h)
  · exact .inr (.inr (.inl h))
  · exact .inr (.inr (.inr h))

/-- Any number of steps answers a next state, which meets the invariant; a run from a launched core is one of a launched
core throughout. -/
theorem State.Inv.runFor_answers (h : s.Inv) (n : Nat) :
    ∃ t, runFor n s = .next t ∧ t.Inv ∧ (Launched s.runState → Launched t.runState) := by
  induction n generalizing s with
  | zero => exact ⟨s, rfl, h, id⟩
  | succ n ih =>
    by_cases hr : s.runState = .running
    · obtain ⟨t, hstep⟩ := stepAlwaysAnswersANextState s h
      obtain ⟨u, hrun, hinv, hlaunched⟩ := ih (stepKeepsTheInvariant s t h hstep)
      exact ⟨u, (runFor_succ n hr hstep).trans hrun, hinv, fun _ => hlaunched (launched_of_step hr hstep)⟩
    · exact ⟨s, runFor_stopped _ hr, h, id⟩

/-- A step that changes nothing is taken for ever. -/
theorem not_runsTo_of_step_self (hr : s.runState = .running) (hstep : step s = .next s) : ¬ RunsTo s t := by
  rintro ⟨ht, n, hn⟩
  have hloop : runFor n s = .next s := by
    clear hn
    induction n with
    | zero => rfl
    | succ n ih => exact (runFor_succ n hr hstep).trans ih
  obtain rfl := Host.Outcome.next.inj (hloop.symm.trans hn)
  exact ht hr

end Run

/-- Settles O58: each part by its lemma; an aligned jump to itself is a step that changes nothing. -/
theorem runRepeatsStepUntilNotRunning : Obligations.RunRepeatsStepUntilNotRunning := by
  refine ⟨fun s t hr => runsTo_iff_of_stopped hr, fun s t u hr hstep => runsTo_iff_of_step hr hstep,
    fun s t u => runsTo_unique, fun s t hinv hr hrun => ?_, fun s n hinv => ?_, fun s i n hf hd hjump ha t => ?_⟩
  · obtain ⟨ht, n, hn⟩ := hrun
    obtain ⟨u, hu, hinv', hlaunched⟩ := hinv.runFor_answers n
    obtain rfl := Host.Outcome.next.inj (hn.symm.trans hu)
    exact ⟨(hlaunched (.inl hr)).resolve_left ht, hinv', step_stopped ht⟩
  · obtain ⟨t, hrun, hinv', -⟩ := hinv.runFor_answers n
    exact ⟨t, hrun, hinv'⟩
  · obtain ⟨hr, -, -⟩ := id hf
    have hself : exec i s = .next s := (exec_of_jumpTarget? hjump).trans (jumpTo_aligned ha)
    exact not_runsTo_of_step_self hr ((step_of_decode_ok hf hd).trans hself)

end Sys2Proof.Machine
end

section
/-! The checks of a launch in their order (R303), and the host's view between steps: `STATUS` (R48), the register map
(R51) and the image write (R80, R311). -/

namespace Sys2Proof.Machine

/-! ## The checks of a launch -/

section LaunchChecks

variable {p : Launch}

theorem Launch.baseAligned_iff : p.baseAligned = true ↔ p.imageBase % 256 = 0 := by
  simp [Launch.baseAligned]

theorem Launch.representable_iff : p.representable = true ↔ p.imageBase + p.image.length ≤ 2 ^ p.ptrWidth ∧
    p.imageBase + p.entryOffset < 2 ^ p.ptrWidth ∧ p.stackBase + p.stackCapacity ≤ 2 ^ p.ptrWidth := by
  simp [Launch.representable, and_assoc]

theorem Launch.disjoint_iff : p.disjoint = true ↔ ¬ ∃ a, p.imageBase ≤ a ∧ a < p.imageBase + p.image.length ∧
    p.stackBase ≤ a ∧ a < p.stackBase + p.stackCapacity :=
  rangesDisjoint_iff.trans ⟨fun h ⟨a, hlow, hhigh, hstack⟩ => h a hlow hhigh hstack,
    fun h a hlow hhigh hstack => h ⟨a, hlow, hhigh, hstack⟩⟩

theorem Launch.inRange_iff : p.inRange = true ↔ (p.ptrWidth = 32 ∨ p.ptrWidth = 64) ∧ 1 ≤ p.stackCapacity ∧
    ∀ k, p.ledgerCapacity = some k → 1 ≤ k := by
  cases hk : p.ledgerCapacity <;> simp [Launch.inRange, hk, and_assoc]

/-- A failed check refuses the launch with its number, and the core takes no step. -/
theorem Launch.refusedWith_of_failedCheck {k : Nat} (u : State) (h : p.failedCheck = some k) :
    RefusedWith (State.launch p u) k := by
  have hlaunch : State.launch p u = p.refused u k := by rw [State.launch, h]
  rw [hlaunch]
  exact ⟨rfl, rfl, rfl, step_stopped nofun⟩

/-- Only a failed check leaves a launch refused. -/
theorem Launch.eq_refused_of_runState {u : State} (h : (State.launch p u).runState = .refused) :
    ∃ k, State.launch p u = p.refused u k := by
  unfold State.launch at h ⊢
  split at h
  · exact ⟨_, rfl⟩
  · split at h
    · cases h
    · cases h

/-- A launch whose preconditions hold is not refused. -/
theorem Launch.Preconditions.runState_ne_refused (hp : p.Preconditions) (u : State) :
    (State.launch p u).runState ≠ .refused := by
  by_cases ha : p.entry % 16 = 0
  · rw [hp.launch_of_aligned u ha]
    nofun
  · rw [hp.launch_of_misaligned u ha]
    nofun

end LaunchChecks

/-- Settles O50: each check as R303 words it, then the state that the first failed one leaves. -/
theorem launchChecksInOrder : Obligations.LaunchChecksInOrder := by
  intro p u representable overlap inRange
  have hbase : p.baseAligned = true ↔ p.imageBase % 256 = 0 := Launch.baseAligned_iff
  have hrepr : p.representable = true ↔ representable := Launch.representable_iff
  have hdisj : p.disjoint = true ↔ ¬ overlap := Launch.disjoint_iff
  have hrange : p.inRange = true ↔ inRange := Launch.inRange_iff
  refine ⟨fun h1 => Launch.refusedWith_of_failedCheck u ?_, fun h1 h2 => Launch.refusedWith_of_failedCheck u ?_,
    fun h1 h2 h3 => Launch.refusedWith_of_failedCheck u ?_, fun h1 h2 h3 h4 => Launch.refusedWith_of_failedCheck u ?_,
    fun h1 h2 h3 h4 => ?_, fun hrefused => ?_⟩
  · simp [Launch.failedCheck, Bool.eq_false_iff.2 (mt hbase.1 h1)]
  · simp [Launch.failedCheck, hbase.2 h1, Bool.eq_false_iff.2 (mt hrepr.1 h2)]
  · simp [Launch.failedCheck, hbase.2 h1, hrepr.2 h2, Bool.eq_false_iff.2 (mt hdisj.1 fun hapart => hapart h3)]
  · simp [Launch.failedCheck, hbase.2 h1, hrepr.2 h2, hdisj.2 h3, Bool.eq_false_iff.2 (mt hrange.1 h4)]
  · have hp : p.Preconditions := ⟨h1, h2, fun a hlow hhigh hstack => h3 ⟨a, hlow, hhigh, hstack⟩, h4⟩
    exact hp.runState_ne_refused u
  · obtain ⟨k, hlaunch⟩ := Launch.eq_refused_of_runState hrefused
    rw [hlaunch]
    exact ⟨rfl, p.profile_eq_w64_iff, rfl, rfl⟩

/-! ## `STATUS` -/

theorem toNat_append_eq_add {m n : Nat} (x : BitVec m) (y : BitVec n) : (x ++ y).toNat = x.toNat * 2 ^ n + y.toNat := by
  rw [BitVec.toNat_append, ← Nat.shiftLeft_add_eq_or_of_lt y.isLt, Nat.shiftLeft_eq]

/-- The two fields of `STATUS` (R48). -/
theorem State.statusWord_toNat (s : State) :
    s.statusWord.toNat = s.runState.code.toNat + 256 * s.faultCodeField.toNat := by
  rw [State.statusWord, toNat_append_eq_add, toNat_append_eq_add, toNat_append_eq_add]
  simp only [BitVec.ofNat_eq_ofNat, BitVec.toNat_zero]
  omega

/-- Settles O53: the numbers of the two fields, and the word they make. -/
theorem statusWordLayout : Obligations.StatusWordLayout := by
  intro s r n hr hs
  have hrun : s.runState.code.toNat = n := by
    rw [hs]
    cases r <;> simp_all [RunState.code]
  refine ⟨fun hnone => ?_, fun c m hc hsome => ?_⟩
  · rw [State.statusWord_toNat, hrun, State.faultCodeField, hnone]
    rfl
  · have hfault : s.faultCodeField.toNat = m := by
      rw [State.faultCodeField, hsome]
      cases c <;> simp_all [FaultCode.code]
    rw [State.statusWord_toNat, hrun, hfault]

/-! ## The register map -/

/-- A value that its register's width holds is read whole (R51). -/
theorem State.readHost_of_lt {s : State} {r : HostReg} (h : s.hostValue r < 2 ^ r.width s.ptrWidth) :
    s.readHost r = s.hostValue r := by
  rw [State.readHost, truncTo_natCast, Nat.mod_eq_of_lt h]

/-- Every register holds its value, but for the corners of log 1 and log 14. -/
theorem State.Inv.hostValue_lt {s : State} (h : s.Inv) (hlimit : s.limit < 2 ^ s.ptrWidth.bits)
    (hlast : s.last < 2 ^ s.ptrWidth.bits) (hledger : s.ledger.length < 2 ^ 32) (r : HostReg) :
    s.hostValue r < 2 ^ r.width s.ptrWidth := by
  cases r with
  | status => exact s.statusWord.isLt
  | faultPc => exact h.faultPc_repr
  | faultInfo => exact s.faultInfo.isLt
  | pc => exact h.pc_repr.elim id fun hpc => Nat.lt_of_le_of_lt (Nat.le_of_eq hpc) hlimit
  | start => exact Nat.lt_of_le_of_lt h.image_order hlimit
  | limit => exact hlimit
  | entry => exact h.entry_repr
  | sp => exact Nat.lt_of_le_of_lt h.sp_high hlast
  | stackFirst => exact Nat.lt_trans h.stack_order hlast
  | stackLast => exact hlast
  | ledgerDepth => exact hledger
  | retDescTag => exact s.retDesc.tag.isLt
  | retDescLength => exact s.retDesc.length.isLt
  | retDescValue => exact s.retDesc.value.isLt
  | config => exact s.configWord.isLt

/-- Settles O56: the map's rows are the model's numbers, widths and values, and each value fits. -/
theorem hostRegistersReadTheState : Obligations.HostRegistersReadTheState := by
  intro s r no width value hinv hlimit hlast hledger hrow
  have hmap : r.number = no ∧ r.width s.ptrWidth = width ∧ s.hostValue r = value := by
    simp only [List.mem_cons, Prod.mk.injEq, List.not_mem_nil, or_false] at hrow
    rcases hrow with ⟨rfl, rfl, rfl, rfl⟩ | ⟨rfl, rfl, rfl, rfl⟩ | ⟨rfl, rfl, rfl, rfl⟩ | ⟨rfl, rfl, rfl, rfl⟩ |
      ⟨rfl, rfl, rfl, rfl⟩ | ⟨rfl, rfl, rfl, rfl⟩ | ⟨rfl, rfl, rfl, rfl⟩ | ⟨rfl, rfl, rfl, rfl⟩ |
      ⟨rfl, rfl, rfl, rfl⟩ | ⟨rfl, rfl, rfl, rfl⟩ | ⟨rfl, rfl, rfl, rfl⟩ | ⟨rfl, rfl, rfl, rfl⟩ |
      ⟨rfl, rfl, rfl, rfl⟩ | ⟨rfl, rfl, rfl, rfl⟩ | ⟨rfl, rfl, rfl, rfl⟩
    all_goals exact ⟨rfl, rfl, rfl⟩
  obtain ⟨rfl, rfl, rfl⟩ := hmap
  have hfits := hinv.hostValue_lt hlimit hlast hledger r
  exact ⟨rfl, rfl, State.readHost_of_lt hfits, hfits⟩

/-! ## The image write -/

section ImageWrite

variable {s : State} {a n : Nat} (v : Nat)

theorem hostStoreImage_of_allowed (h : s.runState ≠ .running ∧ s.start ≤ a ∧ a + n ≤ s.limit) :
    s.hostStoreImage a n v = some ((s.withStack (s.mem.writeBytes a (leBytes n v)) s.sp).withPc s.pc) := by
  rw [State.hostStoreImage, if_pos h]
  rfl

theorem hostStoreImage_of_refused (h : ¬ (s.runState ≠ .running ∧ s.start ≤ a ∧ a + n ≤ s.limit)) :
    s.hostStoreImage a n v = none := by
  rw [State.hostStoreImage, if_neg h]

end ImageWrite

/-- Settles O57: an allowed write is a store that leaves the stack pointer and the cursor where they are. -/
theorem hostWritesOnlyTheImage : Obligations.HostWritesOnlyTheImage := by
  intro s a n v
  by_cases h : s.runState ≠ .running ∧ s.start ≤ a ∧ a + n ≤ s.limit
  · rw [hostStoreImage_of_allowed v h]
    refine ⟨iff_of_false (Option.some_ne_none _) ?_, ?_⟩
    · obtain ⟨hr, hlow, hhigh⟩ := h
      rintro (hr' | hlow' | hhigh')
      · exact hr hr'
      · omega
      · omega
    · rintro t ⟨⟩
      refine ⟨storeEffect_withStack s a n v s.sp s.pc, fun hinv => ?_⟩
      exact (hinv.withStack (Memory.wf_writeBytes _ _ hinv.mem_wf) hinv.stackInBounds).withPc hinv.pc_repr
  · rw [hostStoreImage_of_refused v h]
    refine ⟨iff_of_true rfl ?_, fun t ht => absurd ht.symm (Option.some_ne_none t)⟩
    by_cases hr : s.runState = .running
    · exact .inl hr
    · have hout : ¬ (s.start ≤ a ∧ a + n ≤ s.limit) := fun hinside => h ⟨hr, hinside⟩
      right
      omega

end Sys2Proof.Machine
end
